-- ==== Sys2Proof/Word.lean ====
section
/-! DEFINITION. The one word type of the block: the byte (spec/00_scope.md R9, spec/20_memory.md R51).
A line level is a `Bool`, `true` being level 1. -/

namespace Sys2Proof

/-- A byte: 8 bits, bit 7 the most significant (00 R9, GK1). -/
abbrev Byte := BitVec 8

end Sys2Proof
end

