-- ==== Sys2Proof/Config.lean ====
section
/-! DEFINITION. What an implementation fixes (the parameters of spec/00_scope.md R6) and the free values.
An OPEN parameter of the implementation and a free value are opaque constants: no proof can see them. -/

namespace Sys2Proof

/-- `BUS_WIDTH` (00 R6). -/
def busWidth : Nat := 8
/-- `LINE_WIDTH` (00 R6). -/
def lineWidth : Nat := 16
/-- `LINE_COUNT` (00 R6). -/
def lineCount : Nat := 2
/-- `ROW_STRIDE` (00 R6). -/
def rowStride : Nat := 0x40

/-- `GLYPH[s][r]`: 8 slots of 8 row bytes (10 R31). -/
abbrev GlyphTable := Vector (Vector Byte 8) 8

/-- The parameters of 00 R6. State holds one such record, and no step changes it (20 R65); a statement over every
state therefore holds for every value of the parameters (log 4). The defaults are the spec's GK3 and GK5 values (log 5). -/
structure Config where
  /-- `T`, the largest number of status samples one `WaitReady` takes -/
  pollBound : Nat
  /-- `TICK_US`; no rule reads it -/
  tickUs : Nat
  /-- `POWERUP_SETTLE_MS` -/
  powerupSettleMs : Nat
  /-- `CONTRAST` -/
  contrast : BitVec 6
  /-- `GLYPH` -/
  glyph : GlyphTable
  cmdFuncsetIs1 : Byte := 0x39#8
  cmdBias : Byte := 0x14#8
  cmdPwrBase : Byte := 0x54#8
  cmdFollower : Byte := 0x6D#8
  cmdContrastBase : Byte := 0x70#8
  cmdFuncsetIs0 : Byte := 0x38#8
  cmdSetCgram : Byte := 0x40#8
  cmdDisplayOn : Byte := 0x0C#8
  cmdClear : Byte := 0x01#8
  cmdEntryInc : Byte := 0x06#8
  cmdSetDdram : Byte := 0x80#8
  /-- `SPACE`, the padding character -/
  space : Byte := 0x20#8
  /-- `DEBUG_ASSERT`: a contract violation is a fault (60 R188) -/
  debugAssert : Bool := false
  deriving DecidableEq, Repr

/-- The constraints of 00 R6: `T >= 1`, and the zero low bits that make each OR a clean field insert. -/
abbrev Config.Valid (c : Config) : Prop :=
  1 ≤ c.pollBound ∧ c.cmdPwrBase &&& 0x03#8 = 0#8 ∧ c.cmdContrastBase &&& 0x0F#8 = 0#8
    ∧ c.cmdSetCgram &&& 0x3F#8 = 0#8 ∧ c.cmdSetDdram &&& 0x7F#8 = 0#8

/-- `T - 1` of the implementation: OPEN (D8, log 4). -/
opaque Config.openPollBoundPred : Nat
/-- `TICK_US` of the implementation: OPEN (D9, log 4). -/
opaque Config.openTickUs : Nat
/-- `POWERUP_SETTLE_MS` of the implementation: OPEN (D9, log 4). -/
opaque Config.openPowerupSettleMs : Nat
/-- `CONTRAST` of the implementation: OPEN (D16, log 4). -/
opaque Config.openContrast : BitVec 6
/-- `GLYPH` of the implementation: OPEN (D16, log 4). -/
opaque Config.openGlyph : GlyphTable

/-- The implementation the machine starts with at reset: every OPEN parameter opaque, the rest at the spec's
defaults (log 4, log 5). -/
def Config.implementation : Config where
  pollBound := Config.openPollBoundPred + 1
  tickUs := Config.openTickUs
  powerupSettleMs := Config.openPowerupSettleMs
  contrast := Config.openContrast
  glyph := Config.openGlyph

/-- FREE VALUE (93 U1, D28, log 6): the byte the n-th bus read finds once the listed answers are used up. -/
opaque Config.busAnswer : Nat → Byte
/-- FREE VALUE (log 14): the instruction table the display is in when its state is unknown. -/
opaque Config.displayTable : Nat → Bool
/-- FREE VALUE (log 14): the display's address counter when its state is unknown. -/
opaque Config.displayAddress : Nat → BitVec 7
/-- FREE VALUE (log 14): whether the address counter stands in CGRAM when the display's state is unknown. -/
opaque Config.displayInCgram : Nat → Bool
/-- FREE VALUE (log 14): whether the display is on when its state is unknown. -/
opaque Config.displayOn : Nat → Bool

end Sys2Proof
end

