-- ==== Sys2Proof/Syntax.lean ====
section
/-! DEFINITION. The operations of spec/opcode_table.json as one inductive, their operand types, and the
requests by which an operation reaches the block (spec/30_encoding.md R70 to R73, spec/92_eei_decisions.md D30). -/

namespace Sys2Proof

/-- Operand of `SetBusDirection` (40 R101). -/
inductive Dir where
  | input
  | output
  deriving DecidableEq, Repr

/-- The three control lines `SetControlLine` reaches (40 R104). -/
inductive Line where
  | e
  | rw
  | rs
  deriving DecidableEq, Repr

/-- The display's instruction tables (30 R86): `zero` is the base (default) table, `one` the extended one. -/
inductive InstructionTable where
  | zero
  | one
  deriving DecidableEq, Repr

/-- One constructor per row of spec/opcode_table.json. The operands `x`, `y`, `n` are naturals (30 R73, D19);
`text` is the byte sequence delivered beside the request word (30 R72, D18). -/
inductive Instr where
  -- REQ16, exposed
  | powerOn
  | powerOff
  | writeCmd (b : Byte)
  | writeData (b : Byte)
  | gotoxy (x y : Nat)
  | putc (c : Byte)
  | puts (text : List Byte)
  | writeLine (n : Nat) (text : List Byte)
  -- REQ16, internal micro-operations
  | sampleStatus
  | waitReady
  | setBusDir (d : Dir)
  | writeBus (b : Byte)
  | readBus
  | setCtl (line : Line) (lvl : Bool)
  -- BUS10 frames
  | busCmd (b : Byte)
  | busDat (b : Byte)
  | busSts (v : Byte)
  -- LCDCMD8 display commands
  | lcdFuncsetIs1
  | lcdBias
  | lcdPwrContrastHi (c : BitVec 2)
  | lcdFollower
  | lcdContrastLo (c : BitVec 4)
  | lcdFuncsetIs0
  | lcdSetCgram (a : BitVec 6)
  | lcdDisplayOn
  | lcdClear
  | lcdEntryInc
  | lcdSetDdram (a : BitVec 7)
  deriving DecidableEq, Repr

/-- Where a request comes from, which fixes its format (30 R70).
DESIGN CHOICE (log 2): the spec has the host issue exposed `REQ16` words only; the other formats are what one
operation hands to another, and the model gives each a port of its own so that every row can be run. -/
inductive Port where
  /-- a `REQ16` word from the host; micro-operation codes are refused (30 R89b) -/
  | host
  /-- a `REQ16` word from an operation of the block itself (30 R73: "only other operations invoke") -/
  | inner
  /-- a `BUS10` frame (30 R71) -/
  | bus
  /-- an `LCDCMD8` byte, read under the given instruction table (30 R74, R86) -/
  | command (table : InstructionTable)
  deriving DecidableEq, Repr

/-- One request: its port, its word (narrower formats in the low bits), and the text beside it (30 R72). -/
structure Request where
  port : Port
  word : BitVec 16
  text : List Byte
  deriving DecidableEq, Repr

/-- Why a request word is refused (30 R89, 93 U8, U12). -/
inductive DecodeError where
  /-- `op` 0x0 or 0xF (30 R89a) -/
  | reservedOp
  /-- a field that 30 R73 shows as 0 is not 0 (30 R89a) -/
  | nonzeroField
  /-- `SET_CTL` with line code 3 (30 R89a) -/
  | badLine
  /-- a micro-operation code from the host (30 R89b) -/
  | internalOp
  /-- a `BUS10` frame with RS = RW = 1, never generated (30 R71, R89c) -/
  | dataRead
  /-- bits set above a `BUS10` frame or an `LCDCMD8` byte: DESIGN CHOICE (log 2) -/
  | wideWord
  deriving DecidableEq, Repr

end Sys2Proof
end

