-- ==== Sys2Proof/WellFormed.lean ====
section
/-! DEFINITION. Which operations have a request word: `x`, `y`, `n` must fit their `REQ16` fields
(spec/30_encoding.md R73, spec/93_implementation_defined.md U22). Values that do not fit are still operations
(contract violations, D19), but no word encodes them. -/

namespace Sys2Proof

/-- The operands fit the fields of the operation's word: `x` in `arg` (8 bits), `y` and `n` in `aux` (4 bits). -/
def Instr.wellFormed : Instr → Bool
  | .gotoxy x y => x < 256 && y < 16
  | .writeLine n _ => n < 16
  | .powerOn | .powerOff | .writeCmd _ | .writeData _ | .putc _ | .puts _ => true
  | .sampleStatus | .waitReady | .setBusDir _ | .writeBus _ | .readBus | .setCtl _ _ => true
  | .busCmd _ | .busDat _ | .busSts _ => true
  | .lcdFuncsetIs1 | .lcdBias | .lcdPwrContrastHi _ | .lcdFollower | .lcdContrastLo _ | .lcdFuncsetIs0 => true
  | .lcdSetCgram _ | .lcdDisplayOn | .lcdClear | .lcdEntryInc | .lcdSetDdram _ => true

/-- The operations the host may issue (30 R73, column "exposed"). -/
def Instr.exposed : Instr → Bool
  | .powerOn | .powerOff | .writeCmd _ | .writeData _ | .gotoxy _ _ | .putc _ | .puts _ | .writeLine _ _ => true
  | .sampleStatus | .waitReady | .setBusDir _ | .writeBus _ | .readBus | .setCtl _ _ => false
  | .busCmd _ | .busDat _ | .busSts _ => false
  | .lcdFuncsetIs1 | .lcdBias | .lcdPwrContrastHi _ | .lcdFollower | .lcdContrastLo _ | .lcdFuncsetIs0 => false
  | .lcdSetCgram _ | .lcdDisplayOn | .lcdClear | .lcdEntryInc | .lcdSetDdram _ => false

end Sys2Proof
end

