-- ==== Sys2Proof/Decode.lean ====
section
/-! DEFINITION. From request words to operations and back (spec/30_encoding.md R70 to R89). Decoding is total and
refuses by name; the encoder is written from the same tables. The command bytes are the configuration's, on both sides
(00 R6: each is a parameter; log 16). -/

namespace Sys2Proof

/-- `op[15:12]` (30 R72). -/
def reqOp (w : BitVec 16) : BitVec 4 := w.extractLsb' 12 4
/-- `aux[11:8]` (30 R72). -/
def reqAux (w : BitVec 16) : BitVec 4 := w.extractLsb' 8 4
/-- `arg[7:0]` (30 R72); also the byte of a `BUS10` frame or an `LCDCMD8` word. -/
def reqArg (w : BitVec 16) : Byte := w.extractLsb' 0 8

/-- The operation, if the fields it does not use are zero (30 R72). -/
def unusedZero (ok : Bool) (i : Instr) : Except DecodeError Instr :=
  if ok then .ok i else .error .nonzeroField

/-- `SET_CTL`: line codes 0, 1, 2 are E, RW, RS; `arg[0]` is the level (30 R73, R89a). -/
def decodeSetCtl (aux : BitVec 4) (arg : Byte) : Except DecodeError Instr :=
  match aux.toNat with
  | 0 => unusedZero (arg.extractLsb' 1 7 == 0#7) (.setCtl .e (arg.getLsbD 0))
  | 1 => unusedZero (arg.extractLsb' 1 7 == 0#7) (.setCtl .rw (arg.getLsbD 0))
  | 2 => unusedZero (arg.extractLsb' 1 7 == 0#7) (.setCtl .rs (arg.getLsbD 0))
  | 3 => .error .badLine
  | _ => .error .nonzeroField

/-- The request codes of 30 R73, with the refusals of R89a. -/
def decodeReq16 (w : BitVec 16) (text : List Byte) : Except DecodeError Instr :=
  let aux := reqAux w
  let arg := reqArg w
  match (reqOp w).toNat with
  | 0x1 => unusedZero (aux == 0#4 && arg == 0#8) .powerOn
  | 0x2 => unusedZero (aux == 0#4 && arg == 0#8) .powerOff
  | 0x3 => unusedZero (aux == 0#4) (.writeCmd arg)
  | 0x4 => unusedZero (aux == 0#4) (.writeData arg)
  | 0x5 => .ok (.gotoxy arg.toNat aux.toNat)
  | 0x6 => unusedZero (aux == 0#4) (.putc arg)
  | 0x7 => unusedZero (aux == 0#4 && arg == 0#8) (.puts text)
  | 0x8 => unusedZero (arg == 0#8) (.writeLine aux.toNat text)
  | 0x9 => unusedZero (aux == 0#4 && arg == 0#8) .sampleStatus
  | 0xA => unusedZero (aux == 0#4 && arg == 0#8) .waitReady
  | 0xB =>
    unusedZero (aux == 0#4 && arg.extractLsb' 1 7 == 0#7) (.setBusDir (if arg.getLsbD 0 then .output else .input))
  | 0xC => unusedZero (aux == 0#4) (.writeBus arg)
  | 0xD => unusedZero (aux == 0#4 && arg == 0#8) .readBus
  | 0xE => decodeSetCtl aux arg
  | _ => .error .reservedOp

/-- `BUS10`: bit 9 is RS, bit 8 is RW, bits 7:0 the byte on the bus (30 R71); RS = RW = 1 is refused (30 R89c,
20 R50; 93 U12). Bits above the frame are no `BUS10` word: refused, DESIGN CHOICE (log 2). -/
def decodeBus10 (w : BitVec 16) : Except DecodeError Instr :=
  match (w.extractLsb' 8 8).toNat with
  | 0 => .ok (.busCmd (reqArg w))
  | 1 => .ok (.busSts (reqArg w))
  | 2 => .ok (.busDat (reqArg w))
  | 3 => .error .dataRead
  | _ => .error .wideWord

/-! The command bytes that carry a field: the parameter OR'd with the field (30 R74). -/

/-- The power/contrast-high byte (30 R77). -/
def pwrContrastByte (c : Config) (hi : BitVec 2) : Byte := c.cmdPwrBase ||| hi.setWidth 8

/-- The contrast-low byte (30 R79). -/
def contrastLowByte (c : Config) (lo : BitVec 4) : Byte := c.cmdContrastBase ||| lo.setWidth 8

/-- The set-CGRAM-address byte (30 R81). -/
def setCgramByte (c : Config) (a : BitVec 6) : Byte := c.cmdSetCgram ||| a.setWidth 8

/-- The set-DDRAM-address byte (30 R83). -/
def setDdramByte (c : Config) (a : BitVec 7) : Byte := c.cmdSetDdram ||| a.setWidth 8

/-! The bits of such a byte that are the parameter's: the others are zero in the parameter (00 R6). -/

/-- All but bits 1:0 (00 R6, `CMD_PWR_BASE`). -/
def pwrMask : Byte := 0xFC#8
/-- All but bits 3:0 (00 R6, `CMD_CONTRAST_BASE`). -/
def contrastMask : Byte := 0xF0#8
/-- All but bits 5:0 (00 R6, `CMD_SET_CGRAM`). -/
def setCgramMask : Byte := 0xC0#8
/-- All but bits 6:0 (00 R6, `CMD_SET_DDRAM`). -/
def setDdramMask : Byte := 0x80#8

/-- The commands whose meaning is the same in both instruction tables (30 R86). -/
def decodeCommonCommand (c : Config) (b : Byte) : Option Instr :=
  if b = c.cmdFuncsetIs1 then some .lcdFuncsetIs1
  else if b = c.cmdFuncsetIs0 then some .lcdFuncsetIs0
  else if b = c.cmdDisplayOn then some .lcdDisplayOn
  else if b = c.cmdClear then some .lcdClear
  else if b = c.cmdEntryInc then some .lcdEntryInc
  else if b &&& setDdramMask = c.cmdSetDdram then some (.lcdSetDdram (b.extractLsb' 0 7))
  else none

/-- The commands of one instruction table alone: bias, booster, follower, contrast in table 1 (30 R76 to R79),
set-CGRAM-address in table 0 (30 R81). -/
def decodeTableCommand (c : Config) (t : InstructionTable) (b : Byte) : Option Instr :=
  match t with
  | .one =>
    if b = c.cmdBias then some .lcdBias
    else if b &&& pwrMask = c.cmdPwrBase then some (.lcdPwrContrastHi (b.extractLsb' 0 2))
    else if b = c.cmdFollower then some .lcdFollower
    else if b &&& contrastMask = c.cmdContrastBase then some (.lcdContrastLo (b.extractLsb' 0 4))
    else none
  | .zero =>
    if b &&& setCgramMask = c.cmdSetCgram then some (.lcdSetCgram (b.extractLsb' 0 6))
    else none

/-- The display command a byte is under a configuration and an instruction table, if it is one of the eleven. The first
row in the order written here that has the byte, where a configuration gives two rows one byte: DESIGN CHOICE (log 16);
either row sends that byte. -/
def decodeCommand (c : Config) (t : InstructionTable) (b : Byte) : Option Instr :=
  match decodeCommonCommand c b with
  | some i => some i
  | none => decodeTableCommand c t b

/-- `LCDCMD8` under a configuration and an instruction table (30 R74 to R86). A byte that is none of the eleven commands
there is passed through by `WriteCommand` (30 R89d). Bits above the byte are no `LCDCMD8` word: refused, DESIGN CHOICE
(log 2). -/
def decodeLcd8 (c : Config) (t : InstructionTable) (w : BitVec 16) : Except DecodeError Instr :=
  if w.extractLsb' 8 8 = 0#8 then .ok ((decodeCommand c t (reqArg w)).getD (.writeCmd (reqArg w)))
  else .error .wideWord

/-- Only exposed operations may come from the host (30 R73, R89b). -/
def hostOnly (i : Instr) : Except DecodeError Instr :=
  if i.exposed then .ok i else .error .internalOp

/-- The operation a request names under a configuration, or why it is refused. -/
def decode (c : Config) (r : Request) : Except DecodeError Instr :=
  match r.port with
  | .host =>
    match decodeReq16 r.word r.text with
    | .ok i => hostOnly i
    | .error e => .error e
  | .inner => decodeReq16 r.word r.text
  | .bus => decodeBus10 r.word
  | .command t => decodeLcd8 c t r.word

/-! The encoder (30 R71 to R85, R90). -/

/-- `op ++ aux ++ arg` (30 R72). -/
def req16 (op aux : BitVec 4) (arg : Byte) : BitVec 16 := (op ++ aux ++ arg).setWidth 16

/-- A byte-wide word under two frame bits: `BUS10` (30 R71); 0 for an `LCDCMD8` byte. -/
def frame (rsrw : BitVec 8) (b : Byte) : BitVec 16 := (rsrw ++ b).setWidth 16

/-- The line code in `aux` (30 R73). -/
def lineCode : Line → BitVec 4
  | .e => 0#4
  | .rw => 1#4
  | .rs => 2#4

/-- A one-bit operand in `arg[0]` (30 R73). -/
def bitArg (b : Bool) : Byte := if b then 1#8 else 0#8

/-- A display command's byte on the command port. -/
def commandRequest (t : InstructionTable) (b : Byte) : Request := ⟨.command t, frame 0#8 b, []⟩

/-- The request of an operation under a configuration, from the port that may issue it. -/
def encode (c : Config) : Instr → Request
  | .powerOn => ⟨.host, req16 0x1#4 0#4 0#8, []⟩
  | .powerOff => ⟨.host, req16 0x2#4 0#4 0#8, []⟩
  | .writeCmd b => ⟨.host, req16 0x3#4 0#4 b, []⟩
  | .writeData b => ⟨.host, req16 0x4#4 0#4 b, []⟩
  | .gotoxy x y => ⟨.host, req16 0x5#4 (BitVec.ofNat 4 y) (BitVec.ofNat 8 x), []⟩
  | .putc ch => ⟨.host, req16 0x6#4 0#4 ch, []⟩
  | .puts text => ⟨.host, req16 0x7#4 0#4 0#8, text⟩
  | .writeLine n text => ⟨.host, req16 0x8#4 (BitVec.ofNat 4 n) 0#8, text⟩
  | .sampleStatus => ⟨.inner, req16 0x9#4 0#4 0#8, []⟩
  | .waitReady => ⟨.inner, req16 0xA#4 0#4 0#8, []⟩
  | .setBusDir d => ⟨.inner, req16 0xB#4 0#4 (bitArg (d == .output)), []⟩
  | .writeBus b => ⟨.inner, req16 0xC#4 0#4 b, []⟩
  | .readBus => ⟨.inner, req16 0xD#4 0#4 0#8, []⟩
  | .setCtl line lvl => ⟨.inner, req16 0xE#4 (lineCode line) (bitArg lvl), []⟩
  | .busCmd b => ⟨.bus, frame 0b00#8 b, []⟩
  | .busSts v => ⟨.bus, frame 0b01#8 v, []⟩
  | .busDat b => ⟨.bus, frame 0b10#8 b, []⟩
  | .lcdFuncsetIs1 => commandRequest .zero c.cmdFuncsetIs1
  | .lcdBias => commandRequest .one c.cmdBias
  | .lcdPwrContrastHi hi => commandRequest .one (pwrContrastByte c hi)
  | .lcdFollower => commandRequest .one c.cmdFollower
  | .lcdContrastLo lo => commandRequest .one (contrastLowByte c lo)
  | .lcdFuncsetIs0 => commandRequest .one c.cmdFuncsetIs0
  | .lcdSetCgram a => commandRequest .zero (setCgramByte c a)
  | .lcdDisplayOn => commandRequest .zero c.cmdDisplayOn
  | .lcdClear => commandRequest .zero c.cmdClear
  | .lcdEntryInc => commandRequest .zero c.cmdEntryInc
  | .lcdSetDdram a => commandRequest .zero (setDdramByte c a)

/-! The opcode table's words (log 17). -/

/-- The port a table row's word belongs to: 8 bits are an `LCDCMD8` byte (read under table 1 where that table has
the command, else under table 0); up to 10 bits, or `op` 0 (which no `REQ16` row has), are a `BUS10` frame; the
micro-operation codes come from inside the block, the rest from the host. -/
def tablePort (c : Config) (nbits w : Nat) : Port :=
  if nbits ≤ 8 then
    if (decodeCommand c .one (BitVec.ofNat 8 w)).isSome then .command .one else .command .zero
  else if nbits ≤ 10 then .bus
  else
    match (reqOp (BitVec.ofNat 16 w)).toNat with
    | 0x0 => .bus
    | 0x9 | 0xA | 0xB | 0xC | 0xD | 0xE => .inner
    | _ => .host

/-- The request that carries a table row's word, with an empty text beside it. -/
def tableRequest (c : Config) (nbits w : Nat) : Request := ⟨tablePort c nbits w, BitVec.ofNat 16 w, []⟩

/-- What the decoder reads from a word of spec/opcode_table.json, at the configuration of reset: the table's bytes are
the defaults of 00 R6, and these stand there (log 5, log 17). -/
def decodeTableWord (nbits w : Nat) : Option Instr :=
  if w < 65536 then
    match decode Config.implementation (tableRequest Config.implementation nbits w) with
    | .ok i => some i
    | .error _ => none
  else none

end Sys2Proof
end

