-- ==== Sys2Proof/Machine/State.lean ====
section
/-! DEFINITION. The state of the block (spec/10_state.md R20 to R38), the inputs that reach it, the observer's record
(spec/00_scope.md R8), and the display's hidden state as the reference fixture keeps it (spec/95_test_vectors.md Part 2). -/

namespace Sys2Proof.Machine

/-- `BUS_DIR` (10 R22): all eight bus pins together. -/
inductive BusDir where
  | unconf
  | input
  | output
  deriving DecidableEq, Repr

/-- `DIR_E`, `DIR_RW`, `DIR_RS`, `DIR_PWR` (10 R23, R24). -/
inductive PinDir where
  | unconf
  | output
  deriving DecidableEq, Repr

/-- The pins `ConfigPin` configures (60 R196). -/
inductive Pin where
  | e
  | rw
  | rs
  | pwr
  deriving DecidableEq, Repr

/-- The pin record (10 R20, R21 to R24). Levels: `true` is 1; RW 1 reads, RS 1 selects the data register (GK2, log 19). -/
structure Pins where
  busDir : BusDir
  busOut : Byte
  e : Bool
  rw : Bool
  rs : Bool
  pwr : Bool
  dirE : PinDir
  dirRw : PinDir
  dirRs : PinDir
  dirPwr : PinDir
  deriving DecidableEq, Repr

/-- `SEQ` (10 R26, 43 R145). -/
inductive Seq where
  | unpowered
  | powering
  | ready
  | off
  deriving DecidableEq, Repr

/-- One entry of the pin waveform, written as 95 writes them: what changed, a delay, or a read (00 R8a, 40 R105; log 10). -/
inductive PinEvent where
  /-- `In`, `Out` -/
  | busDir (d : Dir)
  /-- `DB=bb` -/
  | bus (b : Byte)
  /-- `E=0/1`, `RW=0/1`, `RS=0/1` -/
  | line (l : Line) (lvl : Bool)
  /-- `Cfg(p,Out,l)` -/
  | cfg (p : Pin) (lvl : Bool)
  /-- `Tick` -/
  | tick
  /-- `Ms(n)` -/
  | ms (n : Nat)
  /-- `Read(v)` -/
  | read (v : Byte)
  deriving DecidableEq, Repr

/-- One completed bus transfer (00 R8b, 20 R50). There is no data read (93 U12). -/
inductive Transfer where
  | cmd (b : Byte)
  | dat (b : Byte)
  | sts (v : Byte)
  deriving DecidableEq, Repr

/-- The kinds of contract violation (60 R187). -/
inductive Violation where
  | cursor
  | lineNumber
  | formatOverflow
  deriving DecidableEq, Repr

/-- Which transfer of an operation timed out (60 R204: "with the `STEP` or character index"). -/
inductive Place where
  /-- the operation's only command or byte; also the address command of `WriteLine` -/
  | alone
  | initStep (step : Nat)
  | character (index : Nat)
  deriving DecidableEq, Repr

/-- The three conditions of 60 R185, as the optional log of 60 R204 records them (log 12). -/
inductive Condition where
  | timeout (p : Place)
  | contractViolation (k : Violation)
  | poweredOffAccess
  deriving DecidableEq, Repr

/-- Memory of the display: (address, byte) pairs, addresses strictly rising. An address not listed has no known value
(log 28). -/
abbrev Memory := List Host.Cell

/-- Which memory the display's address counter stands in (95 Part 2, `TGT`). -/
inductive Target where
  | ddram
  | cgram
  deriving DecidableEq, Repr

/-- The display's hidden state (10 R35) as the fixture of 95 Part 2 keeps it: an observer's record that no rule of the
block reads (log 13). `epoch` counts how often the contents became unknown (log 14). -/
structure Display where
  /-- `IS` -/
  table : InstructionTable
  /-- `AC` -/
  address : BitVec 7
  /-- `TGT` -/
  target : Target
  /-- `ON` -/
  on : Bool
  ddram : Memory
  cgram : Memory
  /-- bias, power, follower and contrast bytes, "recorded only", since the contents last became unknown (log 14) -/
  recorded : List Byte
  epoch : Nat
  deriving DecidableEq, Repr

/-- A display of which nothing is known: its registers are free values of the `n`-th draw, no byte of its memories is
known. The list `recorded` is empty here, at reset (10 R38 leaves the display's state open) and whenever the contents
become unknown: DESIGN CHOICE, unsafe (log 14): it tells the bytes recorded since then, not what the display holds. -/
def Display.unknown (n : Nat) : Display where
  table := if Config.displayTable n then .one else .zero
  address := Config.displayAddress n
  target := if Config.displayInCgram n then .cgram else .ddram
  on := Config.displayOn n
  ddram := []
  cgram := []
  recorded := []
  epoch := n + 1

/-- The machine's state. No field is read across operations but `pins`, `powered`, `cfg` and the inputs (10 R37). -/
structure State where
  /-- the pin record -/
  pins : Pins
  /-- `STATUS`: the byte of the latest status sample (10 R25); bit 7 is BF -/
  status : Byte
  /-- `SEQ` (10 R26) -/
  seq : Seq
  /-- `POWERED` (10 R28) -/
  powered : Bool
  /-- `POLL_CNT` (10 R27) -/
  pollCnt : Nat
  /-- `STEP` (10 R27) -/
  step : Nat
  /-- `SLOT` (10 R27) -/
  slot : BitVec 3
  /-- `ROW` (10 R27) -/
  row : BitVec 3
  /-- the parameters, `CONTRAST` and `GLYPH` among them: never written (log 4) -/
  cfg : Config
  /-- input: the requests still to be issued, next first (log 2) -/
  requests : List Request
  /-- input: the bytes the display will answer to the next bus reads, next first (log 6) -/
  answers : List Byte
  /-- the model's own: bus reads answered by the free value so far (log 6) -/
  reads : Nat
  /-- observer: the pin waveform, oldest first (00 R8a) -/
  waveform : List PinEvent
  /-- observer: the transfer trace, oldest first (00 R8b) -/
  transfers : List Transfer
  /-- observer: the conditions raised, oldest first (60 R204) -/
  conditions : List Condition
  /-- observer: the display's hidden state (10 R35) -/
  display : Display
  deriving DecidableEq, Repr

/-- Why a run stops. -/
inductive Fault where
  /-- Raised by `raiseContract` when `DEBUG_ASSERT` is set (60 R188). Safe: the release hardware goes on. -/
  | contractViolation (k : Violation)
  deriving DecidableEq, Repr

/-- Why a request or an operation is refused. -/
inductive Refusal where
  /-- An instruction without a meaning yet, from `exec`'s arm. Safe. -/
  | notModelled (mnemonic : String)
  /-- From `step`: the request's word is refused (30 R89). Safe: the spec gives such a word no effect. -/
  | undecodable (e : DecodeError)
  /-- From any use of a control line whose direction is `Unconf` (40 R106, 70 R221). Safe: the spec refuses it. -/
  | lineUnconfigured (l : Line)
  /-- From `WriteBus` while the bus is not an output (40 R106). Safe: the spec refuses it. -/
  | busNotOutput
  /-- From `ReadBus` while the bus is not an input (40 R106). Safe: the spec refuses it. -/
  | busNotInput
  /-- From a `BUS10` write frame that no ready handshake precedes (42 R136, 70 R222). Safe: the block never generates it. -/
  | ungatedWrite
  deriving DecidableEq, Repr

/-- The pins after reset: every direction `Unconf`; the levels are unspecified there (10 R38), and the model names
them (log 7). -/
def Pins.reset : Pins where
  busDir := .unconf
  busOut := 0xFF#8
  e := false
  rw := false
  rs := false
  pwr := false
  dirE := .unconf
  dirRw := .unconf
  dirRs := .unconf
  dirPwr := .unconf

/-- The machine right after reset (10 R38, 70 R215): nothing has run, nothing is placed. -/
def State.reset : State where
  pins := Pins.reset
  status := 0#8
  seq := .unpowered
  powered := false
  pollCnt := 0
  step := 0
  slot := 0#3
  row := 0#3
  cfg := Config.implementation
  requests := []
  answers := []
  reads := 0
  waveform := []
  transfers := []
  conditions := []
  display := Display.unknown 0

end Sys2Proof.Machine
end

