-- ==== Sys2Proof/Machine/Flags.lean ====
section
/-! DEFINITION. The flags (spec/10_state.md R29): the busy flag, and the result of a handshake, which is a value and
never a register. There are no arithmetic flags. -/

namespace Sys2Proof.Machine

/-- The busy flag of a status byte: bit 7, 1 busy, 0 ready (30 R87, 41 R122 case e). -/
def isBusy (v : Byte) : Bool := v.msb

/-- `BF`, the busy flag as last sampled (10 R29a). -/
def State.busyFlag (s : State) : Bool := isBusy s.status

/-- The result of `WaitReady` (10 R29b). -/
inductive Handshake where
  | ready
  | timeout
  deriving DecidableEq, Repr

end Sys2Proof.Machine
end

