-- ==== Sys2Proof/Machine/Operands.lean ====
section
/-! DEFINITION. How operands become addresses and fields (spec/30_encoding.md R90), the power-on table
(spec/43_power_sequencer.md R148, R149), and the line format (spec/44_text_ops.md R171). The command bytes that carry
a field stand beside the decoder (`pwrContrastByte` and the like). -/

namespace Sys2Proof.Machine

/-- `CONTRAST[5:4]` (10 R30). -/
def contrastHigh (c : BitVec 6) : BitVec 2 := c.extractLsb' 4 2

/-- `CONTRAST[3:0]` (10 R30). -/
def contrastLow (c : BitVec 6) : BitVec 4 := c.extractLsb' 0 4

/-- The DDRAM address of column `x` of line index `y` (20 R52, 30 R90a). -/
def ddramAddress (x y : Nat) : BitVec 7 := BitVec.ofNat 7 (y * rowStride + x)

/-- The CGRAM address of row 0 of a slot (20 R53, 30 R90c; D15). -/
def cgramAddress (slot : Fin 8) : BitVec 6 := BitVec.ofNat 6 (slot.val * 8)

/-- `GLYPH[slot][row]` (10 R31). -/
def glyphRow (c : Config) (slot row : Fin 8) : Byte := (c.glyph.get slot).get row

/-- One row of `INIT` (43 R149): `rs` is false for kind C, true for kind D; `slot` and `row` are set in step (7). -/
structure InitEntry where
  rs : Bool
  byte : Byte
  slot : Option (Fin 8)
  row : Option (Fin 8)
  deriving DecidableEq, Repr

/-- A command of `INIT` outside step (7). -/
def initCommand (b : Byte) : InitEntry := ⟨false, b, none, none⟩

/-- Step (7) for one slot: the address command, then the eight rows (43 R148). -/
def glyphUpload (c : Config) (slot : Fin 8) : List InitEntry :=
  ⟨false, setCgramByte c (cgramAddress slot), some slot, none⟩
    :: (List.finRange 8).map (fun row => ⟨true, glyphRow c slot row, some slot, some row⟩)

/-- `INIT[0..80]` (43 R149), in the strict order of 43 R148. -/
def initTable (c : Config) : List InitEntry :=
  [initCommand c.cmdFuncsetIs1, initCommand c.cmdBias, initCommand (pwrContrastByte c (contrastHigh c.contrast)),
    initCommand c.cmdFollower, initCommand (contrastLowByte c (contrastLow c.contrast)), initCommand c.cmdFuncsetIs0]
  ++ (List.finRange 8).flatMap (glyphUpload c)
  ++ [initCommand c.cmdDisplayOn, initCommand c.cmdClear, initCommand c.cmdEntryInc]

/-- `Format(text)`: exactly `LINE_WIDTH` bytes, truncated or padded with `SPACE` (44 R171). -/
def formatLine (c : Config) (text : List Byte) : List Byte :=
  if lineWidth ≤ text.length then text.take lineWidth
  else text ++ List.replicate (lineWidth - text.length) c.space

/-- `GotoXY`'s operands are in range (44 R166). -/
def cursorInRange (x y : Nat) : Bool := x < lineWidth && y < lineCount

/-- `WriteLine`'s line number is 1 or 2 (44 R172). -/
def lineNumberValid (n : Nat) : Bool := n == 1 || n == 2

end Sys2Proof.Machine
end

