-- ==== Sys2Proof/Machine/Ops.lean ====
section
/-! DEFINITION. The named operations over the state that every meaning is built from: the pin record and its waveform
(spec/40_bus_transport.md R100 to R106), the collaborators (spec/60_exceptions.md R196 to R198), raising a condition
(R185), and the display memories of the fixture (spec/95_test_vectors.md Part 2). -/

namespace Sys2Proof.Machine

/-! ## Single-field updates -/

def State.setPins (s : State) (p : Pins) : State := { s with pins := p }
def State.setStatus (s : State) (v : Byte) : State := { s with status := v }
def State.setSeq (s : State) (q : Seq) : State := { s with seq := q }
def State.setPowered (s : State) (b : Bool) : State := { s with powered := b }
def State.setPollCnt (s : State) (n : Nat) : State := { s with pollCnt := n }
/-- `STEP`, and `SLOT`, `ROW` where the row of `INIT` has them (43 R149; log 18). -/
def State.setInitIndex (s : State) (k : Nat) (e : InitEntry) : State :=
  { s with
    step := k
    slot := (e.slot.map (fun i => BitVec.ofNat 3 i.val)).getD s.slot
    row := (e.row.map (fun i => BitVec.ofNat 3 i.val)).getD s.row }
def State.setRequests (s : State) (rs : List Request) : State := { s with requests := rs }
def State.setDisplay (s : State) (d : Display) : State := { s with display := d }
/-- Append one entry to the pin waveform (00 R8a). -/
def State.observe (s : State) (ev : PinEvent) : State := { s with waveform := s.waveform ++ [ev] }
/-- Append one transfer to the transfer trace (00 R8b). -/
def State.logTransfer (s : State) (t : Transfer) : State := { s with transfers := s.transfers ++ [t] }

/-! ## Raising a condition -/

/-- `raise` (60 R185, R190): the operation that raises ends at once; nothing is saved, no mode changes, no handler
runs, so the state stays as it is but for the observer's log. There is no return from it to model: the caller goes on
(60 R191). -/
def State.raise (s : State) (c : Condition) : State := { s with conditions := s.conditions ++ [c] }

/-- `raise ContractViolation(k)`: a silent abort, or the fault of a debug build (60 R187, R188). -/
def raiseContract (k : Violation) (s : State) : Host.Outcome State Fault Refusal :=
  if s.cfg.debugAssert then .fault (.contractViolation k) else .next (s.raise (.contractViolation k))

/-! ## The pin record -/

/-- The register value of a direction operand. -/
def dirValue : Dir → BusDir
  | .input => .input
  | .output => .output

/-- `ConfigPin(p, Out, lvl)` on the record: direction and level together (60 R196). -/
def Pins.configure (p : Pins) (pin : Pin) (lvl : Bool) : Pins :=
  match pin with
  | .e => { p with dirE := .output, e := lvl }
  | .rw => { p with dirRw := .output, rw := lvl }
  | .rs => { p with dirRs := .output, rs := lvl }
  | .pwr => { p with dirPwr := .output, pwr := lvl }

/-- The level of one control line; the other two keep theirs (40 R104). -/
def Pins.setLine (p : Pins) (l : Line) (lvl : Bool) : Pins :=
  match l with
  | .e => { p with e := lvl }
  | .rw => { p with rw := lvl }
  | .rs => { p with rs := lvl }

/-- The pin record after one waveform event. -/
def Pins.after (p : Pins) (ev : PinEvent) : Pins :=
  match ev with
  | .busDir d => { p with busDir := dirValue d }
  | .bus b => { p with busOut := b }
  | .line l lvl => p.setLine l lvl
  | .cfg pin lvl => p.configure pin lvl
  | .tick | .ms _ | .read _ => p

/-- A pin access: the record changes, and the waveform gains an entry only if it did (40 R105, D6). -/
def State.drive (s : State) (ev : PinEvent) : State :=
  if s.pins.after ev = s.pins then s else (s.setPins (s.pins.after ev)).observe ev

/-- The direction of a control line. -/
def Pins.lineDir (p : Pins) : Line → PinDir
  | .e => p.dirE
  | .rw => p.dirRw
  | .rs => p.dirRs

/-- The first control line, in the order a sample or a transfer uses them (RW, RS, E), that is not configured. -/
def Pins.undrivenLine (p : Pins) : Option Line :=
  if p.dirRw = .unconf then some .rw
  else if p.dirRs = .unconf then some .rs
  else if p.dirE = .unconf then some .e
  else none

/-- An operation that uses all three control lines: refused at the first one that is unconfigured (40 R106, 70 R221),
else it goes on to `t`. The spec's pseudocode meets that `require` inside its first status sample or transfer, before
anything else can stop it; `Machine/Fsm.lean` checks each `require` at its own line (log 8). -/
def whenLinesDriven (s t : State) : Host.Outcome State Fault Refusal :=
  match s.pins.undrivenLine with
  | some l => .refused (.lineUnconfigured l)
  | none => .next t

/-! ## Bus transport (40 R101 to R104), where its `require` holds -/

/-- `SetBusDirection(d)` (40 R101). -/
def setBusDirection (d : Dir) (s : State) : State := s.drive (.busDir d)

/-- `WriteBus(b)` (40 R102). -/
def writeBus (b : Byte) (s : State) : State := s.drive (.bus b)

/-- `SetControlLine(line, lvl)` (40 R104). -/
def setControlLine (l : Line) (lvl : Bool) (s : State) : State := s.drive (.line l lvl)

/-- The byte the next `ReadBus` returns: the display's next answer, or a free value (40 R103, 93 U1; log 6). -/
def State.nextAnswer (s : State) : Byte :=
  match s.answers with
  | v :: _ => v
  | [] => Config.busAnswer s.reads

/-- The inputs after one bus read. -/
def State.popAnswer (s : State) : State :=
  match s.answers with
  | _ :: rest => { s with answers := rest }
  | [] => { s with reads := s.reads + 1 }

/-- `ReadBus()`: the result is `s.nextAnswer`; no register changes (40 R103). -/
def readBus (s : State) : State := s.popAnswer.observe (.read s.nextAnswer)

/-! ## Collaborators (60 R196 to R198; log 25) -/

/-- `DelayTick()`. -/
def delayTick (s : State) : State := s.observe .tick

/-- `DelayMs(n)`. -/
def delayMs (n : Nat) (s : State) : State := s.observe (.ms n)

/-! ## Memory of the display -/

/-- The byte known at an address, if any. -/
def Memory.read (m : Memory) (a : Nat) : Option Byte :=
  match m with
  | [] => none
  | (k, v) :: rest => if k = a then some v else Memory.read rest a

/-- Store a byte, keeping the addresses strictly rising. -/
def Memory.write (m : Memory) (a : Nat) (v : Byte) : Memory :=
  match m with
  | [] => [(a, v)]
  | (k, w) :: rest =>
    if a < k then (a, v) :: (k, w) :: rest
    else if a = k then (a, v) :: rest
    else (k, w) :: Memory.write rest a v

/-- The first `n` addresses, all holding `v`. -/
def Memory.fill (n : Nat) (v : Byte) : Memory := (List.range n).map (fun a => (a, v))

/-- The canonical form within `n` addresses: strictly rising, all below `n`. No entry can equal what an unlisted
address reads as, since that is no value (log 28). -/
abbrev Memory.wf (n : Nat) (m : Memory) : Prop :=
  m.Pairwise (fun x y => x.1 < y.1) ∧ ∀ c ∈ m, c.1 < n

/-! ## The fixture (95 Part 2; log 13, log 14) -/

/-- The size of the fixture's DDRAM and CGRAM (95 Part 2). -/
def ddramSize : Nat := 128
def cgramSize : Nat := 64

/-- Contents unknown from here on: after the supply changed, or after a byte whose effect nothing states (log 14). -/
def Display.lost (d : Display) : Display := Display.unknown d.epoch

/-- The address a data write stores at, in the display's target memory. -/
def Display.storeAddress (d : Display) : Nat :=
  match d.target with
  | .ddram => d.address.toNat
  | .cgram => (d.address &&& 0x3F#7).toNat

/-- `Dat(b)`: store at the address counter, then advance it (mod 0x80). -/
def Display.data (d : Display) (b : Byte) : Display :=
  match d.target with
  | .ddram => { d with ddram := d.ddram.write d.storeAddress b, address := d.address + 1#7 }
  | .cgram => { d with cgram := d.cgram.write d.storeAddress b, address := d.address + 1#7 }

/-- `Cmd(b)`: the first matching line of the fixture; a byte no line gives an effect leaves the contents unknown. -/
def Display.command (d : Display) (b : Byte) : Display :=
  if b = 0x01#8 then { d with ddram := Memory.fill ddramSize 0x20#8, address := 0#7, target := .ddram }
  else if b &&& 0xFC#8 = 0x04#8 then (if b = 0x06#8 then d else d.lost)
  else if b &&& 0xF8#8 = 0x08#8 then { d with on := b.getLsbD 2 }
  else if b &&& 0xE0#8 = 0x20#8 then { d with table := if b.getLsbD 0 then .one else .zero }
  else if b &&& 0x80#8 = 0x80#8 then { d with address := b.setWidth 7, target := .ddram }
  else
    match d.table with
    | .zero =>
      if b &&& 0xC0#8 = 0x40#8 then { d with address := (b &&& 0x3F#8).setWidth 7, target := .cgram } else d.lost
    | .one =>
      if b &&& 0xF0#8 = 0x10#8 || (0x50#8 ≤ b && b ≤ 0x7F#8) then { d with recorded := d.recorded ++ [b] } else d.lost

/-- What one completed write does to the display: the fixture's effect if the supply is on, else nothing is known
(60 R202, 70 R231). -/
def Display.latch (d : Display) (supplied rs : Bool) (b : Byte) : Display :=
  if supplied then (if rs then d.data b else d.command b) else d.lost

/-- Whether the display has supply, as far as the block tells it: `PWR` once that line is driven (10 R24; the delay is
unmodelled, 10 R35 e), unknown before (70 R216). -/
def Pins.supply (p : Pins) : Option Bool :=
  match p.dirPwr with
  | .output => some p.pwr
  | .unconf => none

/-- The block is enabling the display's supply (10 R24). Before the first `PowerOn` or `PowerOff`, where the spec leaves
open whether the display has power (70 R216), this is false: DESIGN CHOICE, safe (log 29): unknown supply is treated as
none, and a display without supply loses its contents at every write and at the first drive of `PWR`. -/
def Pins.supplied (p : Pins) : Bool := p.supply == some true

/-- `ConfigPin(p, Out, lvl)` (60 R196). A change of the supply, from unknown to known among them, leaves the display's
contents unknown (60 R202, 70 R216; log 29). -/
def configPin (pin : Pin) (lvl : Bool) (s : State) : State :=
  let s' := s.drive (.cfg pin lvl)
  if s'.pins.supply = s.pins.supply then s' else s'.setDisplay s.display.lost

end Sys2Proof.Machine
end

