-- ==== Sys2Proof/Machine/Handshake.lean ====
section
/-! DEFINITION. The busy-flag handshake, L1 (spec/41_handshake.md R120 to R126): one sample, the bounded poll, and the
meanings of SAMPLE_STATUS and WAIT_READY. -/

namespace Sys2Proof.Machine

/-- `SampleStatus()` (41 R120): the byte returned is `STATUS` afterwards. -/
def sampleStatus (s : State) : State :=
  let s := setBusDirection .input s
  let s := setControlLine .rw true s
  let s := setControlLine .rs false s
  let s := setControlLine .e true s
  let s := delayTick s
  let v := s.nextAnswer
  let s := readBus s
  let s := setControlLine .e false s
  (s.setStatus v).logTransfer (.sts v)

/-- The loop of `WaitReady` (41 R122) with `more` samples allowed after this one, that is `T - POLL_CNT` at the test. -/
def pollFrom (more : Nat) (s : State) : Handshake × State :=
  let s := sampleStatus s
  let s := s.setPollCnt (s.pollCnt + 1)
  if s.busyFlag then
    match more with
    | 0 => (.timeout, s)
    | more + 1 => pollFrom more (delayTick s)
  else (.ready, s)

/-- `WaitReady()` (41 R122): at most `T` samples. (`T = 0` is outside 00 R6 and is read as `T = 1`; log 9.) -/
def waitReady (s : State) : Handshake × State := pollFrom (s.cfg.pollBound - 1) (s.setPollCnt 0)

/-- SAMPLE_STATUS (41 R120). -/
def execSampleStatus (s : State) : Host.Outcome State Fault Refusal :=
  whenLinesDriven s (sampleStatus s)

/-- WAIT_READY (41 R122): the result goes to the calling operation; `Timeout` is a result here, not a raise. -/
def execWaitReady (s : State) : Host.Outcome State Fault Refusal :=
  whenLinesDriven s (waitReady s).2

end Sys2Proof.Machine
end

