-- ==== Sys2Proof/Machine/Channel.lean ====
section
/-! DEFINITION. The command/data channel, L2 (spec/42_cmd_data_channel.md R135 to R141): the write phase, the gated
write both primitives share, and the meanings of WRITE_CMD and WRITE_DATA. -/

namespace Sys2Proof.Machine

/-- The write phase `Transfer(rs, b)` (42 R137): `rs` false writes the instruction register, true the data register.
The display latches the byte at the falling edge of E. -/
def transfer (rs : Bool) (b : Byte) (s : State) : State :=
  let s := setBusDirection .output s
  let s := setControlLine .rw false s
  let s := setControlLine .rs rs s
  let s := writeBus b s
  let s := setControlLine .e true s
  let s := delayTick s
  let s := setControlLine .e false s
  let s := s.logTransfer (if rs then .dat b else .cmd b)
  s.setDisplay (s.display.latch s.pins.supplied rs b)

/-- One gated write (42 R135, R136): the handshake first; on `Timeout` the byte is discarded, silently. -/
def writeByte (rs : Bool) (b : Byte) (place : Place) (s : State) : State :=
  match waitReady s with
  | (.ready, s') => transfer rs b s'
  | (.timeout, s') => s'.raise (.timeout place)

/-- `WriteCommand(b)` as the host or an operation issues it (42 R138, R141; 70 R221). -/
def sendCommand (b : Byte) (s : State) : Host.Outcome State Fault Refusal :=
  whenLinesDriven s (writeByte false b .alone s)

/-- WRITE_CMD (42 R138). -/
def execWriteCmd (b : Byte) (s : State) : Host.Outcome State Fault Refusal := sendCommand b s

/-- WRITE_DATA (42 R139). -/
def execWriteData (b : Byte) (s : State) : Host.Outcome State Fault Refusal :=
  whenLinesDriven s (writeByte true b .alone s)

end Sys2Proof.Machine
end

