-- ==== Sys2Proof/Machine/BusFrames.lean ====
section
/-! DEFINITION. The `BUS10` frames as operations (spec/30_encoding.md R71; log 15): BUS_CMD and BUS_DAT are the write
phase of spec/42_cmd_data_channel.md R137, BUS_STS is a status sample that the display answers with the frame's byte
(spec/41_handshake.md R120). -/

namespace Sys2Proof.Machine

/-- The last thing on the bus was a ready status sample, so a write may follow (20 R62, 42 R136). -/
def State.handshakeReady (s : State) : Bool :=
  match s.transfers.getLast? with
  | some (.sts v) => !isBusy v
  | some (.cmd _) | some (.dat _) | none => false

/-- A write frame: the write phase, only after a ready handshake, since there is no ungated write (42 R136, 70 R222). -/
def writeFrame (rs : Bool) (b : Byte) (s : State) : Host.Outcome State Fault Refusal :=
  match s.pins.undrivenLine with
  | some l => .refused (.lineUnconfigured l)
  | none => if s.handshakeReady then .next (transfer rs b s) else .refused .ungatedWrite

/-- BUS_CMD: `Cmd(b)` (42 R137). -/
def execBusCmd (b : Byte) (s : State) : Host.Outcome State Fault Refusal := writeFrame false b s

/-- BUS_DAT: `Dat(b)` (42 R137). -/
def execBusDat (b : Byte) (s : State) : Host.Outcome State Fault Refusal := writeFrame true b s

/-- BUS_STS: `Sts(v)`, the display driving `v` (41 R120). -/
def execBusSts (v : Byte) (s : State) : Host.Outcome State Fault Refusal :=
  whenLinesDriven s (sampleStatus { s with answers := v :: s.answers })

end Sys2Proof.Machine
end

