-- ==== Sys2Proof/Machine/LcdCommands.lean ====
section
/-! DEFINITION. The eleven display commands (spec/30_encoding.md R74 to R86): each is a `WriteCommand` of the byte the
configuration gives it (log 16). What the display does with it is the fixture's affair (`Display.command`). -/

namespace Sys2Proof.Machine

/-- LCD_FUNCSET_IS1 (30 R75). -/
def execLcdFuncsetIs1 (s : State) : Host.Outcome State Fault Refusal := sendCommand s.cfg.cmdFuncsetIs1 s

/-- LCD_BIAS (30 R76). -/
def execLcdBias (s : State) : Host.Outcome State Fault Refusal := sendCommand s.cfg.cmdBias s

/-- LCD_PWR_CONTRAST_HI (30 R77). -/
def execLcdPwrContrastHi (c : BitVec 2) (s : State) : Host.Outcome State Fault Refusal :=
  sendCommand (pwrContrastByte s.cfg c) s

/-- LCD_FOLLOWER (30 R78). -/
def execLcdFollower (s : State) : Host.Outcome State Fault Refusal := sendCommand s.cfg.cmdFollower s

/-- LCD_CONTRAST_LO (30 R79). -/
def execLcdContrastLo (c : BitVec 4) (s : State) : Host.Outcome State Fault Refusal :=
  sendCommand (contrastLowByte s.cfg c) s

/-- LCD_FUNCSET_IS0 (30 R80). -/
def execLcdFuncsetIs0 (s : State) : Host.Outcome State Fault Refusal := sendCommand s.cfg.cmdFuncsetIs0 s

/-- LCD_SET_CGRAM (30 R81). -/
def execLcdSetCgram (a : BitVec 6) (s : State) : Host.Outcome State Fault Refusal :=
  sendCommand (setCgramByte s.cfg a) s

/-- LCD_DISPLAY_ON (30 R82). -/
def execLcdDisplayOn (s : State) : Host.Outcome State Fault Refusal := sendCommand s.cfg.cmdDisplayOn s

/-- LCD_CLEAR (30 R84). -/
def execLcdClear (s : State) : Host.Outcome State Fault Refusal := sendCommand s.cfg.cmdClear s

/-- LCD_ENTRY_INC (30 R85). -/
def execLcdEntryInc (s : State) : Host.Outcome State Fault Refusal := sendCommand s.cfg.cmdEntryInc s

/-- LCD_SET_DDRAM (30 R83). -/
def execLcdSetDdram (a : BitVec 7) (s : State) : Host.Outcome State Fault Refusal :=
  sendCommand (setDdramByte s.cfg a) s

end Sys2Proof.Machine
end

