-- ==== Sys2Proof/Machine/Sequencer.lean ====
section
/-! DEFINITION. The power and initialisation sequencer, L3 (spec/43_power_sequencer.md R145 to R159): POWER_ON and
POWER_OFF. Neither looks at the state it starts from (R156, D12). -/

namespace Sys2Proof.Machine

/-- The power-up pin phase (43 R147). -/
def powerUpPhase (s : State) : State :=
  let s := configPin .e false s
  let s := configPin .rw false s
  let s := configPin .rs false s
  let s := setBusDirection .output s
  let s := writeBus 0x00#8 s
  let s := configPin .pwr true s
  delayMs s.cfg.powerupSettleMs s

/-- The transfers of `INIT` from `STEP = k` on, each with its own handshake (43 R146, R149). -/
def runInit : List InitEntry → Nat → State → State
  | [], _, s => s
  | e :: es, k, s => runInit es (k + 1) (writeByte e.rs e.byte (.initStep k) (s.setInitIndex k e))

/-- `PowerOn()` (43 R146): it cannot see a dropped transfer and always ends `Ready` (R152). -/
def powerOn (s : State) : State :=
  let s := s.setSeq .powering
  let s := powerUpPhase s
  let s := runInit (initTable s.cfg) 0 s
  (s.setPowered true).setSeq .ready

/-- The power-down pin phase (43 R154): every line driven low, the supply last. -/
def powerDownPhase (s : State) : State :=
  let s := setBusDirection .output s
  let s := writeBus 0x00#8 s
  let s := configPin .e false s
  let s := configPin .rw false s
  let s := configPin .rs false s
  configPin .pwr false s

/-- `PowerOff()` (43 R153): the flag first, then the pins. -/
def powerOff (s : State) : State := (powerDownPhase (s.setPowered false)).setSeq .off

/-- POWER_ON (43 R146): its own pin phase configures every line, so it is never refused. -/
def execPowerOn (s : State) : Host.Outcome State Fault Refusal := .next (powerOn s)

/-- POWER_OFF (43 R153). -/
def execPowerOff (s : State) : Host.Outcome State Fault Refusal := .next (powerOff s)

end Sys2Proof.Machine
end

