-- ==== Sys2Proof/Machine/TextOps.lean ====
section
/-! DEFINITION. The line formatter, L4 (spec/44_text_ops.md R165 to R177): GOTOXY, PUTC, PUTS, WRITELINE, and the
contract of the formatted print. Checks in the order power, range, handshake (R174). -/

namespace Sys2Proof.Machine

/-- The power gate every text operation begins with (44 R165): off, it raises `PoweredOffAccess` and does nothing. -/
def whenPowered (s : State) (k : Host.Outcome State Fault Refusal) : Host.Outcome State Fault Refusal :=
  if s.powered then k else .next (s.raise .poweredOffAccess)

/-- The one command of `GotoXY`, its checks passed (44 R166). -/
def moveCursor (x y : Nat) (s : State) : State :=
  writeByte false (setDdramByte s.cfg (ddramAddress x y)) .alone s

/-- `Putc` as a nested call: it reads `POWERED` again and sends the character (44 R168, 60 R192). -/
def putCharacter (place : Place) (c : Byte) (s : State) : State :=
  if s.powered then writeByte true c place s else s.raise .poweredOffAccess

/-- `Putc` over a text from character index `i` on; a timeout drops its own character only (44 R170, R175). -/
def putCharacters : List Byte → Nat → State → State
  | [], _, s => s
  | c :: cs, i, s => putCharacters cs (i + 1) (putCharacter (.character i) c s)

/-- `WriteLine`'s transfers: the cursor to column 0 of row `n - 1`, then the 16 formatted bytes (44 R172). -/
def lineTransfers (n : Nat) (text : List Byte) (s : State) : State :=
  putCharacters (formatLine s.cfg text) 0 (moveCursor 0 (n - 1) s)

/-- GOTOXY (44 R166). -/
def execGotoxy (x y : Nat) (s : State) : Host.Outcome State Fault Refusal :=
  whenPowered s
    (if cursorInRange x y then whenLinesDriven s (moveCursor x y s) else raiseContract .cursor s)

/-- PUTC (44 R168). -/
def execPutc (c : Byte) (s : State) : Host.Outcome State Fault Refusal :=
  whenPowered s (whenLinesDriven s (putCharacter .alone c s))

/-- PUTS (44 R170): an empty text makes no transfer and so uses no line. -/
def execPuts (text : List Byte) (s : State) : Host.Outcome State Fault Refusal :=
  whenPowered s
    (match text with
    | [] => .next s
    | _ :: _ => whenLinesDriven s (putCharacters text 0 s))

/-- WRITELINE (44 R172). -/
def execWriteLine (n : Nat) (text : List Byte) (s : State) : Host.Outcome State Fault Refusal :=
  whenPowered s
    (if lineNumberValid n then whenLinesDriven s (lineTransfers n text s) else raiseContract .lineNumber s)

/-- The formatted print by its contract (44 R176, 60 R187): a rendering longer than the buffer is rejected with no
transfer, any other is one `WriteLine`. It has no request code; buffer size, line and format language are not in the
source (91 N17), so they are arguments (log 26). -/
def formattedPrint (bufferSize n : Nat) (rendered : List Byte) (s : State) : Host.Outcome State Fault Refusal :=
  whenPowered s
    (if rendered.length ≤ bufferSize then execWriteLine n rendered s else raiseContract .formatOverflow s)

end Sys2Proof.Machine
end

