-- ==== Sys2Proof/Machine/Transport.lean ====
section
/-! DEFINITION. Bus transport, L0 (spec/40_bus_transport.md R100 to R108): the four micro-operations with their
`require` lines, and the meanings of SET_BUS_DIR, WRITE_BUS, READ_BUS and SET_CTL. -/

namespace Sys2Proof.Machine

/-- `WriteBus(b)` with its `require BUS_DIR = Out` (40 R102, R106). -/
def checkedWriteBus (b : Byte) (s : State) : Except Refusal State :=
  if s.pins.busDir = .output then .ok (writeBus b s) else .error .busNotOutput

/-- `ReadBus()` with its `require BUS_DIR = In`: the byte read and the state after (40 R103, R106). -/
def checkedReadBus (s : State) : Except Refusal (Byte × State) :=
  if s.pins.busDir = .input then .ok (s.nextAnswer, readBus s) else .error .busNotInput

/-- `SetControlLine(line, lvl)` with its `require DIR_line = Out` (40 R104, R106). -/
def checkedSetControlLine (l : Line) (lvl : Bool) (s : State) : Except Refusal State :=
  if s.pins.lineDir l = .output then .ok (setControlLine l lvl s) else .error (.lineUnconfigured l)

/-- SET_BUS_DIR (40 R101): legal in every state. -/
def execSetBusDir (d : Dir) (s : State) : Host.Outcome State Fault Refusal :=
  .next (setBusDirection d s)

/-- WRITE_BUS (40 R102). -/
def execWriteBus (b : Byte) (s : State) : Host.Outcome State Fault Refusal :=
  match checkedWriteBus b s with
  | .ok s' => .next s'
  | .error r => .refused r

/-- READ_BUS (40 R103): the byte goes to the calling operation; on its own it leaves only the read event. -/
def execReadBus (s : State) : Host.Outcome State Fault Refusal :=
  match checkedReadBus s with
  | .ok (_, s') => .next s'
  | .error r => .refused r

/-- SET_CTL (40 R104). -/
def execSetCtl (l : Line) (lvl : Bool) (s : State) : Host.Outcome State Fault Refusal :=
  match checkedSetControlLine l lvl s with
  | .ok s' => .next s'
  | .error r => .refused r

end Sys2Proof.Machine
end

