-- ==== Sys2Proof/Machine/Dispatch.lean ====
section
/-! DEFINITION. Which meaning each operation has: one arm per constructor of `Instr`. -/

namespace Sys2Proof.Machine

def exec (i : Instr) (s : State) : Host.Outcome State Fault Refusal :=
  match i with
  -- REQ16, exposed
  | .powerOn => Sys2Proof.Machine.execPowerOn s
  | .powerOff => Sys2Proof.Machine.execPowerOff s
  | .writeCmd b => Sys2Proof.Machine.execWriteCmd b s
  | .writeData b => Sys2Proof.Machine.execWriteData b s
  | .gotoxy x y => Sys2Proof.Machine.execGotoxy x y s
  | .putc c => Sys2Proof.Machine.execPutc c s
  | .puts text => Sys2Proof.Machine.execPuts text s
  | .writeLine n text => Sys2Proof.Machine.execWriteLine n text s
  -- REQ16, internal
  | .sampleStatus => Sys2Proof.Machine.execSampleStatus s
  | .waitReady => Sys2Proof.Machine.execWaitReady s
  | .setBusDir d => Sys2Proof.Machine.execSetBusDir d s
  | .writeBus b => Sys2Proof.Machine.execWriteBus b s
  | .readBus => Sys2Proof.Machine.execReadBus s
  | .setCtl line lvl => Sys2Proof.Machine.execSetCtl line lvl s
  -- BUS10
  | .busCmd b => Sys2Proof.Machine.execBusCmd b s
  | .busDat b => Sys2Proof.Machine.execBusDat b s
  | .busSts v => Sys2Proof.Machine.execBusSts v s
  -- LCDCMD8
  | .lcdFuncsetIs1 => Sys2Proof.Machine.execLcdFuncsetIs1 s
  | .lcdBias => Sys2Proof.Machine.execLcdBias s
  | .lcdPwrContrastHi c => Sys2Proof.Machine.execLcdPwrContrastHi c s
  | .lcdFollower => Sys2Proof.Machine.execLcdFollower s
  | .lcdContrastLo c => Sys2Proof.Machine.execLcdContrastLo c s
  | .lcdFuncsetIs0 => Sys2Proof.Machine.execLcdFuncsetIs0 s
  | .lcdSetCgram a => Sys2Proof.Machine.execLcdSetCgram a s
  | .lcdDisplayOn => Sys2Proof.Machine.execLcdDisplayOn s
  | .lcdClear => Sys2Proof.Machine.execLcdClear s
  | .lcdEntryInc => Sys2Proof.Machine.execLcdEntryInc s
  | .lcdSetDdram a => Sys2Proof.Machine.execLcdSetDdram a s

end Sys2Proof.Machine
end

