-- ==== Sys2Proof/Machine/Step.lean ====
section
/-! DEFINITION. One step of the machine: the next request is decoded and its operation run to completion
(spec/00_scope.md R7, spec/70_reset_and_hazards.md R215; log 1 to log 3). -/

namespace Sys2Proof.Machine

/-- One step. With no request the block waits, unchanged (70 R215). A request is decoded under the state's own
parameters and consumed as its operation starts. -/
def step (s : State) : Host.Outcome State Fault Refusal :=
  match s.requests with
  | [] => .next s
  | r :: rest =>
    match decode s.cfg r with
    | .ok i => exec i (s.setRequests rest)
    | .error e => .refused (.undecodable e)

/-- `s` with a word of spec/opcode_table.json as its next request (log 2, log 17). -/
def State.withFetchWord (s : State) (nbits w : Nat) : State :=
  s.setRequests (tableRequest s.cfg nbits w :: s.requests)

end Sys2Proof.Machine
end

