-- ==== Sys2Proof/Machine/Fsm.lean ====
section
/-! DEFINITION. The poll and one write as finite state machines, one row of the spec's tables per step
(spec/41_handshake.md R124, spec/42_cmd_data_channel.md R140). Every `require` of L0 is checked at its own line here;
that this gives the same state as `waitReady` and `writeByte` is an obligation (log 8). -/

namespace Sys2Proof.Machine

/-- The states of the poll machine (41 R124). -/
inductive PollState where
  | idle
  | setup
  | raise
  | settle
  | sample
  | gap
  | ready
  | timeout
  deriving DecidableEq, Repr

/-- The action on leaving a state, and the next state (41 R124). `H_READY` and `H_TIMEOUT` return to the caller. -/
def pollAdvance (p : PollState) (s : State) : Except Refusal (PollState × State) :=
  match p with
  | .idle => .ok (.setup, s.setPollCnt 0)
  | .setup => do
    let s ← checkedSetControlLine .rw true (setBusDirection .input s)
    let s ← checkedSetControlLine .rs false s
    return (.raise, s)
  | .raise => do
    let s ← checkedSetControlLine .e true s
    return (.settle, s)
  | .settle => .ok (.sample, delayTick s)
  | .sample => do
    let (v, s) ← checkedReadBus s
    let s ← checkedSetControlLine .e false s
    let s := (s.setStatus v).logTransfer (.sts v)
    let s := s.setPollCnt (s.pollCnt + 1)
    if isBusy v = false then return (.ready, s)
    if s.pollCnt = s.cfg.pollBound then return (.timeout, s)
    return (.gap, s)
  | .gap => .ok (.setup, delayTick s)
  | .ready => .ok (.ready, s)
  | .timeout => .ok (.timeout, s)

/-- `n` steps of the poll machine. -/
def pollRun : Nat → PollState → State → Except Refusal (PollState × State)
  | 0, p, s => .ok (p, s)
  | n + 1, p, s =>
    match pollAdvance p s with
    | .ok (p', s') => pollRun n p' s'
    | .error r => .error r

/-- The states of the write machine (42 R140); the operands `rs`, `b` are latched in `X_IDLE` and passed along. -/
inductive WriteState where
  | idle
  | poll (p : PollState)
  | setup
  | raise
  | hold
  | fall
  | done
  | abort
  deriving DecidableEq, Repr

/-- The action on leaving a state, and the next state (42 R140). `X_ABORT` is entered by raising `Timeout`. -/
def writeAdvance (rs : Bool) (b : Byte) (place : Place) (w : WriteState) (s : State) :
    Except Refusal (WriteState × State) :=
  match w with
  | .idle => .ok (.poll .idle, s)
  | .poll .ready => .ok (.setup, s)
  | .poll .timeout => .ok (.abort, s.raise (.timeout place))
  | .poll p => do
    let (p, s) ← pollAdvance p s
    return (.poll p, s)
  | .setup => do
    let s ← checkedSetControlLine .rw false (setBusDirection .output s)
    let s ← checkedSetControlLine .rs rs s
    let s ← checkedWriteBus b s
    return (.raise, s)
  | .raise => do
    let s ← checkedSetControlLine .e true s
    return (.hold, s)
  | .hold => .ok (.fall, delayTick s)
  | .fall => do
    let s ← checkedSetControlLine .e false s
    let s := s.logTransfer (if rs then .dat b else .cmd b)
    return (.done, s.setDisplay (s.display.latch s.pins.supplied rs b))
  | .done => .ok (.done, s)
  | .abort => .ok (.abort, s)

/-- `n` steps of the write machine. -/
def writeRun (rs : Bool) (b : Byte) (place : Place) : Nat → WriteState → State → Except Refusal (WriteState × State)
  | 0, w, s => .ok (w, s)
  | n + 1, w, s =>
    match writeAdvance rs b place w s with
    | .ok (w', s') => writeRun rs b place n w' s'
    | .error r => .error r

end Sys2Proof.Machine
end

