-- ==== Sys2Proof/Safety.lean ====
section
/-! DEFINITION. The terms claims are stated in: the invariants of the block (spec/10_state.md R36, spec/20_memory.md R62,
spec/70_reset_and_hazards.md R226), what a display answers (spec/41_handshake.md R123), and the views of an outcome.
Nothing here is read by the machine. -/

namespace Sys2Proof.Machine

/-! ## Pins and control state -/

/-- All three control lines are configured as outputs. -/
abbrev Pins.LinesDriven (p : Pins) : Prop := p.dirE = .output ∧ p.dirRw = .output ∧ p.dirRs = .output

/-- Every pin is configured: what the first `PowerOn` or `PowerOff` leaves (10 R36c). -/
abbrev Pins.Configured (p : Pins) : Prop := p.LinesDriven ∧ p.dirPwr = .output ∧ p.busDir ≠ .unconf

/-- No line of the record but the bus has been configured yet (10 R38). -/
abbrev Pins.Unconfigured (p : Pins) : Prop :=
  p.dirE = .unconf ∧ p.dirRw = .unconf ∧ p.dirRs = .unconf ∧ p.dirPwr = .unconf

/-- 10 R36 (a), (b), (d) and the directions of (c): what every step keeps. -/
abbrev State.Coherent (s : State) : Prop :=
  (s.powered = true ↔ s.seq = .ready) ∧ s.seq ≠ .powering
    ∧ (s.seq = .unpowered → s.pins.Unconfigured) ∧ (s.seq ≠ .unpowered → s.pins.Configured)

/-- 10 R36 whole: `Coherent`, and `E = 0` once the lines are configured. -/
abbrev State.Boundary (s : State) : Prop :=
  s.Coherent ∧ (s.seq ≠ .unpowered → s.pins.e = false)

/-- The fields that no transfer touches: everything but the pins, the sample, the poll counter, the inputs, the traces,
the log and the display. -/
def SameControl (s t : State) : Prop :=
  t.seq = s.seq ∧ t.powered = s.powered ∧ t.cfg = s.cfg ∧ t.requests = s.requests
    ∧ t.step = s.step ∧ t.slot = s.slot ∧ t.row = s.row

/-! ## The pin waveform -/

/-- The pin record after a waveform. -/
def replay (p : Pins) (evs : List PinEvent) : Pins := evs.foldl Pins.after p

/-- The waveform entry of an access, none where its effect already holds (40 R105). -/
def entryUnless (already : Bool) (ev : PinEvent) : List PinEvent := if already then [] else [ev]

/-- Both sides would drive the bus: the block drives it while Enable is high and Read is asserted (70 R226). -/
abbrev Pins.Contention (p : Pins) : Prop := p.e = true ∧ p.rw = true ∧ p.busDir = .output

/-- The events that may stand while Enable is high: the settle or pulse tick, the read, Enable itself. -/
def PinEvent.quiet : PinEvent → Bool
  | .tick | .read _ | .line .e _ => true
  | .line .rw _ | .line .rs _ | .busDir _ | .bus _ | .cfg _ _ | .ms _ => false

/-- While Enable is high nothing else moves and nobody else drives (42 R137, 70 R226). -/
def EnableClean : Pins → List PinEvent → Prop
  | _, [] => True
  | p, ev :: evs => (p.e = true → ev.quiet = true ∧ ¬ p.Contention) ∧ EnableClean (p.after ev) evs

/-- The ticks of the waveform so far (41 R126). -/
def State.ticks (s : State) : Nat := s.waveform.count .tick

/-! ## The transfer trace -/

/-- A command or data write. -/
def Transfer.isWrite : Transfer → Bool
  | .cmd _ | .dat _ => true
  | .sts _ => false

/-- The write a transfer primitive issues. -/
def writeOf (rs : Bool) (b : Byte) : Transfer := if rs then .dat b else .cmd b

/-- A list less the elements at the positions `ks`, positions counted from `i`. -/
def without (ks : List Nat) : Nat → List α → List α
  | _, [] => []
  | i, x :: xs => if i ∈ ks then without ks (i + 1) xs else x :: without ks (i + 1) xs

/-- The write of an entry of `INIT`. -/
def InitEntry.transfer (e : InitEntry) : Transfer := writeOf e.rs e.byte

/-- Every write directly follows a ready status sample (20 R62). -/
def Handshaken (l : List Transfer) : Prop :=
  ∀ pre w post, l = pre ++ w :: post → w.isWrite = true →
    ∃ before v, pre = before ++ [.sts v] ∧ isBusy v = false

/-! ## The display's answers -/

/-- The byte the `k`-th bus read from here on finds, counting from 0 (41 R123: "the bytes the display would answer"). -/
def State.answerAt (s : State) (k : Nat) : Byte :=
  match s.answers[k]? with
  | some v => v
  | none => Config.busAnswer (s.reads + (k - s.answers.length))

/-- The display answers ready to each of the next `n` samples. -/
def State.ReadyFor (s : State) (n : Nat) : Prop := ∀ k, k < n → isBusy (s.answerAt k) = false

/-- The display answers busy to each of the next `n` samples. -/
def State.BusyFor (s : State) (n : Nat) : Prop := ∀ k, k < n → isBusy (s.answerAt k) = true

/-- The next poll ends ready on its sample `j + 1`: `j` busy answers, then a ready one, within `T`. -/
def State.ReadyOn (s : State) (j : Nat) : Prop :=
  j < s.cfg.pollBound ∧ s.BusyFor j ∧ isBusy (s.answerAt j) = false

/-- The trace of the next `n` status samples. -/
def State.samples (s : State) (n : Nat) : List Transfer := (List.range n).map (fun k => .sts (s.answerAt k))

/-- The trace of a sequence of writes, the `k`-th read onward answered ready each time: one sample, one write. -/
def State.readyTrace (s : State) : Nat → List Transfer → List Transfer
  | _, [] => []
  | k, w :: ws => .sts (s.answerAt k) :: w :: s.readyTrace (k + 1) ws

/-! ## Operations and their bytes -/

/-- The text operations (44 R165). -/
def isTextOp : Instr → Bool
  | .gotoxy _ _ | .putc _ | .puts _ | .writeLine _ _ => true
  | .powerOn | .powerOff | .writeCmd _ | .writeData _ => false
  | .sampleStatus | .waitReady | .setBusDir _ | .writeBus _ | .readBus | .setCtl _ _ => false
  | .busCmd _ | .busDat _ | .busSts _ => false
  | .lcdFuncsetIs1 | .lcdBias | .lcdPwrContrastHi _ | .lcdFollower | .lcdContrastLo _ | .lcdFuncsetIs0 => false
  | .lcdSetCgram _ | .lcdDisplayOn | .lcdClear | .lcdEntryInc | .lcdSetDdram _ => false

/-- The byte of a display command under the configuration (30 R75 to R85). -/
def commandByte (c : Config) : Instr → Option Byte
  | .lcdFuncsetIs1 => some c.cmdFuncsetIs1
  | .lcdBias => some c.cmdBias
  | .lcdPwrContrastHi hi => some (c.cmdPwrBase ||| hi.setWidth 8)
  | .lcdFollower => some c.cmdFollower
  | .lcdContrastLo lo => some (c.cmdContrastBase ||| lo.setWidth 8)
  | .lcdFuncsetIs0 => some c.cmdFuncsetIs0
  | .lcdSetCgram a => some (c.cmdSetCgram ||| a.setWidth 8)
  | .lcdDisplayOn => some c.cmdDisplayOn
  | .lcdClear => some c.cmdClear
  | .lcdEntryInc => some c.cmdEntryInc
  | .lcdSetDdram a => some (c.cmdSetDdram ||| a.setWidth 8)
  | .gotoxy _ _ | .putc _ | .puts _ | .writeLine _ _ => none
  | .powerOn | .powerOff | .writeCmd _ | .writeData _ => none
  | .sampleStatus | .waitReady | .setBusDir _ | .writeBus _ | .readBus | .setCtl _ _ => none
  | .busCmd _ | .busDat _ | .busSts _ => none

/-- The command bytes are the spec's GK3 defaults (00 R6). -/
abbrev UsesDefaultCommands (c : Config) : Prop :=
  c.cmdFuncsetIs1 = 0x39#8 ∧ c.cmdBias = 0x14#8 ∧ c.cmdPwrBase = 0x54#8 ∧ c.cmdFollower = 0x6D#8
    ∧ c.cmdContrastBase = 0x70#8 ∧ c.cmdFuncsetIs0 = 0x38#8 ∧ c.cmdSetCgram = 0x40#8 ∧ c.cmdDisplayOn = 0x0C#8
    ∧ c.cmdClear = 0x01#8 ∧ c.cmdEntryInc = 0x06#8 ∧ c.cmdSetDdram = 0x80#8

/-- The rows of an instruction table as a mask and the value the masked byte has (30 R75 to R86): eleven in all, the
common ones first. -/
def commandRows (c : Config) (t : InstructionTable) : List (Byte × Byte) :=
  [(0xFF#8, c.cmdFuncsetIs1), (0xFF#8, c.cmdFuncsetIs0), (0xFF#8, c.cmdDisplayOn), (0xFF#8, c.cmdClear),
    (0xFF#8, c.cmdEntryInc), (setDdramMask, c.cmdSetDdram)]
  ++ match t with
    | .one => [(0xFF#8, c.cmdBias), (pwrMask, c.cmdPwrBase), (0xFF#8, c.cmdFollower), (contrastMask, c.cmdContrastBase)]
    | .zero => [(setCgramMask, c.cmdSetCgram)]

/-- No byte is in both rows: they differ in a bit that both fix. -/
abbrev RowsApart (p q : Byte × Byte) : Prop := p.1 &&& q.1 &&& (p.2 ^^^ q.2) ≠ 0#8

/-- In each instruction table a byte is at most one command. The spec does not ask it of the parameters; its defaults
meet it (00 R6). -/
abbrev CommandsDistinct (c : Config) : Prop :=
  (commandRows c .one).Pairwise RowsApart ∧ (commandRows c .zero).Pairwise RowsApart

/-! ## The display record -/

/-- Both memories of the display are in canonical form. -/
abbrev State.MemoryCanonical (s : State) : Prop :=
  s.display.ddram.wf ddramSize ∧ s.display.cgram.wf cgramSize

/-! ## Outcomes -/

/-- The next state of an outcome, if it is one. -/
def nextState (o : Host.Outcome State Fault Refusal) : Option State :=
  match o with
  | .next s => some s
  | .fault _ => none
  | .refused _ => none

/-- An outcome with its next state seen through `f`. -/
def mapNext (f : State → State) (o : Host.Outcome State Fault Refusal) : Host.Outcome State Fault Refusal :=
  match o with
  | .next s => .next (f s)
  | .fault r => .fault r
  | .refused r => .refused r

end Sys2Proof.Machine
end

