-- ==== Sys2Proof/Certificates/Slice0/Obligations.lean ====
section
/-! DEFINITION. The statements for the provers, from the numbered rules of spec/. A statement about a display's answers
speaks of `answerAt`, which covers the listed answers and the free values alike, so it holds for every display. -/

open Sys2Proof Sys2Proof.Machine

/-! ## Encodings -/

/-- Decoding the word of a well-formed operation, every operand at every value its field admits (30 R70 to R85, R90).
An operation that is no display command comes back under every configuration. A display command comes back under a valid
configuration in which no byte is two commands of one instruction table; under a valid configuration in which one is, only
a command of the same byte is sure to come back (log 16). -/
def Obligations.DecodeOfEncodeIsTheOperation : Prop :=
  ∀ (c : Config) (i : Instr), i.wellFormed = true →
    (commandByte c i = none → decode c (encode c i) = .ok i)
    ∧ (c.Valid → CommandsDistinct c → decode c (encode c i) = .ok i)
    ∧ ∀ b, c.Valid → commandByte c i = some b → ∃ j, decode c (encode c i) = .ok j ∧ commandByte c j = some b

/-- Under every configuration, a request that decodes is the encoder's word of what it decodes to, or a byte passed
through as a command because it is none of the eleven (30 R89d); so no two words of a port decode alike. -/
def Obligations.DecodedRequestIsTheEncodersWord : Prop :=
  ∀ (c : Config) (r : Request) (i : Instr), decode c r = .ok i → i.wellFormed = true
    ∧ ((encode c i).word = r.word
      ∨ ∃ t b, r.port = .command t ∧ r.word = b.setWidth 16 ∧ decodeCommand c t b = none ∧ i = .writeCmd b)

/-- 30 R89 (a) to (d), R73: which host words are refused, and that every other one is an exposed operation; the
data-read frame is refused; and under every configuration (00 R6) every byte of the command port is passed through
unchanged: it decodes to a display command of that very byte, or, being none of the eleven in its table, to WRITE_CMD
of it. -/
def Obligations.HostWordsRefusedOrExposed : Prop :=
  ∀ (c : Config) (w : BitVec 16) (text : List Byte),
    ((reqOp w = 0x0#4 ∨ reqOp w = 0xF#4) → decode c ⟨.host, w, text⟩ = .error .reservedOp)
    ∧ (9 ≤ (reqOp w).toNat → (reqOp w).toNat ≤ 14 → ∃ e, decode c ⟨.host, w, text⟩ = .error e)
    ∧ ((reqOp w = 0x1#4 ∨ reqOp w = 0x2#4 ∨ reqOp w = 0x7#4) →
        if reqAux w = 0#4 ∧ reqArg w = 0#8 then ∃ i, decode c ⟨.host, w, text⟩ = .ok i ∧ i.exposed = true
        else decode c ⟨.host, w, text⟩ = .error .nonzeroField)
    ∧ ((reqOp w = 0x3#4 ∨ reqOp w = 0x4#4 ∨ reqOp w = 0x6#4) →
        if reqAux w = 0#4 then ∃ i, decode c ⟨.host, w, text⟩ = .ok i ∧ i.exposed = true
        else decode c ⟨.host, w, text⟩ = .error .nonzeroField)
    ∧ (reqOp w = 0x5#4 → decode c ⟨.host, w, text⟩ = .ok (.gotoxy (reqArg w).toNat (reqAux w).toNat))
    ∧ (reqOp w = 0x8#4 →
        if reqArg w = 0#8 then decode c ⟨.host, w, text⟩ = .ok (.writeLine (reqAux w).toNat text)
        else decode c ⟨.host, w, text⟩ = .error .nonzeroField)
    ∧ (w.extractLsb' 8 8 = 3#8 → decode c ⟨.bus, w, text⟩ = .error .dataRead)
    ∧ ∀ (t : InstructionTable) (b : Byte),
      ∃ i, decode c ⟨.command t, b.setWidth 16, text⟩ = .ok i
        ∧ (commandByte c i = some b ∨ decodeCommand c t b = none ∧ i = .writeCmd b)

/-- Words written out in 95 part 3 (family E) and the opcode table decode to the operations they stand for; the two
display commands under the default bytes (00 R6, GK3; log 5). -/
def Obligations.VectorWordsDecode : Prop :=
  ∀ c : Config, decode c ⟨.host, 0b0001000000000000#16, []⟩ = .ok .powerOn
    ∧ decode c ⟨.host, 0b0011000000111000#16, []⟩ = .ok (.writeCmd 0x38#8)
    ∧ decode c ⟨.host, 0b0101000100000101#16, []⟩ = .ok (.gotoxy 5 1)
    ∧ decode c ⟨.host, 0b1000001000000000#16, [0x48#8, 0x69#8]⟩ = .ok (.writeLine 2 [0x48#8, 0x69#8])
    ∧ decode c ⟨.inner, 0b1110000100000001#16, []⟩ = .ok (.setCtl .rw true)
    ∧ decode c ⟨.bus, 0b1001001000#16, []⟩ = .ok (.busDat 0x48#8)
    ∧ (UsesDefaultCommands c → decode c ⟨.command .one, 0b01110101#16, []⟩ = .ok (.lcdContrastLo 5#4)
      ∧ decode c ⟨.command .zero, 0b01110101#16, []⟩ = .ok (.lcdSetCgram 0x35#6))

/-! ## The step -/

/-- A step runs the decoded request: the request is consumed and its operation executed on the rest of the state. -/
def Obligations.StepRunsTheDecodedRequest : Prop :=
  ∀ (s : State) (r : Request) (rest : List Request) (i : Instr),
    s.requests = r :: rest → decode s.cfg r = .ok i → step s = exec i { s with requests := rest }

/-- A refused word stops the run by its name; with no request the block waits, unchanged (30 R89a, 70 R215). -/
def Obligations.StepRefusesOrWaits : Prop :=
  (∀ (s : State) (r : Request) (rest : List Request) (e : DecodeError),
      s.requests = r :: rest → decode s.cfg r = .error e → step s = .refused (.undecodable e))
    ∧ ∀ s : State, s.requests = [] → step s = .next s

/-! ## Bus transport -/

/-- SET_BUS_DIR (40 R101): legal in every state, moves `BUS_DIR` alone, and shows in the waveform only as a change. -/
def Obligations.SetBusDirectionResult : Prop :=
  ∀ (d : Dir) (s : State),
    exec (.setBusDir d) s = .next { s with
      pins := { s.pins with busDir := dirValue d }
      waveform := s.waveform ++ (if s.pins.busDir = dirValue d then [] else [.busDir d]) }

/-- WRITE_BUS (40 R102, R106): `BUS_OUT` alone, any byte; refused unless the bus is an output. -/
def Obligations.WriteBusResult : Prop :=
  ∀ (b : Byte) (s : State),
    (s.pins.busDir = .output →
      exec (.writeBus b) s = .next { s with
        pins := { s.pins with busOut := b }
        waveform := s.waveform ++ (if s.pins.busOut = b then [] else [.bus b]) })
    ∧ (s.pins.busDir ≠ .output → exec (.writeBus b) s = .refused .busNotOutput)

/-- READ_BUS (40 R103, R106): one read event of the display's next answer, no register changed; refused unless the bus
is an input. -/
def Obligations.ReadBusResult : Prop :=
  ∀ s : State,
    (s.pins.busDir = .input →
      ∃ t, exec .readBus s = .next t ∧ t.waveform = s.waveform ++ [.read (s.answerAt 0)]
        ∧ (∀ k, t.answerAt k = s.answerAt (k + 1))
        ∧ t.pins = s.pins ∧ t.status = s.status ∧ t.pollCnt = s.pollCnt ∧ SameControl s t
        ∧ t.transfers = s.transfers ∧ t.conditions = s.conditions ∧ t.display = s.display)
    ∧ (s.pins.busDir ≠ .input → exec .readBus s = .refused .busNotInput)

/-- SET_CTL (40 R104, R106): exactly one line; refused where its direction is unconfigured. -/
def Obligations.SetControlLineResult : Prop :=
  ∀ (lvl : Bool) (s : State),
    (s.pins.dirE = .output → exec (.setCtl .e lvl) s = .next { s with
        pins := { s.pins with e := lvl }
        waveform := s.waveform ++ (if s.pins.e = lvl then [] else [.line .e lvl]) })
    ∧ (s.pins.dirRw = .output → exec (.setCtl .rw lvl) s = .next { s with
        pins := { s.pins with rw := lvl }
        waveform := s.waveform ++ (if s.pins.rw = lvl then [] else [.line .rw lvl]) })
    ∧ (s.pins.dirRs = .output → exec (.setCtl .rs lvl) s = .next { s with
        pins := { s.pins with rs := lvl }
        waveform := s.waveform ++ (if s.pins.rs = lvl then [] else [.line .rs lvl]) })
    ∧ (s.pins.dirE = .unconf → exec (.setCtl .e lvl) s = .refused (.lineUnconfigured .e))
    ∧ (s.pins.dirRw = .unconf → exec (.setCtl .rw lvl) s = .refused (.lineUnconfigured .rw))
    ∧ (s.pins.dirRs = .unconf → exec (.setCtl .rs lvl) s = .refused (.lineUnconfigured .rs))

/-! ## Handshake -/

/-- SAMPLE_STATUS (41 R120, R121): the byte, the exit pins, one tick, one `Sts`, and nothing else. -/
def Obligations.SampleStatusResult : Prop :=
  ∀ s : State, s.pins.LinesDriven →
    ∃ t, exec .sampleStatus s = .next t
      ∧ t.pins = { s.pins with busDir := .input, rw := true, rs := false, e := false }
      ∧ t.status = s.answerAt 0 ∧ t.busyFlag = isBusy (s.answerAt 0)
      ∧ t.transfers = s.transfers ++ [.sts (s.answerAt 0)] ∧ (∀ k, t.answerAt k = s.answerAt (k + 1))
      ∧ t.ticks = s.ticks + 1 ∧ t.pollCnt = s.pollCnt ∧ SameControl s t
      ∧ t.conditions = s.conditions ∧ t.display = s.display

/-- The counting law (41 R123): the poll takes exactly `j + 1` samples if the first ready answer is number `j` within
the bound, else exactly `T`; one tick between samples and one inside each; the pending transfer follows a ready poll
and is skipped after a timeout. -/
def Obligations.PollCountingLaw : Prop :=
  ∀ s : State, s.pins.LinesDriven →
    (∀ j, s.ReadyOn j →
      (waitReady s).1 = .ready ∧ (waitReady s).2.transfers = s.transfers ++ s.samples (j + 1)
        ∧ (waitReady s).2.ticks = s.ticks + (j + 1) + j
        ∧ ∀ b, ∃ t u, exec (.writeCmd b) s = .next t ∧ t.transfers = s.transfers ++ s.samples (j + 1) ++ [.cmd b]
          ∧ exec (.writeData b) s = .next u ∧ u.transfers = s.transfers ++ s.samples (j + 1) ++ [.dat b])
    ∧ (1 ≤ s.cfg.pollBound → s.BusyFor s.cfg.pollBound →
      (waitReady s).1 = .timeout ∧ (waitReady s).2.transfers = s.transfers ++ s.samples s.cfg.pollBound
        ∧ (waitReady s).2.ticks = s.ticks + s.cfg.pollBound + (s.cfg.pollBound - 1)
        ∧ ∀ b, ∃ t u, exec (.writeCmd b) s = .next t ∧ t.transfers = s.transfers ++ s.samples s.cfg.pollBound
          ∧ exec (.writeData b) s = .next u ∧ u.transfers = s.transfers ++ s.samples s.cfg.pollBound)

/-- WAIT_READY (41 R121, R122, R125): it always ends, in the read configuration, after at least one and at most `T`
samples and no write, and leaves everything else of the block and the display as it was. (`POLL_CNT`, `STATUS` at the
boundary keep their last values here and below: log 18.) -/
def Obligations.WaitReadyResult : Prop :=
  ∀ s : State, s.pins.LinesDriven → 1 ≤ s.cfg.pollBound →
    ∃ t n, exec .waitReady s = .next t ∧ 1 ≤ n ∧ n ≤ s.cfg.pollBound
      ∧ t.transfers = s.transfers ++ s.samples n ∧ t.status = s.answerAt (n - 1) ∧ t.pollCnt = n
      ∧ (isBusy t.status = true → n = s.cfg.pollBound)
      ∧ s.BusyFor (n - 1)
      ∧ t.pins = { s.pins with busDir := .input, rw := true, rs := false, e := false }
      ∧ SameControl s t ∧ t.conditions = s.conditions ∧ t.display = s.display

/-- Tick cost of a poll (41 R126): `2j - 1` for a poll ready on its sample `j`, `2T - 1` for a timeout. -/
def Obligations.PollTickCost : Prop :=
  ∀ s : State, s.pins.LinesDriven →
    (∀ j, 1 ≤ j → s.ReadyOn (j - 1) → ∃ t, exec .waitReady s = .next t ∧ t.ticks = s.ticks + (2 * j - 1))
    ∧ (1 ≤ s.cfg.pollBound → s.BusyFor s.cfg.pollBound →
      ∃ t, exec .waitReady s = .next t ∧ t.ticks = s.ticks + (2 * s.cfg.pollBound - 1))

/-- The poll machine of 41 R124, with every `require` of L0 checked at its own line, is never refused where the lines
are driven and reaches `H_READY` or `H_TIMEOUT` in the state of `WaitReady`. -/
def Obligations.PollMachineIsWaitReady : Prop :=
  ∀ s : State, s.pins.LinesDriven → 1 ≤ s.cfg.pollBound →
    ∃ n, pollRun n .idle s
      = .ok (match (waitReady s).1 with | .ready => .ready | .timeout => .timeout, (waitReady s).2)

/-! ## Command/data channel -/

/-- WRITE_CMD (42 R137, R138, 43 R159): the handshake's samples, one command transfer, the exit pins, `2(j + 1)` ticks;
everything else but the display record (the fixture of 95 part 2, log 13) unchanged (`POLL_CNT` keeps its last value:
log 18). -/
def Obligations.WriteCommandSendsOneByte : Prop :=
  ∀ (b : Byte) (s : State) (j : Nat), s.pins.LinesDriven → s.ReadyOn j →
    ∃ t, exec (.writeCmd b) s = .next t
      ∧ t.transfers = s.transfers ++ s.samples (j + 1) ++ [.cmd b]
      ∧ t.pins = { s.pins with busDir := .output, busOut := b, e := false, rw := false, rs := false }
      ∧ t.status = s.answerAt j ∧ t.pollCnt = j + 1 ∧ (∀ k, t.answerAt k = s.answerAt (j + 1 + k))
      ∧ t.ticks = s.ticks + 2 * (j + 1) ∧ SameControl s t ∧ t.conditions = s.conditions
      ∧ t.display = s.display.latch s.pins.supplied false b

/-- WRITE_DATA (42 R137, R139): as WRITE_CMD, with Register-Select 1 (display record: log 13; `POLL_CNT`: log 18). -/
def Obligations.WriteDataSendsOneByte : Prop :=
  ∀ (b : Byte) (s : State) (j : Nat), s.pins.LinesDriven → s.ReadyOn j →
    ∃ t, exec (.writeData b) s = .next t
      ∧ t.transfers = s.transfers ++ s.samples (j + 1) ++ [.dat b]
      ∧ t.pins = { s.pins with busDir := .output, busOut := b, e := false, rw := false, rs := true }
      ∧ t.status = s.answerAt j ∧ t.pollCnt = j + 1 ∧ (∀ k, t.answerAt k = s.answerAt (j + 1 + k))
      ∧ t.ticks = s.ticks + 2 * (j + 1) ∧ SameControl s t ∧ t.conditions = s.conditions
      ∧ t.display = s.display.latch s.pins.supplied true b

/-- `Timeout` (42 R136, 60 R186): `T` busy samples and no write; `BUS_OUT` keeps its byte, `POLL_CNT = T`, the pins stay
in the read configuration, and nothing but the observer's log (log 12) tells of it. -/
def Obligations.WriteTimesOutSilently : Prop :=
  ∀ (b : Byte) (s : State) (i : Instr), (i = .writeCmd b ∨ i = .writeData b) →
    s.pins.LinesDriven → 1 ≤ s.cfg.pollBound → s.BusyFor s.cfg.pollBound →
    ∃ t, exec i s = .next t
      ∧ t.transfers = s.transfers ++ s.samples s.cfg.pollBound
      ∧ t.pins = { s.pins with busDir := .input, e := false, rw := true, rs := false }
      ∧ t.status = s.answerAt (s.cfg.pollBound - 1) ∧ t.pollCnt = s.cfg.pollBound
      ∧ SameControl s t ∧ t.conditions = s.conditions ++ [.timeout .alone] ∧ t.display = s.display

/-- Before the lines are configured every operation that uses them is refused, and so changes nothing
(40 R106, 70 R221, 60 R195). -/
def Obligations.UnconfiguredLinesRefuse : Prop :=
  ∀ (s : State), s.pins.Unconfigured → ∀ b : Byte,
    exec (.writeCmd b) s = .refused (.lineUnconfigured .rw) ∧ exec (.writeData b) s = .refused (.lineUnconfigured .rw)
      ∧ exec .sampleStatus s = .refused (.lineUnconfigured .rw) ∧ exec .waitReady s = .refused (.lineUnconfigured .rw)
      ∧ exec (.busCmd b) s = .refused (.lineUnconfigured .rw) ∧ exec (.busDat b) s = .refused (.lineUnconfigured .rw)
      ∧ exec (.busSts b) s = .refused (.lineUnconfigured .rw)
      ∧ ∀ i c, commandByte s.cfg i = some c → exec i s = .refused (.lineUnconfigured .rw)

/-- Neither primitive reads `POWERED` or `SEQ` (42 R141): with other values of both the outcome is the same but for
those values themselves. -/
def Obligations.ChannelIgnoresPowerState : Prop :=
  ∀ (b : Byte) (s : State) (p : Bool) (q : Sys2Proof.Machine.Seq) (i : Instr), (i = .writeCmd b ∨ i = .writeData b) →
    exec i ((s.setPowered p).setSeq q) = mapNext (fun t => (t.setPowered p).setSeq q) (exec i s)

/-- The write machine of 42 R140, every `require` checked at its own line, is never refused where the lines are driven
and ends in the state of the gated write: `X_DONE` with the transfer, `X_ABORT` without (42 R136, 40 R106). -/
def Obligations.WriteMachineIsTheGatedWrite : Prop :=
  ∀ (rs : Bool) (b : Byte) (p : Place) (s : State), s.pins.LinesDriven → 1 ≤ s.cfg.pollBound →
    ∃ n, writeRun rs b p n .idle s
      = .ok (match (waitReady s).1 with | .ready => .done | .timeout => .abort, writeByte rs b p s)

/-! ## Bus frames and display commands -/

/-- BUS_CMD and BUS_DAT (30 R71, 42 R137, 70 R222; the model's reading, log 15): after a ready handshake the frame's
write phase, otherwise refused, since there is no ungated write. What the display record becomes is the fixture of 95
part 2 (log 13). -/
def Obligations.BusWriteFrames : Prop :=
  ∀ (b : Byte) (s : State), s.pins.LinesDriven →
    (∀ before v, s.transfers = before ++ [.sts v] → isBusy v = false →
      ∃ t u, exec (.busCmd b) s = .next t ∧ exec (.busDat b) s = .next u
        ∧ t.transfers = s.transfers ++ [.cmd b] ∧ u.transfers = s.transfers ++ [.dat b]
        ∧ t.pins = { s.pins with busDir := .output, busOut := b, e := false, rw := false, rs := false }
        ∧ u.pins = { s.pins with busDir := .output, busOut := b, e := false, rw := false, rs := true }
        ∧ t.ticks = s.ticks + 1 ∧ u.ticks = s.ticks + 1 ∧ SameControl s t ∧ SameControl s u
        ∧ t.status = s.status ∧ u.status = s.status ∧ t.pollCnt = s.pollCnt ∧ u.pollCnt = s.pollCnt
        ∧ t.conditions = s.conditions ∧ u.conditions = s.conditions
        ∧ t.display = s.display.latch s.pins.supplied false b ∧ u.display = s.display.latch s.pins.supplied true b)
    ∧ ((¬ ∃ before v, s.transfers = before ++ [.sts v] ∧ isBusy v = false) →
      exec (.busCmd b) s = .refused .ungatedWrite ∧ exec (.busDat b) s = .refused .ungatedWrite)

/-- BUS_STS (30 R71, 41 R120; the model's reading, log 15): a status sample the display answers with the frame's
byte. -/
def Obligations.BusStatusFrame : Prop :=
  ∀ (v : Byte) (s : State), s.pins.LinesDriven →
    ∃ t, exec (.busSts v) s = .next t ∧ t.status = v ∧ t.transfers = s.transfers ++ [.sts v]
      ∧ t.pins = { s.pins with busDir := .input, rw := true, rs := false, e := false }
      ∧ t.ticks = s.ticks + 1 ∧ (∀ k, t.answerAt k = s.answerAt k) ∧ t.pollCnt = s.pollCnt ∧ SameControl s t
      ∧ t.conditions = s.conditions ∧ t.display = s.display

/-- The eleven display commands (30 R74 to R85): LCD_FUNCSET_IS1, LCD_BIAS, LCD_PWR_CONTRAST_HI, LCD_FOLLOWER,
LCD_CONTRAST_LO, LCD_FUNCSET_IS0, LCD_SET_CGRAM, LCD_DISPLAY_ON, LCD_CLEAR, LCD_ENTRY_INC, LCD_SET_DDRAM. Each sends its
byte as one gated command; on a timeout nothing is sent. The display record is the fixture of 95 part 2 (log 13), the
timeout entry the observer's log (log 12), `POLL_CNT` keeps its last value (log 18). -/
def Obligations.DisplayCommandsSendTheirByte : Prop :=
  ∀ (i : Instr) (c : Byte) (s : State), commandByte s.cfg i = some c → s.pins.LinesDriven →
    (∀ j, s.ReadyOn j →
      ∃ t, exec i s = .next t ∧ t.transfers = s.transfers ++ s.samples (j + 1) ++ [.cmd c]
        ∧ t.pins = { s.pins with busDir := .output, busOut := c, e := false, rw := false, rs := false }
        ∧ t.status = s.answerAt j ∧ t.pollCnt = j + 1 ∧ SameControl s t ∧ t.conditions = s.conditions
        ∧ t.display = s.display.latch s.pins.supplied false c)
    ∧ (1 ≤ s.cfg.pollBound → s.BusyFor s.cfg.pollBound →
      ∃ t, exec i s = .next t ∧ t.transfers = s.transfers ++ s.samples s.cfg.pollBound
        ∧ t.pins = { s.pins with busDir := .input, e := false, rw := true, rs := false }
        ∧ SameControl s t ∧ t.conditions = s.conditions ++ [.timeout .alone] ∧ t.display = s.display)

/-- Under every configuration the word of a display command is the byte it sends, on the command port (30 R74 to R85);
under the default command bytes (00 R6, GK3, the spec's general knowledge: log 5) it is the opcode table's row, operand
included. -/
def Obligations.DefaultCommandBytesAreTheTables : Prop :=
  ∀ c : Config,
    (∀ i b, commandByte c i = some b → (encode c i).word = b.setWidth 16 ∧ ∃ t, (encode c i).port = .command t)
    ∧ (UsesDefaultCommands c →
      (encode c .lcdFuncsetIs1).word = 0x39#16 ∧ (encode c .lcdBias).word = 0x14#16
      ∧ (∀ hi : BitVec 2, (encode c (.lcdPwrContrastHi hi)).word = 0b010101#14 ++ hi)
      ∧ (encode c .lcdFollower).word = 0x6D#16
      ∧ (∀ lo : BitVec 4, (encode c (.lcdContrastLo lo)).word = 0b0111#12 ++ lo)
      ∧ (encode c .lcdFuncsetIs0).word = 0x38#16
      ∧ (∀ a : BitVec 6, (encode c (.lcdSetCgram a)).word = 0b01#10 ++ a)
      ∧ (encode c .lcdDisplayOn).word = 0x0C#16 ∧ (encode c .lcdClear).word = 0x01#16
      ∧ (encode c .lcdEntryInc).word = 0x06#16
      ∧ ∀ a : BitVec 7, (encode c (.lcdSetDdram a)).word = 0b1#9 ++ a)

/-- The bytes and addresses that carry a field (30 R77, R79, R81, R83, R90, R93; 20 R52, R53; 10 R30): each OR is a
sum, no address leaves its field, and the two contrast fields are the whole contrast. -/
def Obligations.FieldsAreCleanInserts : Prop :=
  ∀ c : Config, c.Valid →
    (∀ hi, (pwrContrastByte c hi).toNat = c.cmdPwrBase.toNat + hi.toNat)
    ∧ (∀ lo, (contrastLowByte c lo).toNat = c.cmdContrastBase.toNat + lo.toNat)
    ∧ contrastHigh c.contrast ++ contrastLow c.contrast = c.contrast
    ∧ (∀ slot : Fin 8, (setCgramByte c (cgramAddress slot)).toNat = c.cmdSetCgram.toNat + slot.val * 8)
    ∧ (∀ x y, x < 16 → y < 2 →
      (setDdramByte c (ddramAddress x y)).toNat = c.cmdSetDdram.toNat + (y * 0x40 + x) ∧ y * 0x40 + x ≤ 0x4F)

/-! ## Sequencer -/

/-- POWER_ON (43 R146, R147, R152): from every state, whatever the display answers, it ends `Ready` with `POWERED` set,
every line configured, the supply on, Enable low, and the constants as they were. -/
def Obligations.PowerOnEndsReady : Prop :=
  ∀ s : State, ∃ t, exec .powerOn s = .next t
    ∧ t.seq = .ready ∧ t.powered = true ∧ t.pins.Configured ∧ t.pins.pwr = true ∧ t.pins.e = false
    ∧ t.cfg = s.cfg ∧ t.requests = s.requests

/-- The power-up pin phase (43 R147, 70 R224): from every state the waveform is the spec's, entry by entry, an access
whose effect already holds adding none; before the one settle delay nothing is pulsed, sent, read or delayed; after it
the pins are the zeroed outputs with the supply on. (From reset all six entries stand, `DB=00` by log 7.) -/
def Obligations.PowerUpPhaseThenSettle : Prop :=
  ∀ s : State, ∃ t before after, exec .powerOn s = .next t
    ∧ t.waveform = s.waveform ++ before ++ [.ms s.cfg.powerupSettleMs] ++ after
    ∧ before = entryUnless (s.pins.dirE == .output && s.pins.e == false) (.cfg .e false)
        ++ entryUnless (s.pins.dirRw == .output && s.pins.rw == false) (.cfg .rw false)
        ++ entryUnless (s.pins.dirRs == .output && s.pins.rs == false) (.cfg .rs false)
        ++ entryUnless (s.pins.busDir == .output) (.busDir .output)
        ++ entryUnless (s.pins.busOut == 0x00#8) (.bus 0x00#8)
        ++ entryUnless (s.pins.dirPwr == .output && s.pins.pwr == true) (.cfg .pwr true)
    ∧ (∀ ev ∈ before, ev ≠ .tick ∧ (∀ l v, ev ≠ .line l v) ∧ (∀ n, ev ≠ .ms n) ∧ ∀ v, ev ≠ .read v)
    ∧ replay s.pins before = ⟨.output, 0x00#8, false, false, false, true, .output, .output, .output, .output⟩
    ∧ (∀ n, PinEvent.ms n ∉ after)
    ∧ (s.pins.Unconfigured → s.pins.busDir = .unconf → s.pins.busOut ≠ 0x00#8 →
      before = [.cfg .e false, .cfg .rw false, .cfg .rs false, .busDir .output, .bus 0x00#8, .cfg .pwr true])

/-- `INIT` (43 R149, R150, R151): 81 entries, 17 commands and 64 data writes, in the document's strict order, for every
contrast, glyph table and set of command bytes. -/
def Obligations.InitTableShape : Prop :=
  ∀ c : Config,
    ((initTable c).map InitEntry.transfer).length = 81
    ∧ ((initTable c).filter (fun e => !e.rs)).length = 17 ∧ ((initTable c).filter (fun e => e.rs)).length = 64
    ∧ ((initTable c).map InitEntry.transfer).take 6 = [.cmd c.cmdFuncsetIs1, .cmd c.cmdBias,
        .cmd (c.cmdPwrBase ||| (contrastHigh c.contrast).setWidth 8), .cmd c.cmdFollower,
        .cmd (c.cmdContrastBase ||| (contrastLow c.contrast).setWidth 8), .cmd c.cmdFuncsetIs0]
    ∧ (∀ slot : Fin 8, ((initTable c).map InitEntry.transfer)[6 + 9 * slot.val]?
        = some (.cmd (c.cmdSetCgram ||| BitVec.ofNat 8 (slot.val * 8))))
    ∧ (∀ slot row : Fin 8, ((initTable c).map InitEntry.transfer)[6 + 9 * slot.val + 1 + row.val]?
        = some (.dat ((c.glyph.get slot).get row)))
    ∧ ((initTable c).map InitEntry.transfer).drop 78 = [.cmd c.cmdDisplayOn, .cmd c.cmdClear, .cmd c.cmdEntryInc]

/-- POWER_ON with a display that is ready to every first sample (43 R149, R159): one sample and one write for each of
the 81 entries, in the table's order, 162 ticks, nothing dropped. -/
def Obligations.PowerOnSendsTheTableInOrder : Prop :=
  ∀ s : State, 1 ≤ s.cfg.pollBound → s.ReadyFor 81 →
    ∃ t, exec .powerOn s = .next t
      ∧ t.transfers = s.transfers ++ s.readyTrace 0 ((initTable s.cfg).map InitEntry.transfer)
      ∧ t.ticks = s.ticks + 162 ∧ t.conditions = s.conditions
      ∧ t.pins = ⟨.output, s.cfg.cmdEntryInc, false, false, false, true, .output, .output, .output, .output⟩
      ∧ t.status = s.answerAt 80

/-- POWER_ON with any display (43 R150, R152, 60 R192, 20 R63): there are steps, strictly increasing, whose transfers
timed out, each logged once under its `STEP` (the observer's log, log 12); the writes that reach the bus are the table
with exactly those steps left out, in its order and once each. -/
def Obligations.PowerOnDropsButNeverReorders : Prop :=
  ∀ s : State, ∃ t new steps, exec .powerOn s = .next t
    ∧ t.transfers = s.transfers ++ new
    ∧ t.conditions = s.conditions ++ steps.map (fun k => .timeout (.initStep k))
    ∧ steps.Pairwise (· < ·) ∧ (∀ k ∈ steps, k ≤ 80)
    ∧ new.filter Transfer.isWrite = without steps 0 ((initTable s.cfg).map InitEntry.transfer)
    ∧ (new.filter Transfer.isWrite).Sublist ((initTable s.cfg).map InitEntry.transfer)
    ∧ (new.filter Transfer.isWrite).length + steps.length = 81

/-- POWER_ON with a display that is always busy (43 R152): `81 * T` samples, no write at all, and still `Ready`. -/
def Obligations.PowerOnAgainstABusyDisplay : Prop :=
  ∀ s : State, 1 ≤ s.cfg.pollBound → s.BusyFor (81 * s.cfg.pollBound) →
    ∃ t, exec .powerOn s = .next t ∧ t.transfers = s.transfers ++ s.samples (81 * s.cfg.pollBound)
      ∧ t.seq = .ready ∧ t.powered = true
      ∧ t.pins = ⟨.input, 0x00#8, false, true, false, true, .output, .output, .output, .output⟩

/-- POWER_OFF (43 R153, R154, 70 R229): every line an output at 0, the flag false, `SEQ` off; no transfer, no tick, no
read; the sample, the counters and the constants as they were. The pin phase entry by entry, an access whose effect
already holds adding none: the bus and the control lines low first, the supply dropped last. Unless the supply
was already dropped the display record is lost, in the first POWER_OFF from reset too, where whether there was supply is
open (60 R202, 70 R216; the fixture and its loss are the model's, log 13, log 14, log 29). -/
def Obligations.PowerOffGroundsEveryLine : Prop :=
  ∀ s : State, ∃ t, exec .powerOff s = .next t
    ∧ t.pins = ⟨.output, 0x00#8, false, false, false, false, .output, .output, .output, .output⟩
    ∧ t.waveform = s.waveform ++ entryUnless (s.pins.busDir == .output) (.busDir .output)
        ++ entryUnless (s.pins.busOut == 0x00#8) (.bus 0x00#8)
        ++ entryUnless (s.pins.dirE == .output && s.pins.e == false) (.cfg .e false)
        ++ entryUnless (s.pins.dirRw == .output && s.pins.rw == false) (.cfg .rw false)
        ++ entryUnless (s.pins.dirRs == .output && s.pins.rs == false) (.cfg .rs false)
        ++ entryUnless (s.pins.dirPwr == .output && s.pins.pwr == false) (.cfg .pwr false)
    ∧ t.display = (if s.pins.supply = some false then s.display else s.display.lost)
    ∧ t.powered = false ∧ t.seq = .off ∧ t.transfers = s.transfers ∧ t.ticks = s.ticks
    ∧ t.answers = s.answers ∧ t.reads = s.reads ∧ t.status = s.status ∧ t.pollCnt = s.pollCnt ∧ t.step = s.step
    ∧ t.slot = s.slot ∧ t.row = s.row ∧ t.cfg = s.cfg ∧ t.requests = s.requests ∧ t.conditions = s.conditions

/-- The transition function of `SEQ` (43 R157): `PowerOn` to `Ready`, `PowerOff` to `Off`, any other operation nowhere;
`POWERED` is true exactly in the `Ready` cells. -/
def Obligations.SequencerTransitionTable : Prop :=
  (∀ s : State, (∃ t, exec .powerOn s = .next t ∧ t.seq = .ready ∧ t.powered = true)
      ∧ ∃ t, exec .powerOff s = .next t ∧ t.seq = .off ∧ t.powered = false)
    ∧ ∀ (i : Instr) (s t : State), i ≠ .powerOn → i ≠ .powerOff → (s.powered = true ↔ s.seq = .ready) →
      exec i s = .next t → t.seq = s.seq ∧ (t.powered = true ↔ t.seq = .ready)

/-- Only the sequencer moves the power state (10 R23, R24, R28, R37): every other operation leaves `SEQ`, `POWERED`, the
supply and every line direction as they were, whatever else it does. -/
def Obligations.OnlyTheSequencerMovesPower : Prop :=
  ∀ (i : Instr) (s t : State), i ≠ .powerOn → i ≠ .powerOff → exec i s = .next t →
    t.seq = s.seq ∧ t.powered = s.powered ∧ t.pins.pwr = s.pins.pwr ∧ t.pins.dirPwr = s.pins.dirPwr
      ∧ t.pins.dirE = s.pins.dirE ∧ t.pins.dirRw = s.pins.dirRw ∧ t.pins.dirRs = s.pins.dirRs
      ∧ t.step = s.step ∧ t.slot = s.slot ∧ t.row = s.row

/-- The constants and the requests to come are never written (20 R65, 10 R30, R31). -/
def Obligations.ConstantsNeverChange : Prop :=
  ∀ (i : Instr) (s t : State), exec i s = .next t → t.cfg = s.cfg ∧ t.requests = s.requests

/-! ## Text operations -/

/-- `PoweredOffAccess` (44 R165, 60 R189): with `POWERED` false a text operation returns at once, nothing changed but
the observer's log (log 12); never a fault, bad operands or not (R174). -/
def Obligations.PoweredOffTextOperationsDoNothing : Prop :=
  ∀ (i : Instr) (s : State), isTextOp i = true → s.powered = false →
    exec i s = .next { s with conditions := s.conditions ++ [.poweredOffAccess] }

/-- `ContractViolation` (60 R187, R188, 44 R166, R172, R177): a silent abort, of which only the observer's log (log 12)
tells, or a fault with `DEBUG_ASSERT`. -/
def Obligations.ContractViolationsAbort : Prop :=
  ∀ s : State, s.powered = true →
    (∀ x y, 16 ≤ x ∨ 2 ≤ y → exec (.gotoxy x y) s = if s.cfg.debugAssert = true then .fault (.contractViolation .cursor)
      else .next { s with conditions := s.conditions ++ [.contractViolation .cursor] })
    ∧ ∀ n text, n ≠ 1 → n ≠ 2 → exec (.writeLine n text) s = if s.cfg.debugAssert = true
      then .fault (.contractViolation .lineNumber)
      else .next { s with conditions := s.conditions ++ [.contractViolation .lineNumber] }

/-- GOTOXY (44 R166): in range, one command byte, the set-address opcode OR'd with `y * 0x40 + x`; no transfer if its
handshake times out. The display record is the fixture of 95 part 2 (log 13), the timeout entry the observer's log
(log 12), `POLL_CNT` keeps its last value (log 18). -/
def Obligations.GotoxySendsOneAddressCommand : Prop :=
  ∀ (x y : Nat) (s : State), s.powered = true → s.pins.LinesDriven → x < 16 → y < 2 →
    (∀ j, s.ReadyOn j →
      ∃ t, exec (.gotoxy x y) s = .next t
        ∧ t.transfers = s.transfers ++ s.samples (j + 1) ++ [.cmd (s.cfg.cmdSetDdram ||| BitVec.ofNat 8 (y * 0x40 + x))]
        ∧ t.pins = { s.pins with
            busDir := .output, busOut := s.cfg.cmdSetDdram ||| BitVec.ofNat 8 (y * 0x40 + x)
            e := false, rw := false, rs := false }
        ∧ t.status = s.answerAt j ∧ t.pollCnt = j + 1 ∧ SameControl s t ∧ t.conditions = s.conditions
        ∧ t.display = s.display.latch s.pins.supplied false (s.cfg.cmdSetDdram ||| BitVec.ofNat 8 (y * 0x40 + x)))
    ∧ (1 ≤ s.cfg.pollBound → s.BusyFor s.cfg.pollBound →
      ∃ t, exec (.gotoxy x y) s = .next t ∧ t.transfers = s.transfers ++ s.samples s.cfg.pollBound
        ∧ t.pins = { s.pins with busDir := .input, e := false, rw := true, rs := false }
        ∧ SameControl s t ∧ t.conditions = s.conditions ++ [.timeout .alone] ∧ t.display = s.display)

/-- PUTC (44 R168): one data write of the character as given, whatever its code; none if its handshake times out. The
display record is the fixture of 95 part 2 (log 13), the timeout entry the observer's log (log 12), `POLL_CNT` keeps its
last value (log 18). -/
def Obligations.PutcSendsOneCharacter : Prop :=
  ∀ (c : Byte) (s : State), s.powered = true → s.pins.LinesDriven →
    (∀ j, s.ReadyOn j →
      ∃ t, exec (.putc c) s = .next t
        ∧ t.transfers = s.transfers ++ s.samples (j + 1) ++ [.dat c]
        ∧ t.pins = { s.pins with busDir := .output, busOut := c, e := false, rw := false, rs := true }
        ∧ t.status = s.answerAt j ∧ t.pollCnt = j + 1 ∧ SameControl s t ∧ t.conditions = s.conditions
        ∧ t.display = s.display.latch s.pins.supplied true c)
    ∧ (1 ≤ s.cfg.pollBound → s.BusyFor s.cfg.pollBound →
      ∃ t, exec (.putc c) s = .next t ∧ t.transfers = s.transfers ++ s.samples s.cfg.pollBound
        ∧ t.pins = { s.pins with busDir := .input, e := false, rw := true, rs := false }
        ∧ SameControl s t ∧ t.conditions = s.conditions ++ [.timeout .alone] ∧ t.display = s.display)

/-- PUTS (44 R170, R173) with a ready display: every character once, first first, no cursor command, no padding; the
empty text makes no transfer. -/
def Obligations.PutsSendsEveryCharacter : Prop :=
  ∀ (text : List Byte) (s : State), s.powered = true → s.pins.LinesDriven → 1 ≤ s.cfg.pollBound →
    s.ReadyFor text.length →
    ∃ t, exec (.puts text) s = .next t
      ∧ t.transfers = s.transfers ++ s.readyTrace 0 (text.map Transfer.dat)
      ∧ t.ticks = s.ticks + 2 * text.length ∧ SameControl s t ∧ t.conditions = s.conditions
      ∧ (text = [] → t = s)
      ∧ ∀ c, text.getLast? = some c →
        t.pins = { s.pins with busDir := .output, busOut := c, e := false, rw := false, rs := true }

/-- WRITELINE (44 R172, R173) with a ready display: the address command of line `n`, then the 16 formatted bytes. -/
def Obligations.WriteLineSendsSeventeenTransfers : Prop :=
  ∀ (n : Nat) (text : List Byte) (s : State), s.powered = true → s.pins.LinesDriven → 1 ≤ s.cfg.pollBound →
    n = 1 ∨ n = 2 → s.ReadyFor 17 →
    ∃ t, exec (.writeLine n text) s = .next t
      ∧ t.transfers = s.transfers ++ s.readyTrace 0
          (.cmd (s.cfg.cmdSetDdram ||| BitVec.ofNat 8 ((n - 1) * 0x40)) :: (formatLine s.cfg text).map Transfer.dat)
      ∧ t.ticks = s.ticks + 34 ∧ SameControl s t ∧ t.conditions = s.conditions
      ∧ ∀ c, (formatLine s.cfg text).getLast? = some c →
        t.pins = { s.pins with busDir := .output, busOut := c, e := false, rw := false, rs := true }

/-- PUTS and WRITELINE with any display (44 R175, 60 R192, 20 R63): there are characters, at strictly increasing
indices, whose transfers timed out, each logged once under its index, and for WRITELINE the address command may have
(the observer's log, log 12); the writes that reach the bus are those issued with exactly these left out, in order;
nothing is retried or reordered. -/
def Obligations.TextDropsButNeverReorders : Prop :=
  ∀ s : State, s.powered = true → s.pins.LinesDriven →
    (∀ text, ∃ t new indices, exec (.puts text) s = .next t
      ∧ t.transfers = s.transfers ++ new
      ∧ t.conditions = s.conditions ++ indices.map (fun k => .timeout (.character k))
      ∧ indices.Pairwise (· < ·) ∧ (∀ k ∈ indices, k < text.length)
      ∧ new.filter Transfer.isWrite = without indices 0 (text.map Transfer.dat)
      ∧ (new.filter Transfer.isWrite).Sublist (text.map Transfer.dat)
      ∧ (new.filter Transfer.isWrite).length + indices.length = text.length)
    ∧ ∀ n text, n = 1 ∨ n = 2 → ∃ t new addressDropped indices, exec (.writeLine n text) s = .next t
      ∧ t.transfers = s.transfers ++ new
      ∧ t.conditions = s.conditions ++ (if addressDropped = true then [.timeout .alone] else [])
          ++ indices.map (fun k => .timeout (.character k))
      ∧ indices.Pairwise (· < ·) ∧ (∀ k ∈ indices, k < 16)
      ∧ new.filter Transfer.isWrite
        = (if addressDropped = true then [] else [.cmd (s.cfg.cmdSetDdram ||| BitVec.ofNat 8 ((n - 1) * 0x40))])
          ++ without indices 0 ((formatLine s.cfg text).map Transfer.dat)
      ∧ (new.filter Transfer.isWrite).Sublist
          (.cmd (s.cfg.cmdSetDdram ||| BitVec.ofNat 8 ((n - 1) * 0x40)) :: (formatLine s.cfg text).map Transfer.dat)
      ∧ (new.filter Transfer.isWrite).length + (if addressDropped = true then 1 else 0) + indices.length = 17

/-- Transfer counts of the text operations (44 R173): with a ready display, the new trace entries by kind; with
`POWERED` false, or with an invalid operand where one is checked, none. -/
def Obligations.TextTransferCounts : Prop :=
  ∀ s : State,
    (s.pins.LinesDriven → 1 ≤ s.cfg.pollBound → ∀ (i : Instr) (cmds dats : Nat),
      ((∃ x y, i = .gotoxy x y ∧ x < 16 ∧ y < 2 ∧ cmds = 1 ∧ dats = 0)
        ∨ (∃ c, i = .putc c ∧ cmds = 0 ∧ dats = 1)
        ∨ (∃ text, i = .puts text ∧ cmds = 0 ∧ dats = text.length)
        ∨ (∃ n text, i = .writeLine n text ∧ (n = 1 ∨ n = 2) ∧ cmds = 1 ∧ dats = 16)) →
      s.powered = true → s.ReadyFor (cmds + dats) →
        ∃ t new, exec i s = .next t ∧ t.transfers = s.transfers ++ new
          ∧ (new.filter (fun w => match w with | .cmd _ => true | .dat _ => false | .sts _ => false)).length = cmds
          ∧ (new.filter (fun w => match w with | .dat _ => true | .cmd _ => false | .sts _ => false)).length = dats
          ∧ (new.filter (fun w => !w.isWrite)).length = cmds + dats)
    ∧ (∀ i, isTextOp i = true → s.powered = false → ∃ t, exec i s = .next t ∧ t.transfers = s.transfers)
    ∧ ∀ (i : Instr) (t : State),
      ((∃ x y, i = .gotoxy x y ∧ (16 ≤ x ∨ 2 ≤ y)) ∨ ∃ n text, i = .writeLine n text ∧ n ≠ 1 ∧ n ≠ 2) →
      exec i s = .next t → t.transfers = s.transfers

/-- `Format` (44 R171): always 16 bytes; the first 16 of a longer text; a shorter text and then spaces. -/
def Obligations.FormatLaws : Prop :=
  ∀ (c : Config) (text : List Byte),
    (formatLine c text).length = 16
    ∧ (16 ≤ text.length → ∀ k, k < 16 → (formatLine c text)[k]? = text[k]?)
    ∧ (text.length < 16 → ∀ k, k < 16 →
        (formatLine c text)[k]? = if k < text.length then text[k]? else some c.space)

/-- The power-gating invariant (44 R165, 43 R155): along any run in which no request is a `PowerOn`, `POWERED` stays
false; and while all requests are text operations, no transfer and no pin event happens at all. -/
def Obligations.GatedUntilPowerOn : Prop :=
  ∀ (n : Nat) (s t : State), s.powered = false → Host.Core.run core n s = .next t →
    ((∀ r ∈ s.requests, decode s.cfg r ≠ .ok .powerOn) → t.powered = false)
    ∧ ((∀ r ∈ s.requests, ∃ i, decode s.cfg r = .ok i ∧ isTextOp i = true) →
      t.transfers = s.transfers ∧ t.waveform = s.waveform ∧ t.pins = s.pins)

/-! ## Whole-machine rules -/

/-- Reset (10 R38, 70 R215, R216): the values the spec gives. -/
def Obligations.ResetLeavesTheSpecValues : Prop :=
  State.reset.seq = .unpowered ∧ State.reset.powered = false ∧ State.reset.pins.busDir = .unconf
    ∧ State.reset.pins.Unconfigured ∧ State.reset.transfers = [] ∧ State.reset.waveform = []

/-- Reset meets the invariants that every step keeps (the memories' form is the model's, log 28). -/
def Obligations.ResetMeetsTheInvariants : Prop :=
  State.reset.Boundary ∧ State.reset.MemoryCanonical ∧ Handshaken State.reset.transfers ∧ State.reset.cfg.Valid

/-- Every step keeps the pair (`SEQ`, `POWERED`) and the line directions coherent (10 R36 a, b, c, d). -/
def Obligations.EveryStepKeepsCoherence : Prop :=
  ∀ s t : State, s.Coherent → step s = .next t → t.Coherent

/-- At the operation boundaries of the host (10 R36): every step that runs a host request keeps them all, `E = 0`
included. -/
def Obligations.HostStepsKeepTheBoundary : Prop :=
  ∀ s t : State, s.Boundary → (∀ r ∈ s.requests, r.port = .host) → step s = .next t →
    t.Boundary ∧ ∀ r ∈ t.requests, r.port = .host

/-- Every step keeps the display memories in canonical form. -/
def Obligations.EveryStepKeepsTheMemoryForm : Prop :=
  ∀ s t : State, s.MemoryCanonical → step s = .next t → t.MemoryCanonical

/-- The handshake's guarantee on the transfer trace (20 R62, 70 R222): no step adds a write to the trace but directly
after a ready status sample, so between two writes of the trace there is one, the last before the later write. The
trace holds the block's own samples and write phases, frames included (log 15); an Enable pulse made by hand with
SET_CTL requests on the inner port adds no entry, and nothing is said of it (log 11). -/
def Obligations.EveryWriteFollowsAReadySample : Prop :=
  ∀ s t : State, Handshaken s.transfers → step s = .next t → Handshaken t.transfers

/-- The waveform tells the pins (00 R8a, 40 R105): whatever an operation does to the pin record is what the entries it
adds to the waveform do. -/
def Obligations.TheWaveformTellsThePins : Prop :=
  ∀ (i : Instr) (s t : State), exec i s = .next t →
    ∃ w, t.waveform = s.waveform ++ w ∧ replay s.pins w = t.pins

/-- No contention and a stable byte (70 R226, 42 R137): in every host operation nothing moves while Enable is high but
the tick, the read and Enable itself, and the block never drives the bus then with Read asserted. -/
def Obligations.EnablePulsesAreClean : Prop :=
  ∀ (i : Instr) (s t : State), i.exposed = true → s.pins.e = false → exec i s = .next t →
    ∃ w, t.waveform = s.waveform ++ w ∧ EnableClean s.pins w ∧ t.pins.e = false

/-- Termination and no hidden refusal (70 R233, 40 R106): once the lines are configured every host operation completes,
whatever the display answers. -/
def Obligations.HostOperationsComplete : Prop :=
  ∀ (i : Instr) (s : State), i.exposed = true → s.pins.LinesDriven → s.cfg.debugAssert = false →
    ∃ t, exec i s = .next t

/-- The display reaches the block only through its answers (00 R7c, D28): the display record changes no outcome. -/
def Obligations.TheDisplayRecordNeverInterferes : Prop :=
  ∀ (i : Instr) (s : State) (d d' : Display),
    mapNext (fun t => t.setDisplay d') (exec i (s.setDisplay d)) = mapNext (fun t => t.setDisplay d') (exec i s)

/-! ## The display record (95 part 2, a fixture and no rule: log 13) -/

/-- A data write to a supplied display stores its byte at the display's address and nowhere else, in the memory the
address counter stands in (20 R54; the fixture of 95 part 2, log 13). -/
def Obligations.DataWriteStoresOneByte : Prop :=
  ∀ (b : Byte) (s : State) (j : Nat), s.pins.LinesDriven → s.pins.supplied = true → s.ReadyOn j →
    ∃ t, exec (.writeData b) s = .next t ∧ t.display.address = s.display.address + 1#7
      ∧ t.display.target = s.display.target ∧ t.display.table = s.display.table
      ∧ (s.display.target = .ddram →
          t.display.ddram.read s.display.storeAddress = some b ∧ t.display.cgram = s.display.cgram
          ∧ ∀ a, a ≠ s.display.storeAddress → t.display.ddram.read a = s.display.ddram.read a)
      ∧ (s.display.target = .cgram →
          t.display.cgram.read s.display.storeAddress = some b ∧ t.display.ddram = s.display.ddram
          ∧ ∀ a, a ≠ s.display.storeAddress → t.display.cgram.read a = s.display.cgram.read a)

/-- What the address, table and clear commands do to a supplied display, under the default bytes (30 R81 to R86, GK8;
the fixture of 95 part 2, log 13): LCD_SET_DDRAM and LCD_SET_CGRAM (in table 0) place the counter and store nothing,
the function sets select the table, LCD_CLEAR fills DDRAM with 0x20 and homes the counter. -/
def Obligations.DisplayCommandsPlaceTheCounter : Prop :=
  ∀ (s : State) (j : Nat), s.pins.LinesDriven → s.pins.supplied = true → s.ReadyOn j → UsesDefaultCommands s.cfg →
    (∀ a, ∃ t, exec (.lcdSetDdram a) s = .next t ∧ t.display = { s.display with address := a, target := .ddram })
    ∧ (s.display.table = .zero → ∀ a, ∃ t, exec (.lcdSetCgram a) s = .next t
        ∧ t.display = { s.display with address := a.setWidth 7, target := .cgram })
    ∧ (∃ t, exec .lcdFuncsetIs1 s = .next t ∧ t.display = { s.display with table := .one })
    ∧ (∃ t, exec .lcdFuncsetIs0 s = .next t ∧ t.display = { s.display with table := .zero })
    ∧ (∃ t, exec .lcdDisplayOn s = .next t ∧ t.display = { s.display with on := true })
    ∧ (∃ t, exec .lcdEntryInc s = .next t ∧ t.display = s.display)
    ∧ ∃ t, exec .lcdClear s = .next t ∧ t.display.address = 0#7 ∧ t.display.target = .ddram
        ∧ t.display.cgram = s.display.cgram
        ∧ ∀ a, t.display.ddram.read a = if a < 128 then some 0x20#8 else none

/-- The fixture after POWER_ON with a ready display and the default bytes (95 P1, log 13): base table, display on, the
counter at DDRAM 0, every DDRAM byte a space, every glyph row in its place. -/
def Obligations.PowerOnInitialisesTheFixture : Prop :=
  ∀ s : State, 1 ≤ s.cfg.pollBound → s.ReadyFor 81 → UsesDefaultCommands s.cfg →
    ∃ t, exec .powerOn s = .next t ∧ t.display.table = .zero ∧ t.display.on = true ∧ t.display.address = 0#7
      ∧ t.display.target = .ddram ∧ (∀ a, a < 128 → t.display.ddram.read a = some 0x20#8)
      ∧ ∀ slot row : Fin 8, t.display.cgram.read (8 * slot.val + row.val) = some (glyphRow s.cfg slot row)

/-- The fixture after WRITELINE with a ready, supplied display and the default bytes (95 P2, log 13): the 16 columns of
the line hold the formatted text, every other DDRAM byte and all of CGRAM are as before. -/
def Obligations.WriteLineFillsItsLine : Prop :=
  ∀ (n : Nat) (text : List Byte) (s : State), s.powered = true → s.pins.LinesDriven → s.pins.supplied = true →
    1 ≤ s.cfg.pollBound → n = 1 ∨ n = 2 → s.ReadyFor 17 → UsesDefaultCommands s.cfg →
    ∃ t, exec (.writeLine n text) s = .next t
      ∧ (∀ k, k < 16 → t.display.ddram.read ((n - 1) * 0x40 + k) = (formatLine s.cfg text)[k]?)
      ∧ (∀ a, (a < (n - 1) * 0x40 ∨ (n - 1) * 0x40 + 16 ≤ a) → t.display.ddram.read a = s.display.ddram.read a)
      ∧ t.display.cgram = s.display.cgram
end

