-- ==== Sys2Proof/Laws/Memory.lean ====
section
/-! SUPPORT. The laws of the display memories: a read after a write, and that every operation keeps the canonical form. -/

namespace Sys2Proof.Machine

theorem Memory.read_write_same (m : Memory) (a : Nat) (v : Byte) : (m.write a v).read a = some v := by
  induction m with
  | nil => simp [Memory.write, Memory.read]
  | cons c rest ih =>
    obtain ⟨k, w⟩ := c
    simp only [Memory.write]
    split
    · simp [Memory.read]
    · split
      · simp [Memory.read]
      · next h => simp [Memory.read, ih, Ne.symm h]

theorem Memory.read_write_other (m : Memory) (a b : Nat) (v : Byte) (h : b ≠ a) :
    (m.write a v).read b = m.read b := by
  induction m with
  | nil => simp [Memory.write, Memory.read, h.symm]
  | cons c rest ih =>
    obtain ⟨k, w⟩ := c
    simp only [Memory.write]
    split
    · simp [Memory.read, h.symm]
    · split
      · next e => subst e; simp [Memory.read, h.symm]
      · simp [Memory.read, ih]

theorem Memory.mem_write (m : Memory) (a : Nat) (v : Byte) (c : Host.Cell) (h : c ∈ m.write a v) :
    c = (a, v) ∨ c ∈ m := by
  induction m with
  | nil => simpa [Memory.write] using h
  | cons d rest ih =>
    obtain ⟨k, w⟩ := d
    simp only [Memory.write] at h
    split at h
    · simpa using h
    · split at h
      · simp only [List.mem_cons] at h ⊢; tauto
      · simp only [List.mem_cons] at h ⊢
        rcases h with h | h
        · exact Or.inr (Or.inl h)
        · rcases ih h with h | h <;> tauto

theorem Memory.write_wf (n : Nat) (m : Memory) (a : Nat) (v : Byte) (hm : m.wf n) (ha : a < n) :
    (m.write a v).wf n := by
  refine ⟨?_, fun c hc => ?_⟩
  · have hp := hm.1
    clear hm
    induction m with
    | nil => simp [Memory.write]
    | cons d rest ih =>
      obtain ⟨k, w⟩ := d
      have ⟨h1, h2⟩ := List.pairwise_cons.1 hp
      simp only [Memory.write]
      split
      · next hlt =>
        refine List.pairwise_cons.2 ⟨fun c hc => ?_, hp⟩
        rcases List.mem_cons.1 hc with rfl | hc
        · exact hlt
        · exact Nat.lt_trans hlt (h1 c hc)
      · split
        · next e => subst e; exact List.pairwise_cons.2 ⟨h1, h2⟩
        · next hlt hne =>
          refine List.pairwise_cons.2 ⟨fun c hc => ?_, ih h2⟩
          rcases Memory.mem_write rest a v c hc with rfl | hc
          · simp only; omega
          · exact h1 c hc
  · rcases Memory.mem_write m a v c hc with rfl | hc
    · exact ha
    · exact hm.2 c hc

theorem Memory.nil_wf (n : Nat) : Memory.wf n [] := ⟨List.Pairwise.nil, fun _ h => nomatch h⟩

theorem Memory.fill_wf (n : Nat) (v : Byte) : (Memory.fill n v).wf n := by
  refine ⟨?_, fun c hc => ?_⟩
  · simpa [Memory.fill, List.pairwise_map] using List.pairwise_lt_range
  · obtain ⟨a, ha, rfl⟩ := List.mem_map.1 hc
    exact List.mem_range.1 ha

theorem Memory.read_map (l : List Nat) (v : Byte) (a : Nat) :
    Memory.read (l.map (fun k => (k, v))) a = if a ∈ l then some v else none := by
  induction l with
  | nil => simp [Memory.read]
  | cons k l ih =>
    by_cases h : k = a
    · subst h; simp [Memory.read]
    · simp [Memory.read, ih, h, Ne.symm h]

/-- Every address of a filled memory reads the filling byte, no other address reads anything. -/
theorem Memory.read_fill (n : Nat) (v : Byte) (a : Nat) :
    (Memory.fill n v).read a = if a < n then some v else none := by
  simp [Memory.fill, Memory.read_map]

/-! ## The fixture keeps the form -/

theorem Display.unknown_wf (n : Nat) : (Display.unknown n).ddram.wf ddramSize ∧ (Display.unknown n).cgram.wf cgramSize :=
  ⟨Memory.nil_wf _, Memory.nil_wf _⟩

theorem Display.storeAddress_ddram (d : Display) (h : d.target = .ddram) : d.storeAddress < ddramSize := by
  simp only [Display.storeAddress, h, ddramSize]; omega

theorem Display.storeAddress_cgram (d : Display) (h : d.target = .cgram) : d.storeAddress < cgramSize := by
  simp only [Display.storeAddress, h, cgramSize]
  have : d.address.toNat &&& 63 ≤ 63 := Nat.and_le_right
  simp; omega

theorem Display.latch_wf (d : Display) (supplied rs : Bool) (b : Byte)
    (h : d.ddram.wf ddramSize ∧ d.cgram.wf cgramSize) :
    (d.latch supplied rs b).ddram.wf ddramSize ∧ (d.latch supplied rs b).cgram.wf cgramSize := by
  unfold Display.latch
  split
  · split
    · unfold Display.data
      cases ht : d.target with
      | ddram => exact ⟨Memory.write_wf _ _ _ _ h.1 (d.storeAddress_ddram ht), h.2⟩
      | cgram => exact ⟨h.1, Memory.write_wf _ _ _ _ h.2 (d.storeAddress_cgram ht)⟩
    · unfold Display.command
      repeat' split
      all_goals first
        | exact h
        | exact Display.unknown_wf _
        | exact ⟨Memory.fill_wf _ _, h.2⟩
  · exact Display.unknown_wf _

end Sys2Proof.Machine
end

