-- ==== Sys2Proof/Laws/State.lean ====
section
/-! SUPPORT. What each single-field update does to each field of the state: one lemma per field per update. -/

namespace Sys2Proof.Machine

/-! ## `setPins` -/

@[simp] theorem State.setPins_pins (s : State) (p : Pins) : (s.setPins p).pins = p := rfl
@[simp] theorem State.setPins_status (s : State) (p : Pins) : (s.setPins p).status = s.status := rfl
@[simp] theorem State.setPins_seq (s : State) (p : Pins) : (s.setPins p).seq = s.seq := rfl
@[simp] theorem State.setPins_powered (s : State) (p : Pins) : (s.setPins p).powered = s.powered := rfl
@[simp] theorem State.setPins_pollCnt (s : State) (p : Pins) : (s.setPins p).pollCnt = s.pollCnt := rfl
@[simp] theorem State.setPins_step (s : State) (p : Pins) : (s.setPins p).step = s.step := rfl
@[simp] theorem State.setPins_slot (s : State) (p : Pins) : (s.setPins p).slot = s.slot := rfl
@[simp] theorem State.setPins_row (s : State) (p : Pins) : (s.setPins p).row = s.row := rfl
@[simp] theorem State.setPins_cfg (s : State) (p : Pins) : (s.setPins p).cfg = s.cfg := rfl
@[simp] theorem State.setPins_requests (s : State) (p : Pins) : (s.setPins p).requests = s.requests := rfl
@[simp] theorem State.setPins_answers (s : State) (p : Pins) : (s.setPins p).answers = s.answers := rfl
@[simp] theorem State.setPins_reads (s : State) (p : Pins) : (s.setPins p).reads = s.reads := rfl
@[simp] theorem State.setPins_waveform (s : State) (p : Pins) : (s.setPins p).waveform = s.waveform := rfl
@[simp] theorem State.setPins_transfers (s : State) (p : Pins) : (s.setPins p).transfers = s.transfers := rfl
@[simp] theorem State.setPins_conditions (s : State) (p : Pins) : (s.setPins p).conditions = s.conditions := rfl
@[simp] theorem State.setPins_display (s : State) (p : Pins) : (s.setPins p).display = s.display := rfl

/-! ## `setStatus` -/

@[simp] theorem State.setStatus_pins (s : State) (v : Byte) : (s.setStatus v).pins = s.pins := rfl
@[simp] theorem State.setStatus_status (s : State) (v : Byte) : (s.setStatus v).status = v := rfl
@[simp] theorem State.setStatus_seq (s : State) (v : Byte) : (s.setStatus v).seq = s.seq := rfl
@[simp] theorem State.setStatus_powered (s : State) (v : Byte) : (s.setStatus v).powered = s.powered := rfl
@[simp] theorem State.setStatus_pollCnt (s : State) (v : Byte) : (s.setStatus v).pollCnt = s.pollCnt := rfl
@[simp] theorem State.setStatus_step (s : State) (v : Byte) : (s.setStatus v).step = s.step := rfl
@[simp] theorem State.setStatus_slot (s : State) (v : Byte) : (s.setStatus v).slot = s.slot := rfl
@[simp] theorem State.setStatus_row (s : State) (v : Byte) : (s.setStatus v).row = s.row := rfl
@[simp] theorem State.setStatus_cfg (s : State) (v : Byte) : (s.setStatus v).cfg = s.cfg := rfl
@[simp] theorem State.setStatus_requests (s : State) (v : Byte) : (s.setStatus v).requests = s.requests := rfl
@[simp] theorem State.setStatus_answers (s : State) (v : Byte) : (s.setStatus v).answers = s.answers := rfl
@[simp] theorem State.setStatus_reads (s : State) (v : Byte) : (s.setStatus v).reads = s.reads := rfl
@[simp] theorem State.setStatus_waveform (s : State) (v : Byte) : (s.setStatus v).waveform = s.waveform := rfl
@[simp] theorem State.setStatus_transfers (s : State) (v : Byte) : (s.setStatus v).transfers = s.transfers := rfl
@[simp] theorem State.setStatus_conditions (s : State) (v : Byte) : (s.setStatus v).conditions = s.conditions := rfl
@[simp] theorem State.setStatus_display (s : State) (v : Byte) : (s.setStatus v).display = s.display := rfl

/-! ## `setSeq` -/

@[simp] theorem State.setSeq_pins (s : State) (q : Seq) : (s.setSeq q).pins = s.pins := rfl
@[simp] theorem State.setSeq_status (s : State) (q : Seq) : (s.setSeq q).status = s.status := rfl
@[simp] theorem State.setSeq_seq (s : State) (q : Seq) : (s.setSeq q).seq = q := rfl
@[simp] theorem State.setSeq_powered (s : State) (q : Seq) : (s.setSeq q).powered = s.powered := rfl
@[simp] theorem State.setSeq_pollCnt (s : State) (q : Seq) : (s.setSeq q).pollCnt = s.pollCnt := rfl
@[simp] theorem State.setSeq_step (s : State) (q : Seq) : (s.setSeq q).step = s.step := rfl
@[simp] theorem State.setSeq_slot (s : State) (q : Seq) : (s.setSeq q).slot = s.slot := rfl
@[simp] theorem State.setSeq_row (s : State) (q : Seq) : (s.setSeq q).row = s.row := rfl
@[simp] theorem State.setSeq_cfg (s : State) (q : Seq) : (s.setSeq q).cfg = s.cfg := rfl
@[simp] theorem State.setSeq_requests (s : State) (q : Seq) : (s.setSeq q).requests = s.requests := rfl
@[simp] theorem State.setSeq_answers (s : State) (q : Seq) : (s.setSeq q).answers = s.answers := rfl
@[simp] theorem State.setSeq_reads (s : State) (q : Seq) : (s.setSeq q).reads = s.reads := rfl
@[simp] theorem State.setSeq_waveform (s : State) (q : Seq) : (s.setSeq q).waveform = s.waveform := rfl
@[simp] theorem State.setSeq_transfers (s : State) (q : Seq) : (s.setSeq q).transfers = s.transfers := rfl
@[simp] theorem State.setSeq_conditions (s : State) (q : Seq) : (s.setSeq q).conditions = s.conditions := rfl
@[simp] theorem State.setSeq_display (s : State) (q : Seq) : (s.setSeq q).display = s.display := rfl

/-! ## `setPowered` -/

@[simp] theorem State.setPowered_pins (s : State) (b : Bool) : (s.setPowered b).pins = s.pins := rfl
@[simp] theorem State.setPowered_status (s : State) (b : Bool) : (s.setPowered b).status = s.status := rfl
@[simp] theorem State.setPowered_seq (s : State) (b : Bool) : (s.setPowered b).seq = s.seq := rfl
@[simp] theorem State.setPowered_powered (s : State) (b : Bool) : (s.setPowered b).powered = b := rfl
@[simp] theorem State.setPowered_pollCnt (s : State) (b : Bool) : (s.setPowered b).pollCnt = s.pollCnt := rfl
@[simp] theorem State.setPowered_step (s : State) (b : Bool) : (s.setPowered b).step = s.step := rfl
@[simp] theorem State.setPowered_slot (s : State) (b : Bool) : (s.setPowered b).slot = s.slot := rfl
@[simp] theorem State.setPowered_row (s : State) (b : Bool) : (s.setPowered b).row = s.row := rfl
@[simp] theorem State.setPowered_cfg (s : State) (b : Bool) : (s.setPowered b).cfg = s.cfg := rfl
@[simp] theorem State.setPowered_requests (s : State) (b : Bool) : (s.setPowered b).requests = s.requests := rfl
@[simp] theorem State.setPowered_answers (s : State) (b : Bool) : (s.setPowered b).answers = s.answers := rfl
@[simp] theorem State.setPowered_reads (s : State) (b : Bool) : (s.setPowered b).reads = s.reads := rfl
@[simp] theorem State.setPowered_waveform (s : State) (b : Bool) : (s.setPowered b).waveform = s.waveform := rfl
@[simp] theorem State.setPowered_transfers (s : State) (b : Bool) : (s.setPowered b).transfers = s.transfers := rfl
@[simp] theorem State.setPowered_conditions (s : State) (b : Bool) : (s.setPowered b).conditions = s.conditions := rfl
@[simp] theorem State.setPowered_display (s : State) (b : Bool) : (s.setPowered b).display = s.display := rfl

/-! ## `setPollCnt` -/

@[simp] theorem State.setPollCnt_pins (s : State) (n : Nat) : (s.setPollCnt n).pins = s.pins := rfl
@[simp] theorem State.setPollCnt_status (s : State) (n : Nat) : (s.setPollCnt n).status = s.status := rfl
@[simp] theorem State.setPollCnt_seq (s : State) (n : Nat) : (s.setPollCnt n).seq = s.seq := rfl
@[simp] theorem State.setPollCnt_powered (s : State) (n : Nat) : (s.setPollCnt n).powered = s.powered := rfl
@[simp] theorem State.setPollCnt_pollCnt (s : State) (n : Nat) : (s.setPollCnt n).pollCnt = n := rfl
@[simp] theorem State.setPollCnt_step (s : State) (n : Nat) : (s.setPollCnt n).step = s.step := rfl
@[simp] theorem State.setPollCnt_slot (s : State) (n : Nat) : (s.setPollCnt n).slot = s.slot := rfl
@[simp] theorem State.setPollCnt_row (s : State) (n : Nat) : (s.setPollCnt n).row = s.row := rfl
@[simp] theorem State.setPollCnt_cfg (s : State) (n : Nat) : (s.setPollCnt n).cfg = s.cfg := rfl
@[simp] theorem State.setPollCnt_requests (s : State) (n : Nat) : (s.setPollCnt n).requests = s.requests := rfl
@[simp] theorem State.setPollCnt_answers (s : State) (n : Nat) : (s.setPollCnt n).answers = s.answers := rfl
@[simp] theorem State.setPollCnt_reads (s : State) (n : Nat) : (s.setPollCnt n).reads = s.reads := rfl
@[simp] theorem State.setPollCnt_waveform (s : State) (n : Nat) : (s.setPollCnt n).waveform = s.waveform := rfl
@[simp] theorem State.setPollCnt_transfers (s : State) (n : Nat) : (s.setPollCnt n).transfers = s.transfers := rfl
@[simp] theorem State.setPollCnt_conditions (s : State) (n : Nat) : (s.setPollCnt n).conditions = s.conditions := rfl
@[simp] theorem State.setPollCnt_display (s : State) (n : Nat) : (s.setPollCnt n).display = s.display := rfl

/-! ## `setInitIndex` -/

@[simp] theorem State.setInitIndex_pins (s : State) (k : Nat) (e : InitEntry) : (s.setInitIndex k e).pins = s.pins := rfl
@[simp] theorem State.setInitIndex_status (s : State) (k : Nat) (e : InitEntry) : (s.setInitIndex k e).status = s.status := rfl
@[simp] theorem State.setInitIndex_seq (s : State) (k : Nat) (e : InitEntry) : (s.setInitIndex k e).seq = s.seq := rfl
@[simp] theorem State.setInitIndex_powered (s : State) (k : Nat) (e : InitEntry) : (s.setInitIndex k e).powered = s.powered := rfl
@[simp] theorem State.setInitIndex_pollCnt (s : State) (k : Nat) (e : InitEntry) : (s.setInitIndex k e).pollCnt = s.pollCnt := rfl
@[simp] theorem State.setInitIndex_step (s : State) (k : Nat) (e : InitEntry) : (s.setInitIndex k e).step = k := rfl
@[simp] theorem State.setInitIndex_cfg (s : State) (k : Nat) (e : InitEntry) : (s.setInitIndex k e).cfg = s.cfg := rfl
@[simp] theorem State.setInitIndex_requests (s : State) (k : Nat) (e : InitEntry) : (s.setInitIndex k e).requests = s.requests := rfl
@[simp] theorem State.setInitIndex_answers (s : State) (k : Nat) (e : InitEntry) : (s.setInitIndex k e).answers = s.answers := rfl
@[simp] theorem State.setInitIndex_reads (s : State) (k : Nat) (e : InitEntry) : (s.setInitIndex k e).reads = s.reads := rfl
@[simp] theorem State.setInitIndex_waveform (s : State) (k : Nat) (e : InitEntry) : (s.setInitIndex k e).waveform = s.waveform := rfl
@[simp] theorem State.setInitIndex_transfers (s : State) (k : Nat) (e : InitEntry) : (s.setInitIndex k e).transfers = s.transfers := rfl
@[simp] theorem State.setInitIndex_conditions (s : State) (k : Nat) (e : InitEntry) : (s.setInitIndex k e).conditions = s.conditions := rfl
@[simp] theorem State.setInitIndex_display (s : State) (k : Nat) (e : InitEntry) : (s.setInitIndex k e).display = s.display := rfl

/-! ## `setRequests` -/

@[simp] theorem State.setRequests_pins (s : State) (rs : List Request) : (s.setRequests rs).pins = s.pins := rfl
@[simp] theorem State.setRequests_status (s : State) (rs : List Request) : (s.setRequests rs).status = s.status := rfl
@[simp] theorem State.setRequests_seq (s : State) (rs : List Request) : (s.setRequests rs).seq = s.seq := rfl
@[simp] theorem State.setRequests_powered (s : State) (rs : List Request) : (s.setRequests rs).powered = s.powered := rfl
@[simp] theorem State.setRequests_pollCnt (s : State) (rs : List Request) : (s.setRequests rs).pollCnt = s.pollCnt := rfl
@[simp] theorem State.setRequests_step (s : State) (rs : List Request) : (s.setRequests rs).step = s.step := rfl
@[simp] theorem State.setRequests_slot (s : State) (rs : List Request) : (s.setRequests rs).slot = s.slot := rfl
@[simp] theorem State.setRequests_row (s : State) (rs : List Request) : (s.setRequests rs).row = s.row := rfl
@[simp] theorem State.setRequests_cfg (s : State) (rs : List Request) : (s.setRequests rs).cfg = s.cfg := rfl
@[simp] theorem State.setRequests_requests (s : State) (rs : List Request) : (s.setRequests rs).requests = rs := rfl
@[simp] theorem State.setRequests_answers (s : State) (rs : List Request) : (s.setRequests rs).answers = s.answers := rfl
@[simp] theorem State.setRequests_reads (s : State) (rs : List Request) : (s.setRequests rs).reads = s.reads := rfl
@[simp] theorem State.setRequests_waveform (s : State) (rs : List Request) : (s.setRequests rs).waveform = s.waveform := rfl
@[simp] theorem State.setRequests_transfers (s : State) (rs : List Request) : (s.setRequests rs).transfers = s.transfers := rfl
@[simp] theorem State.setRequests_conditions (s : State) (rs : List Request) : (s.setRequests rs).conditions = s.conditions := rfl
@[simp] theorem State.setRequests_display (s : State) (rs : List Request) : (s.setRequests rs).display = s.display := rfl

/-! ## `setDisplay` -/

@[simp] theorem State.setDisplay_pins (s : State) (d : Display) : (s.setDisplay d).pins = s.pins := rfl
@[simp] theorem State.setDisplay_status (s : State) (d : Display) : (s.setDisplay d).status = s.status := rfl
@[simp] theorem State.setDisplay_seq (s : State) (d : Display) : (s.setDisplay d).seq = s.seq := rfl
@[simp] theorem State.setDisplay_powered (s : State) (d : Display) : (s.setDisplay d).powered = s.powered := rfl
@[simp] theorem State.setDisplay_pollCnt (s : State) (d : Display) : (s.setDisplay d).pollCnt = s.pollCnt := rfl
@[simp] theorem State.setDisplay_step (s : State) (d : Display) : (s.setDisplay d).step = s.step := rfl
@[simp] theorem State.setDisplay_slot (s : State) (d : Display) : (s.setDisplay d).slot = s.slot := rfl
@[simp] theorem State.setDisplay_row (s : State) (d : Display) : (s.setDisplay d).row = s.row := rfl
@[simp] theorem State.setDisplay_cfg (s : State) (d : Display) : (s.setDisplay d).cfg = s.cfg := rfl
@[simp] theorem State.setDisplay_requests (s : State) (d : Display) : (s.setDisplay d).requests = s.requests := rfl
@[simp] theorem State.setDisplay_answers (s : State) (d : Display) : (s.setDisplay d).answers = s.answers := rfl
@[simp] theorem State.setDisplay_reads (s : State) (d : Display) : (s.setDisplay d).reads = s.reads := rfl
@[simp] theorem State.setDisplay_waveform (s : State) (d : Display) : (s.setDisplay d).waveform = s.waveform := rfl
@[simp] theorem State.setDisplay_transfers (s : State) (d : Display) : (s.setDisplay d).transfers = s.transfers := rfl
@[simp] theorem State.setDisplay_conditions (s : State) (d : Display) : (s.setDisplay d).conditions = s.conditions := rfl
@[simp] theorem State.setDisplay_display (s : State) (d : Display) : (s.setDisplay d).display = d := rfl

/-! ## `observe` -/

@[simp] theorem State.observe_pins (s : State) (ev : PinEvent) : (s.observe ev).pins = s.pins := rfl
@[simp] theorem State.observe_status (s : State) (ev : PinEvent) : (s.observe ev).status = s.status := rfl
@[simp] theorem State.observe_seq (s : State) (ev : PinEvent) : (s.observe ev).seq = s.seq := rfl
@[simp] theorem State.observe_powered (s : State) (ev : PinEvent) : (s.observe ev).powered = s.powered := rfl
@[simp] theorem State.observe_pollCnt (s : State) (ev : PinEvent) : (s.observe ev).pollCnt = s.pollCnt := rfl
@[simp] theorem State.observe_step (s : State) (ev : PinEvent) : (s.observe ev).step = s.step := rfl
@[simp] theorem State.observe_slot (s : State) (ev : PinEvent) : (s.observe ev).slot = s.slot := rfl
@[simp] theorem State.observe_row (s : State) (ev : PinEvent) : (s.observe ev).row = s.row := rfl
@[simp] theorem State.observe_cfg (s : State) (ev : PinEvent) : (s.observe ev).cfg = s.cfg := rfl
@[simp] theorem State.observe_requests (s : State) (ev : PinEvent) : (s.observe ev).requests = s.requests := rfl
@[simp] theorem State.observe_answers (s : State) (ev : PinEvent) : (s.observe ev).answers = s.answers := rfl
@[simp] theorem State.observe_reads (s : State) (ev : PinEvent) : (s.observe ev).reads = s.reads := rfl
@[simp] theorem State.observe_waveform (s : State) (ev : PinEvent) : (s.observe ev).waveform = s.waveform ++ [ev] := rfl
@[simp] theorem State.observe_transfers (s : State) (ev : PinEvent) : (s.observe ev).transfers = s.transfers := rfl
@[simp] theorem State.observe_conditions (s : State) (ev : PinEvent) : (s.observe ev).conditions = s.conditions := rfl
@[simp] theorem State.observe_display (s : State) (ev : PinEvent) : (s.observe ev).display = s.display := rfl

/-! ## `logTransfer` -/

@[simp] theorem State.logTransfer_pins (s : State) (t : Transfer) : (s.logTransfer t).pins = s.pins := rfl
@[simp] theorem State.logTransfer_status (s : State) (t : Transfer) : (s.logTransfer t).status = s.status := rfl
@[simp] theorem State.logTransfer_seq (s : State) (t : Transfer) : (s.logTransfer t).seq = s.seq := rfl
@[simp] theorem State.logTransfer_powered (s : State) (t : Transfer) : (s.logTransfer t).powered = s.powered := rfl
@[simp] theorem State.logTransfer_pollCnt (s : State) (t : Transfer) : (s.logTransfer t).pollCnt = s.pollCnt := rfl
@[simp] theorem State.logTransfer_step (s : State) (t : Transfer) : (s.logTransfer t).step = s.step := rfl
@[simp] theorem State.logTransfer_slot (s : State) (t : Transfer) : (s.logTransfer t).slot = s.slot := rfl
@[simp] theorem State.logTransfer_row (s : State) (t : Transfer) : (s.logTransfer t).row = s.row := rfl
@[simp] theorem State.logTransfer_cfg (s : State) (t : Transfer) : (s.logTransfer t).cfg = s.cfg := rfl
@[simp] theorem State.logTransfer_requests (s : State) (t : Transfer) : (s.logTransfer t).requests = s.requests := rfl
@[simp] theorem State.logTransfer_answers (s : State) (t : Transfer) : (s.logTransfer t).answers = s.answers := rfl
@[simp] theorem State.logTransfer_reads (s : State) (t : Transfer) : (s.logTransfer t).reads = s.reads := rfl
@[simp] theorem State.logTransfer_waveform (s : State) (t : Transfer) : (s.logTransfer t).waveform = s.waveform := rfl
@[simp] theorem State.logTransfer_transfers (s : State) (t : Transfer) : (s.logTransfer t).transfers = s.transfers ++ [t] := rfl
@[simp] theorem State.logTransfer_conditions (s : State) (t : Transfer) : (s.logTransfer t).conditions = s.conditions := rfl
@[simp] theorem State.logTransfer_display (s : State) (t : Transfer) : (s.logTransfer t).display = s.display := rfl

/-! ## `raise` -/

@[simp] theorem State.raise_pins (s : State) (c : Condition) : (s.raise c).pins = s.pins := rfl
@[simp] theorem State.raise_status (s : State) (c : Condition) : (s.raise c).status = s.status := rfl
@[simp] theorem State.raise_seq (s : State) (c : Condition) : (s.raise c).seq = s.seq := rfl
@[simp] theorem State.raise_powered (s : State) (c : Condition) : (s.raise c).powered = s.powered := rfl
@[simp] theorem State.raise_pollCnt (s : State) (c : Condition) : (s.raise c).pollCnt = s.pollCnt := rfl
@[simp] theorem State.raise_step (s : State) (c : Condition) : (s.raise c).step = s.step := rfl
@[simp] theorem State.raise_slot (s : State) (c : Condition) : (s.raise c).slot = s.slot := rfl
@[simp] theorem State.raise_row (s : State) (c : Condition) : (s.raise c).row = s.row := rfl
@[simp] theorem State.raise_cfg (s : State) (c : Condition) : (s.raise c).cfg = s.cfg := rfl
@[simp] theorem State.raise_requests (s : State) (c : Condition) : (s.raise c).requests = s.requests := rfl
@[simp] theorem State.raise_answers (s : State) (c : Condition) : (s.raise c).answers = s.answers := rfl
@[simp] theorem State.raise_reads (s : State) (c : Condition) : (s.raise c).reads = s.reads := rfl
@[simp] theorem State.raise_waveform (s : State) (c : Condition) : (s.raise c).waveform = s.waveform := rfl
@[simp] theorem State.raise_transfers (s : State) (c : Condition) : (s.raise c).transfers = s.transfers := rfl
@[simp] theorem State.raise_conditions (s : State) (c : Condition) : (s.raise c).conditions = s.conditions ++ [c] := rfl
@[simp] theorem State.raise_display (s : State) (c : Condition) : (s.raise c).display = s.display := rfl

/-! ## `drive`: the pins move, the waveform may grow, nothing else changes -/

@[simp] theorem State.drive_status (s : State) (ev : PinEvent) : (s.drive ev).status = s.status := by
  unfold State.drive; split <;> rfl
@[simp] theorem State.drive_seq (s : State) (ev : PinEvent) : (s.drive ev).seq = s.seq := by
  unfold State.drive; split <;> rfl
@[simp] theorem State.drive_powered (s : State) (ev : PinEvent) : (s.drive ev).powered = s.powered := by
  unfold State.drive; split <;> rfl
@[simp] theorem State.drive_pollCnt (s : State) (ev : PinEvent) : (s.drive ev).pollCnt = s.pollCnt := by
  unfold State.drive; split <;> rfl
@[simp] theorem State.drive_step (s : State) (ev : PinEvent) : (s.drive ev).step = s.step := by
  unfold State.drive; split <;> rfl
@[simp] theorem State.drive_slot (s : State) (ev : PinEvent) : (s.drive ev).slot = s.slot := by
  unfold State.drive; split <;> rfl
@[simp] theorem State.drive_row (s : State) (ev : PinEvent) : (s.drive ev).row = s.row := by
  unfold State.drive; split <;> rfl
@[simp] theorem State.drive_cfg (s : State) (ev : PinEvent) : (s.drive ev).cfg = s.cfg := by
  unfold State.drive; split <;> rfl
@[simp] theorem State.drive_requests (s : State) (ev : PinEvent) : (s.drive ev).requests = s.requests := by
  unfold State.drive; split <;> rfl
@[simp] theorem State.drive_answers (s : State) (ev : PinEvent) : (s.drive ev).answers = s.answers := by
  unfold State.drive; split <;> rfl
@[simp] theorem State.drive_reads (s : State) (ev : PinEvent) : (s.drive ev).reads = s.reads := by
  unfold State.drive; split <;> rfl
@[simp] theorem State.drive_transfers (s : State) (ev : PinEvent) : (s.drive ev).transfers = s.transfers := by
  unfold State.drive; split <;> rfl
@[simp] theorem State.drive_conditions (s : State) (ev : PinEvent) : (s.drive ev).conditions = s.conditions := by
  unfold State.drive; split <;> rfl
@[simp] theorem State.drive_display (s : State) (ev : PinEvent) : (s.drive ev).display = s.display := by
  unfold State.drive; split <;> rfl

@[simp] theorem State.drive_pins (s : State) (ev : PinEvent) : (s.drive ev).pins = s.pins.after ev := by
  unfold State.drive; split
  · next h => exact h.symm
  · rfl

theorem State.drive_waveform (s : State) (ev : PinEvent) :
    (s.drive ev).waveform = s.waveform ++ (if s.pins.after ev = s.pins then [] else [ev]) := by
  unfold State.drive; split <;> simp

/-! ## `popAnswer`: the inputs advance by one bus read, nothing else changes -/

@[simp] theorem State.popAnswer_pins (s : State) : s.popAnswer.pins = s.pins := by
  unfold State.popAnswer; split <;> rfl
@[simp] theorem State.popAnswer_status (s : State) : s.popAnswer.status = s.status := by
  unfold State.popAnswer; split <;> rfl
@[simp] theorem State.popAnswer_seq (s : State) : s.popAnswer.seq = s.seq := by
  unfold State.popAnswer; split <;> rfl
@[simp] theorem State.popAnswer_powered (s : State) : s.popAnswer.powered = s.powered := by
  unfold State.popAnswer; split <;> rfl
@[simp] theorem State.popAnswer_pollCnt (s : State) : s.popAnswer.pollCnt = s.pollCnt := by
  unfold State.popAnswer; split <;> rfl
@[simp] theorem State.popAnswer_step (s : State) : s.popAnswer.step = s.step := by
  unfold State.popAnswer; split <;> rfl
@[simp] theorem State.popAnswer_slot (s : State) : s.popAnswer.slot = s.slot := by
  unfold State.popAnswer; split <;> rfl
@[simp] theorem State.popAnswer_row (s : State) : s.popAnswer.row = s.row := by
  unfold State.popAnswer; split <;> rfl
@[simp] theorem State.popAnswer_cfg (s : State) : s.popAnswer.cfg = s.cfg := by
  unfold State.popAnswer; split <;> rfl
@[simp] theorem State.popAnswer_requests (s : State) : s.popAnswer.requests = s.requests := by
  unfold State.popAnswer; split <;> rfl
@[simp] theorem State.popAnswer_waveform (s : State) : s.popAnswer.waveform = s.waveform := by
  unfold State.popAnswer; split <;> rfl
@[simp] theorem State.popAnswer_transfers (s : State) : s.popAnswer.transfers = s.transfers := by
  unfold State.popAnswer; split <;> rfl
@[simp] theorem State.popAnswer_conditions (s : State) : s.popAnswer.conditions = s.conditions := by
  unfold State.popAnswer; split <;> rfl
@[simp] theorem State.popAnswer_display (s : State) : s.popAnswer.display = s.display := by
  unfold State.popAnswer; split <;> rfl

end Sys2Proof.Machine
end

