-- ==== Sys2Proof/Laws/Ops.lean ====
section
/-! SUPPORT. One lemma per shared operation that says what it can do: the transport operations of L0, the collaborators,
the answers of the display, and the pin waveform. -/

namespace Sys2Proof.Machine

/-! ## The L0 operations by field -/

@[simp] theorem Pins.after_busDir (p : Pins) (d : Dir) : p.after (.busDir d) = { p with busDir := dirValue d } := rfl
@[simp] theorem Pins.after_bus (p : Pins) (b : Byte) : p.after (.bus b) = { p with busOut := b } := rfl
@[simp] theorem Pins.after_lineE (p : Pins) (l : Bool) : p.after (.line .e l) = { p with e := l } := rfl
@[simp] theorem Pins.after_lineRw (p : Pins) (l : Bool) : p.after (.line .rw l) = { p with rw := l } := rfl
@[simp] theorem Pins.after_lineRs (p : Pins) (l : Bool) : p.after (.line .rs l) = { p with rs := l } := rfl
@[simp] theorem Pins.after_cfgE (p : Pins) (l : Bool) : p.after (.cfg .e l) = { p with dirE := .output, e := l } := rfl
@[simp] theorem Pins.after_cfgRw (p : Pins) (l : Bool) : p.after (.cfg .rw l) = { p with dirRw := .output, rw := l } := rfl
@[simp] theorem Pins.after_cfgRs (p : Pins) (l : Bool) : p.after (.cfg .rs l) = { p with dirRs := .output, rs := l } := rfl
@[simp] theorem Pins.after_cfgPwr (p : Pins) (l : Bool) : p.after (.cfg .pwr l) = { p with dirPwr := .output, pwr := l } := rfl
@[simp] theorem Pins.after_tick (p : Pins) : p.after .tick = p := rfl
@[simp] theorem Pins.after_ms (p : Pins) (n : Nat) : p.after (.ms n) = p := rfl
@[simp] theorem Pins.after_read (p : Pins) (v : Byte) : p.after (.read v) = p := rfl
@[simp] theorem dirValue_input : dirValue .input = .input := rfl
@[simp] theorem dirValue_output : dirValue .output = .output := rfl

/-- A pin access whole: the record after the event, and the event on the waveform if the record changed (40 R105). -/
theorem State.drive_eq (s : State) (ev : PinEvent) : s.drive ev = { s with
    pins := s.pins.after ev
    waveform := s.waveform ++ (if s.pins.after ev = s.pins then [] else [ev]) } := by
  unfold State.drive
  split
  · next h => simp [h]
  · rfl

/-- A line access never touches a direction or the supply. -/
theorem Pins.after_line_dirs (p : Pins) (l : Line) (v : Bool) :
    (p.after (.line l v)).busDir = p.busDir ∧ (p.after (.line l v)).busOut = p.busOut ∧ (p.after (.line l v)).pwr = p.pwr
      ∧ (p.after (.line l v)).dirE = p.dirE ∧ (p.after (.line l v)).dirRw = p.dirRw
      ∧ (p.after (.line l v)).dirRs = p.dirRs ∧ (p.after (.line l v)).dirPwr = p.dirPwr := by
  cases l <;> simp

/-- `configPin` changes the pins, the waveform, and (for the supply) the display record. -/
theorem configPin_eq (pin : Pin) (lvl : Bool) (s : State) :
    configPin pin lvl s = (s.drive (.cfg pin lvl)).setDisplay
      (if (s.drive (.cfg pin lvl)).pins.supply = s.pins.supply then s.display else s.display.lost) := by
  unfold configPin
  dsimp only
  split
  · have h : (s.drive (.cfg pin lvl)).display = s.display := by simp
    conv_rhs => rw [← h]
    rfl
  · rfl

/-- `configPin` of a control line never touches the display. -/
theorem configPin_line (pin : Pin) (lvl : Bool) (s : State) (h : pin ≠ .pwr) :
    configPin pin lvl s = s.drive (.cfg pin lvl) := by
  unfold configPin
  cases pin <;> simp_all [Pins.supply]

/-- No line undriven is all three lines driven. -/
theorem Pins.undrivenLine_eq_none (p : Pins) : p.undrivenLine = none ↔ p.LinesDriven := by
  unfold Pins.undrivenLine
  rcases he : p.dirE <;> rcases hw : p.dirRw <;> rcases hr : p.dirRs <;> simp_all [Pins.LinesDriven]

/-- Where the lines are driven an operation that uses them goes on. -/
theorem whenLinesDriven_next (s t : State) (h : s.pins.LinesDriven) : whenLinesDriven s t = .next t := by
  unfold whenLinesDriven
  rw [(s.pins.undrivenLine_eq_none).2 h]

/-- The only ways such an operation can end. -/
theorem whenLinesDriven_cases (s t : State) :
    (s.pins.LinesDriven ∧ whenLinesDriven s t = .next t)
      ∨ (¬ s.pins.LinesDriven ∧ ∃ l, whenLinesDriven s t = .refused (.lineUnconfigured l)) := by
  by_cases h : s.pins.LinesDriven
  · exact .inl ⟨h, whenLinesDriven_next s t h⟩
  · refine .inr ⟨h, ?_⟩
    rcases hu : s.pins.undrivenLine with _ | l
    · exact absurd ((s.pins.undrivenLine_eq_none).1 hu) h
    · exact ⟨l, by unfold whenLinesDriven; rw [hu]⟩

/-! ## The answers -/

theorem State.nextAnswer_eq (s : State) : s.nextAnswer = s.answerAt 0 := by
  unfold State.nextAnswer State.answerAt
  cases s.answers <;> simp

theorem State.popAnswer_answerAt (s : State) (k : Nat) : s.popAnswer.answerAt k = s.answerAt (k + 1) := by
  unfold State.answerAt State.popAnswer
  cases h : s.answers with
  | nil => simpa using congrArg _ (by omega)
  | cons v rest => simp

/-- The answers to come depend on the inputs alone. -/
theorem State.answerAt_congr {s t : State} (ha : t.answers = s.answers) (hr : t.reads = s.reads) (k : Nat) :
    t.answerAt k = s.answerAt k := by
  unfold State.answerAt; rw [ha, hr]

@[simp] theorem State.setPollCnt_answerAt (s : State) (n k : Nat) : (s.setPollCnt n).answerAt k = s.answerAt k := rfl
@[simp] theorem State.setPins_answerAt (s : State) (p : Pins) (k : Nat) : (s.setPins p).answerAt k = s.answerAt k := rfl
@[simp] theorem State.setSeq_answerAt (s : State) (q : Seq) (k : Nat) : (s.setSeq q).answerAt k = s.answerAt k := rfl
@[simp] theorem State.setPowered_answerAt (s : State) (b : Bool) (k : Nat) :
    (s.setPowered b).answerAt k = s.answerAt k := rfl
@[simp] theorem State.setInitIndex_answerAt (s : State) (n : Nat) (e : InitEntry) (k : Nat) :
    (s.setInitIndex n e).answerAt k = s.answerAt k := rfl
@[simp] theorem State.setDisplay_answerAt (s : State) (d : Display) (k : Nat) :
    (s.setDisplay d).answerAt k = s.answerAt k := rfl
@[simp] theorem State.observe_answerAt (s : State) (ev : PinEvent) (k : Nat) : (s.observe ev).answerAt k = s.answerAt k := rfl
@[simp] theorem State.logTransfer_answerAt (s : State) (t : Transfer) (k : Nat) :
    (s.logTransfer t).answerAt k = s.answerAt k := rfl
@[simp] theorem State.raise_answerAt (s : State) (c : Condition) (k : Nat) : (s.raise c).answerAt k = s.answerAt k := rfl
@[simp] theorem State.drive_answerAt (s : State) (ev : PinEvent) (k : Nat) : (s.drive ev).answerAt k = s.answerAt k :=
  State.answerAt_congr (by simp) (by simp) k

/-! ## The waveform -/

@[simp] theorem replay_nil (p : Pins) : replay p [] = p := rfl
@[simp] theorem replay_append (p : Pins) (a b : List PinEvent) : replay p (a ++ b) = replay (replay p a) b := by
  simp [replay]
@[simp] theorem replay_cons (p : Pins) (ev : PinEvent) (evs : List PinEvent) :
    replay p (ev :: evs) = replay (p.after ev) evs := rfl

theorem EnableClean_append (p : Pins) (a b : List PinEvent) :
    EnableClean p (a ++ b) ↔ EnableClean p a ∧ EnableClean (replay p a) b := by
  induction a generalizing p with
  | nil => simp [EnableClean]
  | cons ev a ih => simp [EnableClean, ih, and_assoc]

/-- The waveform grew by events that, replayed on the old pins, give the new ones. -/
def Traced (s t : State) : Prop := ∃ w, t.waveform = s.waveform ++ w ∧ replay s.pins w = t.pins

theorem Traced.refl (s : State) : Traced s s := ⟨[], by simp, rfl⟩

theorem Traced.trans {s t u : State} (h : Traced s t) (k : Traced t u) : Traced s u := by
  obtain ⟨a, ha, ra⟩ := h
  obtain ⟨b, hb, rb⟩ := k
  exact ⟨a ++ b, by rw [hb, ha, List.append_assoc], by rw [replay_append, ra, rb]⟩

theorem Traced.drive (s : State) (ev : PinEvent) : Traced s (s.drive ev) := by
  refine ⟨_, s.drive_waveform ev, ?_⟩
  split
  · next h => simp [h]
  · simp

/-- An update that touches neither pins nor waveform. -/
theorem Traced.of_eq {s t : State} (hp : t.pins = s.pins) (hw : t.waveform = s.waveform) : Traced s t :=
  ⟨[], by simp [hw], by simp [hp]⟩

/-- A delay or a read event. -/
theorem Traced.observe (s : State) (ev : PinEvent) (h : ∀ p : Pins, p.after ev = p) : Traced s (s.observe ev) :=
  ⟨[ev], rfl, by simp [h]⟩

end Sys2Proof.Machine
end

