-- ==== Sys2Proof/Laws/Handshake.lean ====
section
/-! SUPPORT. What a status sample, a poll and a gated write can do (spec/41_handshake.md R120 to R126,
spec/42_cmd_data_channel.md R135 to R141): cite these instead of unfolding the operations. -/

namespace Sys2Proof.Machine

/-! ## One sample -/

/-- The pins after a sample, whatever they were (41 R121). -/
def Pins.sampled (p : Pins) : Pins := { p with busDir := .input, e := false, rw := true, rs := false }

@[simp] theorem sampleStatus_pins (s : State) : (sampleStatus s).pins = s.pins.sampled := by
  simp [sampleStatus, setBusDirection, setControlLine, delayTick, readBus, Pins.sampled]

@[simp] theorem sampleStatus_status (s : State) : (sampleStatus s).status = s.answerAt 0 := by
  simp only [sampleStatus, State.logTransfer_status, State.setStatus_status, State.nextAnswer_eq]
  simp [setBusDirection, setControlLine, delayTick]

@[simp] theorem sampleStatus_transfers (s : State) :
    (sampleStatus s).transfers = s.transfers ++ [.sts (s.answerAt 0)] := by
  rw [← sampleStatus_status]
  simp [sampleStatus, setBusDirection, setControlLine, delayTick, readBus]

@[simp] theorem sampleStatus_answerAt (s : State) (k : Nat) : (sampleStatus s).answerAt k = s.answerAt (k + 1) := by
  rw [← State.popAnswer_answerAt]
  apply State.answerAt_congr <;>
    simp [sampleStatus, setBusDirection, setControlLine, delayTick, readBus, State.popAnswer] <;> split <;> simp_all

@[simp] theorem sampleStatus_pollCnt (s : State) : (sampleStatus s).pollCnt = s.pollCnt := by
  simp [sampleStatus, setBusDirection, setControlLine, delayTick, readBus]
@[simp] theorem sampleStatus_cfg (s : State) : (sampleStatus s).cfg = s.cfg := by
  simp [sampleStatus, setBusDirection, setControlLine, delayTick, readBus]
@[simp] theorem sampleStatus_conditions (s : State) : (sampleStatus s).conditions = s.conditions := by
  simp [sampleStatus, setBusDirection, setControlLine, delayTick, readBus]
@[simp] theorem sampleStatus_display (s : State) : (sampleStatus s).display = s.display := by
  simp [sampleStatus, setBusDirection, setControlLine, delayTick, readBus]

theorem sampleStatus_control (s : State) : SameControl s (sampleStatus s) := by
  simp [SameControl, sampleStatus, setBusDirection, setControlLine, delayTick, readBus]

theorem readBus_traced (s : State) : Traced s (readBus s) :=
  (Traced.of_eq s.popAnswer_pins s.popAnswer_waveform).trans (Traced.observe _ _ fun p => p.after_read _)

theorem delayTick_traced (s : State) : Traced s (delayTick s) := Traced.observe s .tick Pins.after_tick

theorem sampleStatus_traced (s : State) : Traced s (sampleStatus s) := by
  have h1 := (Traced.drive s (.busDir .input)).trans (Traced.drive _ (.line .rw true))
  have h2 := (h1.trans (Traced.drive _ (.line .rs false))).trans (Traced.drive _ (.line .e true))
  have h3 := (h2.trans (delayTick_traced _)).trans (readBus_traced _)
  have h4 := h3.trans (Traced.drive _ (.line .e false))
  unfold sampleStatus setBusDirection setControlLine
  dsimp only
  exact h4.trans (Traced.of_eq (by simp only [State.logTransfer_pins, State.setStatus_pins])
    (by simp only [State.logTransfer_waveform, State.setStatus_waveform]))

/-! ## The poll -/

/-- A relation that each step of the loop keeps is kept by the poll. -/
theorem pollFrom_rel {R : State → State → Prop} (trans : ∀ {s t u}, R s t → R t u → R s u)
    (sample : ∀ s, R s (sampleStatus s)) (count : ∀ s n, R s (s.setPollCnt n)) (tick : ∀ s, R s (delayTick s))
    (more : Nat) (s : State) : R s (pollFrom more s).2 := by
  induction more generalizing s with
  | zero =>
    unfold pollFrom
    dsimp only
    split <;> exact trans (sample s) (count _ _)
  | succ more ih =>
    unfold pollFrom
    dsimp only
    split
    · exact trans (trans (trans (sample s) (count _ _)) (tick _)) (ih _)
    · exact trans (sample s) (count _ _)

/-- As `pollFrom_rel`, for `WaitReady`. -/
theorem waitReady_rel {R : State → State → Prop} (trans : ∀ {s t u}, R s t → R t u → R s u)
    (sample : ∀ s, R s (sampleStatus s)) (count : ∀ s n, R s (s.setPollCnt n)) (tick : ∀ s, R s (delayTick s))
    (s : State) : R s (waitReady s).2 :=
  trans (count s 0) (pollFrom_rel (R := R) trans sample count tick (s.cfg.pollBound - 1) (s.setPollCnt 0))

theorem SameControl.refl (s : State) : SameControl s s := by simp [SameControl]

theorem SameControl.trans {s t u : State} (h : SameControl s t) (k : SameControl t u) : SameControl s u := by
  simp only [SameControl] at *; simp [h, k]

theorem waitReady_control (s : State) : SameControl s (waitReady s).2 :=
  waitReady_rel (R := SameControl) SameControl.trans sampleStatus_control (fun _ _ => by simp [SameControl])
    (fun _ => by simp [SameControl, delayTick]) s

theorem waitReady_traced (s : State) : Traced s (waitReady s).2 :=
  waitReady_rel (R := Traced) Traced.trans sampleStatus_traced (fun _ _ => .of_eq rfl rfl) delayTick_traced s

theorem State.samples_succ (s t : State) (n : Nat) (h : ∀ k, t.answerAt k = s.answerAt (k + 1)) :
    s.samples (n + 1) = .sts (s.answerAt 0) :: t.samples n := by
  simp [State.samples, List.range_succ_eq_map, h, Function.comp_def]

/-- The poll whose sample `j + 1` is the first ready one, within the bound (41 R122, R123). -/
theorem pollFrom_ready (more j : Nat) (s : State) (hj : j ≤ more) (hb : s.BusyFor j)
    (hr : isBusy (s.answerAt j) = false) :
    (pollFrom more s).1 = .ready ∧ (pollFrom more s).2.pins = s.pins.sampled
      ∧ (pollFrom more s).2.status = s.answerAt j ∧ (pollFrom more s).2.pollCnt = s.pollCnt + j + 1
      ∧ (pollFrom more s).2.transfers = s.transfers ++ s.samples (j + 1)
      ∧ (∀ k, (pollFrom more s).2.answerAt k = s.answerAt (j + 1 + k))
      ∧ (pollFrom more s).2.conditions = s.conditions ∧ (pollFrom more s).2.display = s.display := by
  induction j generalizing more s with
  | zero =>
    unfold pollFrom
    simp only [State.busyFlag, State.setPollCnt_status, sampleStatus_status, hr]
    refine ⟨by simp, by simp, by simp, by simp, by simp [State.samples], fun k => ?_, by simp, by simp⟩
    simp only [Bool.false_eq_true, if_false]
    rw [State.setPollCnt_answerAt, sampleStatus_answerAt]
    congr 1; omega
  | succ j ih =>
    obtain ⟨more, rfl⟩ : ∃ m, more = m + 1 := ⟨more - 1, by omega⟩
    unfold pollFrom
    have h0 : isBusy (s.answerAt 0) = true := hb 0 (by omega)
    simp only [State.busyFlag, State.setPollCnt_status, sampleStatus_status, h0, if_true]
    have hans : ∀ k, (delayTick ((sampleStatus s).setPollCnt ((sampleStatus s).pollCnt + 1))).answerAt k
        = s.answerAt (k + 1) := fun k => by simp [delayTick]
    have := ih more (delayTick ((sampleStatus s).setPollCnt ((sampleStatus s).pollCnt + 1))) (by omega)
      (fun k hk => by rw [hans]; exact hb _ (by omega)) (by rw [hans]; exact hr)
    obtain ⟨h1, h2, h3, h4, h5, h6, h7, h8⟩ := this
    refine ⟨h1, ?_, by rw [h3, hans], ?_, ?_, fun k => ?_, ?_, ?_⟩
    · rw [h2]; simp [delayTick, Pins.sampled]
    · rw [h4]; simp [delayTick]; omega
    · rw [h5, State.samples_succ s _ (j + 1) hans]; simp [delayTick]
    · rw [h6, hans]; congr 1; omega
    · rw [h7]; simp [delayTick]
    · rw [h8]; simp [delayTick]

/-- The poll that sees busy to the end of its bound (41 R122, R123). -/
theorem pollFrom_timeout (more : Nat) (s : State) (hb : s.BusyFor (more + 1)) :
    (pollFrom more s).1 = .timeout ∧ (pollFrom more s).2.pins = s.pins.sampled
      ∧ (pollFrom more s).2.status = s.answerAt more ∧ (pollFrom more s).2.pollCnt = s.pollCnt + more + 1
      ∧ (pollFrom more s).2.transfers = s.transfers ++ s.samples (more + 1)
      ∧ (∀ k, (pollFrom more s).2.answerAt k = s.answerAt (more + 1 + k))
      ∧ (pollFrom more s).2.conditions = s.conditions ∧ (pollFrom more s).2.display = s.display := by
  have h0 : isBusy (s.answerAt 0) = true := hb 0 (by omega)
  induction more generalizing s with
  | zero =>
    unfold pollFrom
    simp only [State.busyFlag, State.setPollCnt_status, sampleStatus_status, h0, if_true]
    refine ⟨by simp, by simp, by simp, by simp, by simp [State.samples], fun k => ?_, by simp, by simp⟩
    rw [State.setPollCnt_answerAt, sampleStatus_answerAt]
    congr 1; omega
  | succ more ih =>
    unfold pollFrom
    simp only [State.busyFlag, State.setPollCnt_status, sampleStatus_status, h0, if_true]
    have hans : ∀ k, (delayTick ((sampleStatus s).setPollCnt ((sampleStatus s).pollCnt + 1))).answerAt k
        = s.answerAt (k + 1) := fun k => by simp [delayTick]
    have := ih (delayTick ((sampleStatus s).setPollCnt ((sampleStatus s).pollCnt + 1)))
      (fun k hk => by rw [hans]; exact hb _ (by omega)) (by rw [hans]; exact hb _ (by omega))
    obtain ⟨h1, h2, h3, h4, h5, h6, h7, h8⟩ := this
    refine ⟨h1, ?_, by rw [h3, hans], ?_, ?_, fun k => ?_, ?_, ?_⟩
    · rw [h2]; simp [delayTick, Pins.sampled]
    · rw [h4]; simp [delayTick]; omega
    · rw [h5, State.samples_succ s _ (more + 1) hans]; simp [delayTick]
    · rw [h6, hans]; congr 1; omega
    · rw [h7]; simp [delayTick]
    · rw [h8]; simp [delayTick]

/-- A poll ends ready on some sample, or it saw busy throughout. -/
theorem State.ready_or_busy (s : State) (n : Nat) :
    (∃ j, j < n ∧ s.BusyFor j ∧ isBusy (s.answerAt j) = false) ∨ s.BusyFor n := by
  induction n with
  | zero => exact .inr fun k hk => absurd hk (by omega)
  | succ n ih =>
    rcases ih with ⟨j, hj, h⟩ | h
    · exact .inl ⟨j, by omega, h⟩
    · rcases hn : isBusy (s.answerAt n) with _ | _
      · exact .inl ⟨n, by omega, h, hn⟩
      · refine .inr fun k hk => ?_
        rcases Nat.lt_or_ge k n with hk' | hk'
        · exact h k hk'
        · obtain rfl : k = n := by omega
          exact hn

/-- A poll that reports `Ready` ends its part of the trace with a ready sample (20 R62). -/
theorem pollFrom_ready_last (more : Nat) (s : State) (h : (pollFrom more s).1 = .ready) :
    ∃ before v, (pollFrom more s).2.transfers = before ++ [.sts v] ∧ isBusy v = false := by
  rcases s.ready_or_busy (more + 1) with ⟨j, hj, hb, hr⟩ | hb
  · refine ⟨s.transfers ++ s.samples j, s.answerAt j, ?_, hr⟩
    rw [(pollFrom_ready more j s (by omega) hb hr).2.2.2.2.1]
    simp [State.samples, List.range_succ]
  · rw [(pollFrom_timeout more s hb).1] at h
    exact absurd h (by decide)

end Sys2Proof.Machine
end

