-- ==== Sys2Proof/Laws/Waveform.lean ====
section
/-! SUPPORT. What the operations add to the pin waveform: how many ticks (spec/41_handshake.md R126), and that nothing
moves and nobody else drives while Enable is high (spec/70_reset_and_hazards.md R226). -/

namespace Sys2Proof.Machine

/-! ## Ticks -/

theorem State.drive_ticks (s : State) (ev : PinEvent) (h : ev ≠ .tick) : (s.drive ev).ticks = s.ticks := by
  unfold State.ticks
  rw [State.drive_waveform]
  split <;> simp [h]

theorem State.observe_ticks (s : State) (ev : PinEvent) :
    (s.observe ev).ticks = s.ticks + (if ev = .tick then 1 else 0) := by
  simp [State.ticks, List.count_singleton]

/-- An update that leaves the waveform alone leaves the ticks alone. -/
theorem State.ticks_congr {s t : State} (h : t.waveform = s.waveform) : t.ticks = s.ticks := by
  unfold State.ticks; rw [h]

theorem readBus_ticks (s : State) : (readBus s).ticks = s.ticks := by
  unfold readBus
  rw [State.observe_ticks]
  simp [State.ticks_congr s.popAnswer_waveform]

theorem delayTick_ticks (s : State) : (delayTick s).ticks = s.ticks + 1 := by
  unfold delayTick
  rw [State.observe_ticks]; simp

/-- One sample costs its settle tick (41 R120). -/
theorem sampleStatus_ticks (s : State) : (sampleStatus s).ticks = s.ticks + 1 := by
  unfold sampleStatus setBusDirection setControlLine
  dsimp only
  rw [State.ticks_congr (State.logTransfer_waveform _ _), State.ticks_congr (State.setStatus_waveform _ _),
    State.drive_ticks _ _ (by simp), readBus_ticks, delayTick_ticks, State.drive_ticks _ _ (by simp),
    State.drive_ticks _ _ (by simp), State.drive_ticks _ _ (by simp), State.drive_ticks _ _ (by simp)]

theorem pollFrom_ready_ticks (more j : Nat) (s : State) (hj : j ≤ more) (hb : s.BusyFor j)
    (hr : isBusy (s.answerAt j) = false) : (pollFrom more s).2.ticks = s.ticks + (2 * j + 1) := by
  induction j generalizing more s with
  | zero =>
    unfold pollFrom
    simp only [State.busyFlag, State.setPollCnt_status, sampleStatus_status, hr]
    simp [State.ticks_congr (State.setPollCnt_waveform _ _), sampleStatus_ticks]
  | succ j ih =>
    obtain ⟨more, rfl⟩ : ∃ m, more = m + 1 := ⟨more - 1, by omega⟩
    unfold pollFrom
    have h0 : isBusy (s.answerAt 0) = true := hb 0 (by omega)
    simp only [State.busyFlag, State.setPollCnt_status, sampleStatus_status, h0, if_true]
    rw [ih more _ (by omega) (fun k hk => by simpa [delayTick] using hb _ (by omega)) (by simpa [delayTick] using hr),
      delayTick_ticks, State.ticks_congr (State.setPollCnt_waveform _ _), sampleStatus_ticks]
    omega

theorem pollFrom_timeout_ticks (more : Nat) (s : State) (hb : s.BusyFor (more + 1)) :
    (pollFrom more s).2.ticks = s.ticks + (2 * more + 1) := by
  have h0 : isBusy (s.answerAt 0) = true := hb 0 (by omega)
  induction more generalizing s with
  | zero =>
    unfold pollFrom
    simp only [State.busyFlag, State.setPollCnt_status, sampleStatus_status, h0, if_true]
    simp [State.ticks_congr (State.setPollCnt_waveform _ _), sampleStatus_ticks]
  | succ more ih =>
    unfold pollFrom
    simp only [State.busyFlag, State.setPollCnt_status, sampleStatus_status, h0, if_true]
    rw [ih _ (fun k hk => by simpa [delayTick] using hb _ (by omega)) (by simpa [delayTick] using hb 1 (by omega)),
      delayTick_ticks, State.ticks_congr (State.setPollCnt_waveform _ _), sampleStatus_ticks]
    omega

/-! ## The poll whole -/

/-- `WaitReady` whose sample `j + 1` is the first ready one (41 R122, R123, R126). -/
theorem waitReady_ready (s : State) (j : Nat) (h : s.ReadyOn j) :
    (waitReady s).1 = .ready ∧ (waitReady s).2.pins = s.pins.sampled ∧ (waitReady s).2.status = s.answerAt j
      ∧ (waitReady s).2.pollCnt = j + 1 ∧ (waitReady s).2.transfers = s.transfers ++ s.samples (j + 1)
      ∧ (waitReady s).2.conditions = s.conditions ∧ (waitReady s).2.display = s.display
      ∧ (waitReady s).2.ticks = s.ticks + (2 * j + 1) := by
  obtain ⟨hj, hb, hr⟩ := h
  obtain ⟨h1, h2, h3, h4, h5, _, h7, h8⟩ := pollFrom_ready (s.cfg.pollBound - 1) j (s.setPollCnt 0) (by omega) hb hr
  have ht := pollFrom_ready_ticks (s.cfg.pollBound - 1) j (s.setPollCnt 0) (by omega) hb hr
  unfold waitReady
  exact ⟨h1, h2, h3, by rw [h4]; simp, h5, h7, h8, by rw [ht, State.ticks_congr (State.setPollCnt_waveform _ _)]⟩

/-- `WaitReady` that sees busy throughout (41 R122, R123, R126). -/
theorem waitReady_timeout (s : State) (hT : 1 ≤ s.cfg.pollBound) (h : s.BusyFor s.cfg.pollBound) :
    (waitReady s).1 = .timeout ∧ (waitReady s).2.pins = s.pins.sampled
      ∧ (waitReady s).2.status = s.answerAt (s.cfg.pollBound - 1) ∧ (waitReady s).2.pollCnt = s.cfg.pollBound
      ∧ (waitReady s).2.transfers = s.transfers ++ s.samples s.cfg.pollBound
      ∧ (waitReady s).2.conditions = s.conditions ∧ (waitReady s).2.display = s.display
      ∧ (waitReady s).2.ticks = s.ticks + (2 * s.cfg.pollBound - 1) := by
  obtain ⟨m, hm⟩ : ∃ m, s.cfg.pollBound = m + 1 := ⟨s.cfg.pollBound - 1, by omega⟩
  rw [hm] at h ⊢
  obtain ⟨h1, h2, h3, h4, h5, _, h7, h8⟩ := pollFrom_timeout m (s.setPollCnt 0) h
  have ht := pollFrom_timeout_ticks m (s.setPollCnt 0) h
  have hpoll : waitReady s = pollFrom m (s.setPollCnt 0) := by unfold waitReady; rw [hm]; rfl
  rw [hpoll]
  exact ⟨h1, h2, h3, by rw [h4]; simp, h5, h7, h8,
    by rw [ht, State.ticks_congr (State.setPollCnt_waveform _ _)]; omega⟩

/-! ## Enable -/

/-- The waveform grew, its replay gives the new pins, and nothing moved while Enable was high. -/
def Clean (s t : State) : Prop :=
  ∃ w, t.waveform = s.waveform ++ w ∧ replay s.pins w = t.pins ∧ EnableClean s.pins w

theorem Clean.refl (s : State) : Clean s s := ⟨[], by simp, rfl, trivial⟩

theorem Clean.trans {s t u : State} (h : Clean s t) (k : Clean t u) : Clean s u := by
  obtain ⟨a, ha, ra, ca⟩ := h
  obtain ⟨b, hb, rb, cb⟩ := k
  exact ⟨a ++ b, by rw [hb, ha, List.append_assoc], by rw [replay_append, ra, rb],
    (EnableClean_append _ _ _).2 ⟨ca, by rw [ra]; exact cb⟩⟩

theorem Clean.drive (s : State) (ev : PinEvent) (h : s.pins.e = true → ev.quiet = true ∧ ¬ s.pins.Contention) :
    Clean s (s.drive ev) := by
  refine ⟨_, s.drive_waveform ev, ?_, ?_⟩
  · split
    · next h => simp [h]
    · simp
  · split
    · trivial
    · exact ⟨h, trivial⟩

theorem Clean.observe (s : State) (ev : PinEvent) (hp : ∀ p : Pins, p.after ev = p)
    (h : s.pins.e = true → ev.quiet = true ∧ ¬ s.pins.Contention) : Clean s (s.observe ev) :=
  ⟨[ev], rfl, by simp [hp], h, trivial⟩

theorem Clean.of_eq {s t : State} (hp : t.pins = s.pins) (hw : t.waveform = s.waveform) : Clean s t :=
  ⟨[], by simp [hw], by simp [hp], trivial⟩

theorem readBus_clean (s : State) (h : ¬ s.pins.Contention) : Clean s (readBus s) :=
  (Clean.of_eq s.popAnswer_pins s.popAnswer_waveform).trans
    (Clean.observe _ _ (fun p => p.after_read _) fun _ => ⟨rfl, by rw [State.popAnswer_pins]; exact h⟩)

theorem sampleStatus_clean (s : State) (h : s.pins.e = false) : Clean s (sampleStatus s) := by
  have h1 := Clean.drive s (.busDir .input) (by simp [h])
  have h2 := h1.trans (Clean.drive _ (.line .rw true) (by simp [h]))
  have h3 := h2.trans (Clean.drive _ (.line .rs false) (by simp [h]))
  have h4 := h3.trans (Clean.drive _ (.line .e true) (by simp [h]))
  have h5 := h4.trans (Clean.observe _ .tick Pins.after_tick (by simp [PinEvent.quiet]))
  have h7 := h5.trans (readBus_clean _ (by simp))
  have h8 := h7.trans (Clean.drive _ (.line .e false) (by simp [PinEvent.quiet, readBus]))
  unfold sampleStatus setBusDirection setControlLine delayTick
  dsimp only
  exact h8.trans (Clean.of_eq (by simp only [State.logTransfer_pins, State.setStatus_pins])
    (by simp only [State.logTransfer_waveform, State.setStatus_waveform]))

/-- From Enable low the operation is clean and leaves Enable low. -/
def EnableRests (s t : State) : Prop := s.pins.e = false → Clean s t ∧ t.pins.e = false

theorem EnableRests.trans {s t u : State} (h : EnableRests s t) (k : EnableRests t u) : EnableRests s u :=
  fun e => ⟨(h e).1.trans (k (h e).2).1, (k (h e).2).2⟩

theorem EnableRests.of_eq {s t : State} (hp : t.pins = s.pins) (hw : t.waveform = s.waveform) : EnableRests s t :=
  fun e => ⟨.of_eq hp hw, by rw [hp, e]⟩

theorem EnableRests.refl (s : State) : EnableRests s s := .of_eq rfl rfl

theorem sampleStatus_enableRests (s : State) : EnableRests s (sampleStatus s) :=
  fun e => ⟨sampleStatus_clean s e, by rw [sampleStatus_pins]; rfl⟩

theorem delayTick_enableRests (s : State) : EnableRests s (delayTick s) := fun e =>
  ⟨Clean.observe s .tick Pins.after_tick (by simp [e]), e⟩

theorem waitReady_enableRests (s : State) : EnableRests s (waitReady s).2 :=
  waitReady_rel (R := EnableRests) EnableRests.trans sampleStatus_enableRests
    (fun _ _ => .of_eq rfl rfl) delayTick_enableRests s

end Sys2Proof.Machine
end

