-- ==== Sys2Proof/Laws/Channel.lean ====
section
/-! SUPPORT. What the write phase and a gated write can do (spec/42_cmd_data_channel.md R135 to R141). -/

namespace Sys2Proof.Machine

/-! ## The write phase -/

/-- The pins after a write of `b` (42 R137). -/
def Pins.written (p : Pins) (rs : Bool) (b : Byte) : Pins :=
  { p with busDir := .output, busOut := b, e := false, rw := false, rs := rs }

@[simp] theorem transfer_pins (rs : Bool) (b : Byte) (s : State) : (transfer rs b s).pins = s.pins.written rs b := by
  simp [transfer, setBusDirection, setControlLine, writeBus, delayTick, Pins.written]
@[simp] theorem transfer_status (rs : Bool) (b : Byte) (s : State) : (transfer rs b s).status = s.status := by
  simp [transfer, setBusDirection, setControlLine, writeBus, delayTick]
@[simp] theorem transfer_pollCnt (rs : Bool) (b : Byte) (s : State) : (transfer rs b s).pollCnt = s.pollCnt := by
  simp [transfer, setBusDirection, setControlLine, writeBus, delayTick]
@[simp] theorem transfer_cfg (rs : Bool) (b : Byte) (s : State) : (transfer rs b s).cfg = s.cfg := by
  simp [transfer, setBusDirection, setControlLine, writeBus, delayTick]
@[simp] theorem transfer_conditions (rs : Bool) (b : Byte) (s : State) :
    (transfer rs b s).conditions = s.conditions := by
  simp [transfer, setBusDirection, setControlLine, writeBus, delayTick]
@[simp] theorem transfer_transfers (rs : Bool) (b : Byte) (s : State) :
    (transfer rs b s).transfers = s.transfers ++ [writeOf rs b] := by
  simp [transfer, setBusDirection, setControlLine, writeBus, delayTick, writeOf]
@[simp] theorem transfer_answerAt (rs : Bool) (b : Byte) (s : State) (k : Nat) :
    (transfer rs b s).answerAt k = s.answerAt k := by
  simp [transfer, setBusDirection, setControlLine, writeBus, delayTick]
@[simp] theorem transfer_display (rs : Bool) (b : Byte) (s : State) :
    (transfer rs b s).display = s.display.latch s.pins.supplied rs b := by
  simp [transfer, setBusDirection, setControlLine, writeBus, delayTick, Pins.supplied, Pins.supply]

theorem transfer_control (rs : Bool) (b : Byte) (s : State) : SameControl s (transfer rs b s) := by
  simp [SameControl, transfer, setBusDirection, setControlLine, writeBus, delayTick]

theorem transfer_clean (rs : Bool) (b : Byte) (s : State) (h : s.pins.e = false) : Clean s (transfer rs b s) := by
  have h1 := Clean.drive s (.busDir .output) (by simp [h])
  have h2 := h1.trans (Clean.drive _ (.line .rw false) (by simp [h]))
  have h3 := h2.trans (Clean.drive _ (.line .rs rs) (by simp [h]))
  have h4 := h3.trans (Clean.drive _ (.bus b) (by simp [h]))
  have h5 := h4.trans (Clean.drive _ (.line .e true) (by simp [h]))
  have h6 := h5.trans (Clean.observe _ .tick Pins.after_tick (by simp [PinEvent.quiet]))
  have h7 := h6.trans (Clean.drive _ (.line .e false) (by simp [PinEvent.quiet]))
  unfold transfer setBusDirection setControlLine writeBus delayTick
  dsimp only
  exact h7.trans (Clean.of_eq (by simp only [State.setDisplay_pins, State.logTransfer_pins])
    (by simp only [State.setDisplay_waveform, State.logTransfer_waveform]))

theorem transfer_enableRests (rs : Bool) (b : Byte) (s : State) : EnableRests s (transfer rs b s) :=
  fun e => ⟨transfer_clean rs b s e, by rw [transfer_pins]; rfl⟩

theorem transfer_traced (rs : Bool) (b : Byte) (s : State) : Traced s (transfer rs b s) := by
  have h1 := (Traced.drive s (.busDir .output)).trans (Traced.drive _ (.line .rw false))
  have h2 := (h1.trans (Traced.drive _ (.line .rs rs))).trans (Traced.drive _ (.bus b))
  have h3 := (h2.trans (Traced.drive _ (.line .e true))).trans (delayTick_traced _)
  have h4 := h3.trans (Traced.drive _ (.line .e false))
  unfold transfer setBusDirection setControlLine writeBus
  dsimp only
  exact h4.trans (Traced.of_eq (by simp only [State.setDisplay_pins, State.logTransfer_pins])
    (by simp only [State.setDisplay_waveform, State.logTransfer_waveform]))

/-- The Enable pulse is one tick wide (42 R137). -/
theorem transfer_ticks (rs : Bool) (b : Byte) (s : State) : (transfer rs b s).ticks = s.ticks + 1 := by
  unfold transfer setBusDirection setControlLine writeBus
  dsimp only
  rw [State.ticks_congr (State.setDisplay_waveform _ _), State.ticks_congr (State.logTransfer_waveform _ _),
    State.drive_ticks _ _ (by simp), delayTick_ticks, State.drive_ticks _ _ (by simp), State.drive_ticks _ _ (by simp),
    State.drive_ticks _ _ (by simp), State.drive_ticks _ _ (by simp), State.drive_ticks _ _ (by simp)]

/-! ## One gated write -/

/-- The two ways a gated write goes (42 R136). -/
theorem writeByte_cases (rs : Bool) (b : Byte) (p : Place) (s : State) :
    ((waitReady s).1 = .ready ∧ writeByte rs b p s = transfer rs b (waitReady s).2)
      ∨ ((waitReady s).1 = .timeout ∧ writeByte rs b p s = (waitReady s).2.raise (.timeout p)) := by
  unfold writeByte
  rcases h : waitReady s with ⟨r, s'⟩
  cases r <;> simp

/-- A relation that each step of a gated write keeps is kept by it. -/
theorem writeByte_rel {R : State → State → Prop} (trans : ∀ {s t u}, R s t → R t u → R s u)
    (sample : ∀ s, R s (sampleStatus s)) (count : ∀ s n, R s (s.setPollCnt n)) (tick : ∀ s, R s (delayTick s))
    (write : ∀ rs b s, R s (transfer rs b s)) (raised : ∀ s c, R s (s.raise c))
    (rs : Bool) (b : Byte) (p : Place) (s : State) : R s (writeByte rs b p s) := by
  have hw := waitReady_rel (R := R) trans sample count tick s
  rcases writeByte_cases rs b p s with ⟨_, h⟩ | ⟨_, h⟩ <;> rw [h]
  · exact trans hw (write rs b _)
  · exact trans hw (raised _ _)

theorem writeByte_control (rs : Bool) (b : Byte) (p : Place) (s : State) : SameControl s (writeByte rs b p s) :=
  writeByte_rel (R := SameControl) SameControl.trans sampleStatus_control (fun _ _ => by simp [SameControl])
    (fun _ => by simp [SameControl, delayTick]) transfer_control (fun _ _ => by simp [SameControl]) rs b p s

theorem writeByte_traced (rs : Bool) (b : Byte) (p : Place) (s : State) : Traced s (writeByte rs b p s) :=
  writeByte_rel (R := Traced) Traced.trans sampleStatus_traced (fun _ _ => .of_eq rfl rfl) delayTick_traced
    transfer_traced (fun _ _ => .of_eq rfl rfl) rs b p s

theorem writeByte_enableRests (rs : Bool) (b : Byte) (p : Place) (s : State) : EnableRests s (writeByte rs b p s) :=
  writeByte_rel (R := EnableRests) EnableRests.trans sampleStatus_enableRests (fun _ _ => .of_eq rfl rfl)
    delayTick_enableRests transfer_enableRests (fun _ _ => .of_eq rfl rfl) rs b p s

/-- What a gated write leaves of the pins: every direction of a line, and the supply. -/
def SameLines (s t : State) : Prop :=
  t.pins.dirE = s.pins.dirE ∧ t.pins.dirRw = s.pins.dirRw ∧ t.pins.dirRs = s.pins.dirRs
    ∧ t.pins.dirPwr = s.pins.dirPwr ∧ t.pins.pwr = s.pins.pwr

theorem SameLines.trans {s t u : State} (h : SameLines s t) (k : SameLines t u) : SameLines s u := by
  simp only [SameLines] at *; simp [h, k]

theorem writeByte_lines (rs : Bool) (b : Byte) (p : Place) (s : State) : SameLines s (writeByte rs b p s) :=
  writeByte_rel (R := SameLines) SameLines.trans (fun _ => by simp [SameLines, Pins.sampled])
    (fun _ _ => by simp [SameLines]) (fun _ => by simp [SameLines, delayTick])
    (fun _ _ _ => by simp [SameLines, Pins.written]) (fun _ _ => by simp [SameLines]) rs b p s

/-- The write whose handshake ends ready on sample `j + 1` (42 R136 to R139). -/
theorem writeByte_ready (rs : Bool) (b : Byte) (p : Place) (s : State) (j : Nat) (h : s.ReadyOn j) :
    (writeByte rs b p s).pins = s.pins.written rs b ∧ (writeByte rs b p s).status = s.answerAt j
      ∧ (writeByte rs b p s).pollCnt = j + 1
      ∧ (writeByte rs b p s).transfers = s.transfers ++ s.samples (j + 1) ++ [writeOf rs b]
      ∧ (∀ k, (writeByte rs b p s).answerAt k = s.answerAt (j + 1 + k))
      ∧ (writeByte rs b p s).conditions = s.conditions
      ∧ (writeByte rs b p s).display = s.display.latch s.pins.supplied rs b
      ∧ (writeByte rs b p s).ticks = s.ticks + (2 * j + 2) := by
  obtain ⟨hj, hb, hr⟩ := h
  have hp := pollFrom_ready (s.cfg.pollBound - 1) j (s.setPollCnt 0) (by omega) hb hr
  have ht := pollFrom_ready_ticks (s.cfg.pollBound - 1) j (s.setPollCnt 0) (by omega) hb hr
  obtain ⟨h1, h2, h3, h4, h5, h6, h7, h8⟩ := hp
  have hw : writeByte rs b p s = transfer rs b (waitReady s).2 := by
    rcases writeByte_cases rs b p s with ⟨_, h⟩ | ⟨h, _⟩
    · exact h
    · rw [show (waitReady s).1 = .ready from h1] at h; exact absurd h (by decide)
  rw [hw]
  unfold waitReady
  refine ⟨?_, ?_, ?_, ?_, fun k => ?_, ?_, ?_, ?_⟩
  · rw [transfer_pins, h2]; simp [Pins.written, Pins.sampled]
  · rw [transfer_status, h3]; rfl
  · rw [transfer_pollCnt, h4]; simp
  · rw [transfer_transfers, h5]; rfl
  · rw [transfer_answerAt, h6]; rfl
  · rw [transfer_conditions, h7]; rfl
  · rw [transfer_display, h8, h2]; rfl
  · rw [transfer_ticks, ht, State.ticks_congr (State.setPollCnt_waveform _ _)]; omega

/-- The write whose handshake times out: no byte, no report (42 R136, 60 R186). -/
theorem writeByte_timeout (rs : Bool) (b : Byte) (p : Place) (s : State) (hT : 1 ≤ s.cfg.pollBound)
    (h : s.BusyFor s.cfg.pollBound) :
    (writeByte rs b p s).pins = s.pins.sampled ∧ (writeByte rs b p s).status = s.answerAt (s.cfg.pollBound - 1)
      ∧ (writeByte rs b p s).pollCnt = s.cfg.pollBound
      ∧ (writeByte rs b p s).transfers = s.transfers ++ s.samples s.cfg.pollBound
      ∧ (∀ k, (writeByte rs b p s).answerAt k = s.answerAt (s.cfg.pollBound + k))
      ∧ (writeByte rs b p s).conditions = s.conditions ++ [.timeout p]
      ∧ (writeByte rs b p s).display = s.display
      ∧ (writeByte rs b p s).ticks = s.ticks + (2 * s.cfg.pollBound - 1) := by
  obtain ⟨m, hm⟩ : ∃ m, s.cfg.pollBound = m + 1 := ⟨s.cfg.pollBound - 1, by omega⟩
  rw [hm] at h ⊢
  have hp := pollFrom_timeout m (s.setPollCnt 0) h
  have ht := pollFrom_timeout_ticks m (s.setPollCnt 0) h
  obtain ⟨h1, h2, h3, h4, h5, h6, h7, h8⟩ := hp
  have hpoll : waitReady s = pollFrom m (s.setPollCnt 0) := by unfold waitReady; rw [hm]; rfl
  have hw : writeByte rs b p s = (pollFrom m (s.setPollCnt 0)).2.raise (.timeout p) := by
    rcases writeByte_cases rs b p s with ⟨h, _⟩ | ⟨_, h⟩ <;> rw [hpoll] at h
    · rw [h1] at h; exact absurd h (by decide)
    · exact h
  rw [hw]
  refine ⟨?_, ?_, ?_, ?_, fun k => ?_, ?_, ?_, ?_⟩
  · rw [State.raise_pins, h2]; rfl
  · rw [State.raise_status, h3]; rfl
  · rw [State.raise_pollCnt, h4]; simp
  · rw [State.raise_transfers, h5]; rfl
  · rw [State.raise_answerAt, h6]; rfl
  · rw [State.raise_conditions, h7]; rfl
  · rw [State.raise_display, h8]; rfl
  · rw [State.ticks_congr (State.raise_waveform _ _), ht, State.ticks_congr (State.setPollCnt_waveform _ _)]
    omega

end Sys2Proof.Machine
end

