-- ==== Sys2Proof/Laws/Compound.lean ====
section
/-! SUPPORT. What the sequencer and the compound text operations can do (spec/43_power_sequencer.md R146 to R154,
spec/44_text_ops.md R165 to R175): sequences of gated writes, the power pin phases, and what each meaning of `exec`
reduces to. -/

namespace Sys2Proof.Machine

/-! ## Any display: what one gated write adds to trace and log -/

theorem without_sublist (ks : List Nat) (i : Nat) (l : List α) : (without ks i l).Sublist l := by
  induction l generalizing i with
  | nil => exact List.Sublist.slnil
  | cons x xs ih =>
    unfold without
    split
    · exact (ih _).cons x
    · exact (ih _).cons_cons x

/-- A position before the first one counted leaves nothing out. -/
theorem without_cons_of_lt (k : Nat) (ks : List Nat) (i : Nat) (l : List α) (h : k < i) :
    without (k :: ks) i l = without ks i l := by
  induction l generalizing i with
  | nil => rfl
  | cons x xs ih =>
    unfold without
    rw [ih _ (by omega)]
    simp only [List.mem_cons, show ¬ i = k by omega, false_or]

/-- The next element left out, or kept. -/
theorem without_drop_head (k : Nat) (ks : List Nat) (x : α) (xs : List α) :
    without (k :: ks) k (x :: xs) = without ks (k + 1) xs := by
  rw [without, if_pos (by simp), without_cons_of_lt _ _ _ _ (by omega)]

theorem without_keep_head (k : Nat) (ks : List Nat) (x : α) (xs : List α) (h : ∀ i ∈ ks, k + 1 ≤ i) :
    without ks k (x :: xs) = x :: without ks (k + 1) xs := by
  rw [without, if_neg (fun hk => absurd (h k hk) (by omega))]

/-- Strictly increasing positions within the list: each leaves out one element. -/
theorem without_length (ks : List Nat) (i : Nat) (l : List α) (hp : ks.Pairwise (· < ·))
    (hk : ∀ k ∈ ks, i ≤ k ∧ k < i + l.length) : (without ks i l).length + ks.length = l.length := by
  induction l generalizing ks i with
  | nil =>
    rcases ks with _ | ⟨k, ks⟩
    · rfl
    · have := hk k (by simp)
      simp only [List.length_nil] at this
      omega
  | cons x xs ih =>
    have keep : (∀ k ∈ ks, i + 1 ≤ k) → (without ks i (x :: xs)).length + ks.length = (x :: xs).length := fun h => by
      have := ih ks (i + 1) hp fun k m => ⟨h k m, by have := hk k m; simp only [List.length_cons] at this; omega⟩
      rw [without_keep_head _ _ _ _ h, List.length_cons, List.length_cons]; omega
    rcases ks with _ | ⟨k, ks⟩
    · exact keep (by simp)
    · have ⟨h1, h2⟩ := List.pairwise_cons.1 hp
      by_cases e : k = i
      · subst e
        have := ih ks (k + 1) h2 fun j m => ⟨h1 j m, by
          have := hk j (List.mem_cons_of_mem _ m); simp only [List.length_cons] at this; omega⟩
        rw [without_drop_head, List.length_cons, List.length_cons]; omega
      · refine keep fun j m => ?_
        have hi := (hk k (by simp)).1
        rcases List.mem_cons.1 m with rfl | m
        · omega
        · have := h1 j m; omega

theorem State.samples_no_write (s : State) (n : Nat) : (s.samples n).filter Transfer.isWrite = [] := by
  simp [State.samples, Transfer.isWrite]

theorem writeOf_isWrite (rs : Bool) (b : Byte) : (writeOf rs b).isWrite = true := by
  cases rs <;> rfl

/-- A poll with any answers: how many samples it took, and that it raised nothing. -/
theorem waitReady_trace (s : State) :
    ∃ n, (waitReady s).2.transfers = s.transfers ++ s.samples n ∧ (waitReady s).2.conditions = s.conditions
      ∧ (waitReady s).2.display = s.display ∧ (waitReady s).2.pins = s.pins.sampled := by
  unfold waitReady
  rcases (s.setPollCnt 0).ready_or_busy (s.cfg.pollBound - 1 + 1) with ⟨j, hj, hb, hr⟩ | hb
  · obtain ⟨_, h2, _, _, h5, _, h7, h8⟩ := pollFrom_ready (s.cfg.pollBound - 1) j (s.setPollCnt 0) (by omega) hb hr
    exact ⟨j + 1, by rw [h5]; rfl, by rw [h7]; rfl, by rw [h8]; rfl, by rw [h2]; rfl⟩
  · obtain ⟨_, h2, _, _, h5, _, h7, h8⟩ := pollFrom_timeout (s.cfg.pollBound - 1) (s.setPollCnt 0) hb
    exact ⟨_, by rw [h5]; rfl, by rw [h7]; rfl, by rw [h8]; rfl, by rw [h2]; rfl⟩

/-- A gated write sends its byte, or drops it and logs one timeout. -/
theorem writeByte_dropped (rs : Bool) (b : Byte) (p : Place) (s : State) :
    ∃ new drop, (writeByte rs b p s).transfers = s.transfers ++ new
      ∧ (writeByte rs b p s).conditions = s.conditions ++ (if drop = true then [.timeout p] else [])
      ∧ new.filter Transfer.isWrite = if drop = true then [] else [writeOf rs b] := by
  obtain ⟨n, ht, hc, _, _⟩ := waitReady_trace s
  rcases writeByte_cases rs b p s with ⟨_, h⟩ | ⟨_, h⟩ <;> rw [h]
  · exact ⟨s.samples n ++ [writeOf rs b], false, by rw [transfer_transfers, ht, List.append_assoc],
      by rw [transfer_conditions, hc]; simp, by simp [State.samples_no_write, writeOf_isWrite]⟩
  · exact ⟨s.samples n, true, by rw [State.raise_transfers, ht], by rw [State.raise_conditions, hc]; rfl,
      by simp [State.samples_no_write]⟩

/-- What a sequence of gated writes adds, the element at position `i` placed at `place i`: some positions, strictly
increasing, are dropped and logged, and the writes are the sequence without exactly these. -/
def Dropped (place : Nat → Place) (k : Nat) (issued : List Transfer) (s t : State) : Prop :=
  ∃ new ks, t.transfers = s.transfers ++ new ∧ t.conditions = s.conditions ++ ks.map (fun i => .timeout (place i))
    ∧ ks.Pairwise (· < ·) ∧ (∀ i ∈ ks, k ≤ i ∧ i < k + issued.length)
    ∧ new.filter Transfer.isWrite = without ks k issued

theorem Dropped.nil (place : Nat → Place) (k : Nat) (s : State) : Dropped place k [] s s :=
  ⟨[], [], by simp, by simp, List.Pairwise.nil, by simp, rfl⟩

/-- One gated write before the rest. -/
theorem Dropped.cons {place : Nat → Place} {k : Nat} {rs : Bool} {b : Byte} {rest : List Transfer} {s t : State}
    (h : Dropped place (k + 1) rest (writeByte rs b (place k) s) t) :
    Dropped place k (writeOf rs b :: rest) s t := by
  obtain ⟨a, drop, ta, ca, wa⟩ := writeByte_dropped rs b (place k) s
  obtain ⟨new, ks, tn, cn, hp, hk, wn⟩ := h
  have above : ∀ i ∈ ks, k + 1 ≤ i := fun i m => (hk i m).1
  have inside : ∀ i ∈ ks, k ≤ i ∧ i < k + (writeOf rs b :: rest).length := fun i m => by
    have := hk i m; simp only [List.length_cons]; omega
  rw [ta, List.append_assoc] at tn
  rw [ca, List.append_assoc] at cn
  cases drop with
  | true =>
    refine ⟨a ++ new, k :: ks, tn, by simpa using cn, List.pairwise_cons.2 ⟨above, hp⟩, fun i m => ?_, ?_⟩
    · rcases List.mem_cons.1 m with rfl | m
      · simp
      · exact inside i m
    · rw [List.filter_append, wa, wn, without_drop_head]; rfl
  | false =>
    refine ⟨a ++ new, ks, tn, by simpa using cn, hp, inside, ?_⟩
    rw [List.filter_append, wa, wn, without_keep_head _ _ _ _ above]; rfl

/-- `waitReady` that reports `Ready` leaves a ready sample last on the trace (20 R62). -/
theorem waitReady_ready_last (s : State) (h : (waitReady s).1 = .ready) :
    ∃ before v, (waitReady s).2.transfers = before ++ [.sts v] ∧ isBusy v = false :=
  pollFrom_ready_last _ _ h

/-! ## The handshake guarantee -/

theorem Handshaken.nil : Handshaken [] := fun pre w post h => by simp at h

theorem Handshaken.append_sample {l : List Transfer} (h : Handshaken l) (v : Byte) : Handshaken (l ++ [.sts v]) := by
  intro pre w post e hw
  rcases List.eq_nil_or_concat post with rfl | ⟨post, x, rfl⟩
  · have := List.append_inj' e rfl
    simp only [List.cons.injEq, and_true] at this
    rw [← this.2] at hw
    exact absurd hw (by simp [Transfer.isWrite])
  · have e' : l ++ [.sts v] = (pre ++ w :: post) ++ [x] := by rw [e]; simp
    exact h pre w post (List.append_inj' e' rfl).1 hw

theorem Handshaken.append_write {l : List Transfer} (h : Handshaken l) (w : Transfer)
    (r : ∃ before v, l = before ++ [.sts v] ∧ isBusy v = false) : Handshaken (l ++ [w]) := by
  intro pre x post e hx
  rcases List.eq_nil_or_concat post with rfl | ⟨post, y, rfl⟩
  · rw [← (List.append_inj' e rfl).1]; exact r
  · have e' : l ++ [w] = (pre ++ x :: post) ++ [y] := by rw [e]; simp
    exact h pre x post (List.append_inj' e' rfl).1 hx

theorem Handshaken.append_samples {l : List Transfer} (h : Handshaken l) (s : State) (n : Nat) :
    Handshaken (l ++ s.samples n) := by
  induction n with
  | zero => simpa [State.samples] using h
  | succ n ih =>
    have : s.samples (n + 1) = s.samples n ++ [.sts (s.answerAt n)] := by simp [State.samples, List.range_succ]
    rw [this, ← List.append_assoc]
    exact ih.append_sample _

/-- The relation "if the old trace is handshaken, so is the new one". -/
def KeepsHandshake (s t : State) : Prop := Handshaken s.transfers → Handshaken t.transfers

theorem waitReady_handshake (s : State) : KeepsHandshake s (waitReady s).2 := fun h => by
  obtain ⟨n, ht, _⟩ := waitReady_trace s
  rw [ht]; exact h.append_samples s n

theorem writeByte_handshake (rs : Bool) (b : Byte) (p : Place) (s : State) :
    KeepsHandshake s (writeByte rs b p s) := fun h => by
  rcases writeByte_cases rs b p s with ⟨hr, e⟩ | ⟨_, e⟩ <;> rw [e]
  · rw [transfer_transfers]
    exact (waitReady_handshake s h).append_write _ (waitReady_ready_last s hr)
  · exact waitReady_handshake s h

/-! ## Sequences of gated writes -/

theorem runInit_nil (k : Nat) (s : State) : runInit [] k s = s := rfl

theorem putCharacters_nil (i : Nat) (s : State) : putCharacters [] i s = s := rfl

/-- A relation kept by a gated write and by setting the counters is kept by the command phase of `PowerOn`. -/
theorem runInit_rel {R : State → State → Prop} (refl : ∀ s, R s s) (trans : ∀ {s t u}, R s t → R t u → R s u)
    (write : ∀ rs b p s, R s (writeByte rs b p s)) (index : ∀ s k e, R s (s.setInitIndex k e))
    (es : List InitEntry) (k : Nat) (s : State) : R s (runInit es k s) := by
  induction es generalizing k s with
  | nil => exact refl s
  | cons e es ih => exact trans (trans (index s k e) (write _ _ _ _)) (ih _ _)

/-- A relation kept by a gated write and by raising is kept by a text. -/
theorem putCharacters_rel {R : State → State → Prop} (refl : ∀ s, R s s) (trans : ∀ {s t u}, R s t → R t u → R s u)
    (write : ∀ rs b p s, R s (writeByte rs b p s)) (raised : ∀ s c, R s (s.raise c))
    (cs : List Byte) (i : Nat) (s : State) : R s (putCharacters cs i s) := by
  induction cs generalizing i s with
  | nil => exact refl s
  | cons c cs ih =>
    refine trans ?_ (ih (i + 1) _)
    unfold putCharacter
    split
    · exact write _ _ _ _
    · exact raised _ _

theorem putCharacter_powered (p : Place) (c : Byte) (s : State) (h : s.powered = true) :
    putCharacter p c s = writeByte true c p s := by
  unfold putCharacter; rw [if_pos h]

theorem State.readyTrace_shift (s t : State) (k : Nat) (ws : List Transfer)
    (h : ∀ i, t.answerAt i = s.answerAt (1 + i)) : t.readyTrace k ws = s.readyTrace (k + 1) ws := by
  induction ws generalizing k with
  | nil => rfl
  | cons w ws ih => simp only [State.readyTrace, ih, h, Nat.add_comm 1 k]

theorem State.ReadyFor.readyOn {s : State} {n : Nat} (h : s.ReadyFor n) (hn : 1 ≤ n) (hT : 1 ≤ s.cfg.pollBound) :
    s.ReadyOn 0 :=
  ⟨by omega, fun k hk => absurd hk (by omega), h 0 (by omega)⟩

theorem State.samples_one (s : State) : s.samples 1 = [.sts (s.answerAt 0)] := rfl

/-- The command phase against a display ready to every first sample (43 R149). -/
theorem runInit_ready (es : List InitEntry) (k : Nat) (s : State) (hT : 1 ≤ s.cfg.pollBound)
    (h : s.ReadyFor es.length) :
    (runInit es k s).transfers = s.transfers ++ s.readyTrace 0 (es.map InitEntry.transfer)
      ∧ (runInit es k s).conditions = s.conditions ∧ (runInit es k s).ticks = s.ticks + 2 * es.length
      ∧ (∀ i, (runInit es k s).answerAt i = s.answerAt (es.length + i))
      ∧ (∀ e, es.getLast? = some e → (runInit es k s).pins = s.pins.written e.rs e.byte
          ∧ (runInit es k s).status = s.answerAt (es.length - 1)) := by
  induction es generalizing k s with
  | nil => exact ⟨by simp [runInit, State.readyTrace], rfl, rfl, fun i => by simp [runInit], fun e he => by simp at he⟩
  | cons e es ih =>
    have ho : (s.setInitIndex k e).ReadyOn 0 := (State.ReadyFor.readyOn h (by simp) hT : s.ReadyOn 0)
    obtain ⟨w1, w2, _, w4, w5, w6, _, w8⟩ := writeByte_ready e.rs e.byte (.initStep k) (s.setInitIndex k e) 0 ho
    have hs : ∀ i, (writeByte e.rs e.byte (.initStep k) (s.setInitIndex k e)).answerAt i = s.answerAt (1 + i) :=
      fun i => by rw [w5]; simp
    have hc : (writeByte e.rs e.byte (.initStep k) (s.setInitIndex k e)).cfg = s.cfg :=
      (writeByte_control e.rs e.byte (.initStep k) (s.setInitIndex k e)).2.2.1
    obtain ⟨i1, i2, i3, i4, i5⟩ := ih (k + 1) (writeByte e.rs e.byte (.initStep k) (s.setInitIndex k e))
      (by rw [hc]; exact hT) (fun i hi => by rw [hs]; exact h _ (by simp; omega))
    simp only [runInit]
    refine ⟨?_, by rw [i2, w6]; rfl, ?_, fun i => ?_, fun x hx => ?_⟩
    · rw [i1, w4, State.readyTrace_shift s _ 0 _ hs]
      simp [State.readyTrace, State.samples_one, InitEntry.transfer]
    · rw [i3, w8, State.ticks_congr (State.setInitIndex_waveform _ _ _), List.length_cons]; omega
    · rw [i4, hs, List.length_cons]; congr 1; omega
    · rcases es with _ | ⟨e', es⟩
      · simp only [List.getLast?_singleton, Option.some.injEq] at hx
        subst hx
        exact ⟨by rw [runInit_nil, w1]; rfl, by rw [runInit_nil, w2]; rfl⟩
      · obtain ⟨p, q⟩ := i5 x (by simpa using hx)
        refine ⟨by rw [p, w1]; rfl, ?_⟩
        rw [q, hs]; congr 1; simp only [List.length_cons]; omega

/-- The display record after the command phase against a ready display: one latch per entry, in order. -/
theorem runInit_ready_display (es : List InitEntry) (k : Nat) (s : State) (hT : 1 ≤ s.cfg.pollBound)
    (h : s.ReadyFor es.length) :
    (runInit es k s).display = es.foldl (fun d e => d.latch s.pins.supplied e.rs e.byte) s.display := by
  induction es generalizing k s with
  | nil => rfl
  | cons e es ih =>
    have ho : (s.setInitIndex k e).ReadyOn 0 := (State.ReadyFor.readyOn h (by simp) hT : s.ReadyOn 0)
    obtain ⟨w1, _, _, _, w5, _, w7, _⟩ := writeByte_ready e.rs e.byte (.initStep k) (s.setInitIndex k e) 0 ho
    have hs : ∀ i, (writeByte e.rs e.byte (.initStep k) (s.setInitIndex k e)).answerAt i = s.answerAt (1 + i) :=
      fun i => by rw [w5]; simp
    have hc : (writeByte e.rs e.byte (.initStep k) (s.setInitIndex k e)).cfg = s.cfg :=
      (writeByte_control e.rs e.byte (.initStep k) (s.setInitIndex k e)).2.2.1
    simp only [runInit, List.foldl_cons]
    rw [ih (k + 1) _ (by rw [hc]; exact hT) (fun i hi => by rw [hs]; exact h _ (by simp; omega)), w1, w7]
    rfl

/-- The command phase against a display busy throughout: samples only (43 R152). -/
theorem runInit_busy (es : List InitEntry) (k : Nat) (s : State) (hT : 1 ≤ s.cfg.pollBound)
    (h : s.BusyFor (es.length * s.cfg.pollBound)) :
    (runInit es k s).transfers = s.transfers ++ s.samples (es.length * s.cfg.pollBound)
      ∧ (es ≠ [] → (runInit es k s).pins = s.pins.sampled) := by
  induction es generalizing k s with
  | nil => exact ⟨by simp [runInit, State.samples], fun h => absurd rfl h⟩
  | cons e es ih =>
    have hmul : (e :: es).length * s.cfg.pollBound = s.cfg.pollBound + es.length * s.cfg.pollBound := by
      simp [Nat.succ_mul, Nat.add_comm]
    obtain ⟨w1, _, _, w4, w5, _, _, _⟩ := writeByte_timeout e.rs e.byte (.initStep k) (s.setInitIndex k e) hT
      (fun i hi => h i (by have : (s.setInitIndex k e).cfg = s.cfg := rfl
                           rw [this] at hi; omega))
    have hc : (writeByte e.rs e.byte (.initStep k) (s.setInitIndex k e)).cfg = s.cfg :=
      (writeByte_control e.rs e.byte (.initStep k) (s.setInitIndex k e)).2.2.1
    have hs : ∀ i, (writeByte e.rs e.byte (.initStep k) (s.setInitIndex k e)).answerAt i
        = s.answerAt (s.cfg.pollBound + i) := fun i => by rw [w5]; rfl
    obtain ⟨i1, i2⟩ := ih (k + 1) (writeByte e.rs e.byte (.initStep k) (s.setInitIndex k e))
      (by rw [hc]; exact hT) (fun i hi => by rw [hs]; exact h _ (by rw [hc] at hi; omega))
    simp only [runInit]
    refine ⟨?_, fun _ => ?_⟩
    · rw [i1, w4, hc, hmul]
      simp [State.samples, List.range_add, hs, Function.comp_def]
    · rcases es with _ | ⟨e', es⟩
      · rw [runInit_nil, w1]; rfl
      · rw [i2 (by simp), w1]; rfl

/-- The command phase against any display (43 R152, 60 R192). -/
theorem runInit_dropped (es : List InitEntry) (k : Nat) (s : State) :
    Dropped .initStep k (es.map InitEntry.transfer) s (runInit es k s) := by
  induction es generalizing k s with
  | nil => exact Dropped.nil _ _ _
  | cons e es ih =>
    exact Dropped.cons (s := s.setInitIndex k e) (ih (k + 1) (writeByte e.rs e.byte (.initStep k) (s.setInitIndex k e)))

/-- A text against a display ready to every first sample (44 R170). -/
theorem putCharacters_ready (cs : List Byte) (i : Nat) (s : State) (hp : s.powered = true) (hT : 1 ≤ s.cfg.pollBound)
    (h : s.ReadyFor cs.length) :
    (putCharacters cs i s).transfers = s.transfers ++ s.readyTrace 0 (cs.map Transfer.dat)
      ∧ (putCharacters cs i s).conditions = s.conditions ∧ (putCharacters cs i s).ticks = s.ticks + 2 * cs.length
      ∧ (∀ c, cs.getLast? = some c → (putCharacters cs i s).pins = s.pins.written true c)
      ∧ (putCharacters cs i s).display = cs.foldl (fun d c => d.latch s.pins.supplied true c) s.display := by
  induction cs generalizing i s with
  | nil => exact ⟨by simp [putCharacters, State.readyTrace], rfl, rfl, fun c hc => by simp at hc, rfl⟩
  | cons c cs ih =>
    obtain ⟨w1, _, _, w4, w5, w6, w7, w8⟩ :=
      writeByte_ready true c (.character i) s 0 (State.ReadyFor.readyOn h (by simp) hT)
    have hs : ∀ k, (writeByte true c (.character i) s).answerAt k = s.answerAt (1 + k) := fun k => by rw [w5]
    have hc := writeByte_control true c (.character i) s
    obtain ⟨i1, i2, i3, i4, i5⟩ := ih (i + 1) (writeByte true c (.character i) s) (by rw [hc.2.1]; exact hp)
      (by rw [hc.2.2.1]; exact hT) (fun k hk => by rw [hs]; exact h _ (by simp; omega))
    simp only [putCharacters, putCharacter_powered _ _ s hp]
    refine ⟨?_, by rw [i2, w6], ?_, fun x hx => ?_, ?_⟩
    · rw [i1, w4, State.readyTrace_shift s _ 0 _ hs]
      simp [State.readyTrace, State.samples_one, writeOf]
    · rw [i3, w8, List.length_cons]; omega
    · rcases cs with _ | ⟨c', cs⟩
      · simp only [List.getLast?_singleton, Option.some.injEq] at hx
        subst hx
        rw [putCharacters_nil, w1]
      · rw [i4 x (by simpa using hx), w1]; rfl
    · rw [i5, w1, w7]; rfl

/-- A text against any display (44 R175). -/
theorem putCharacters_dropped (cs : List Byte) (i : Nat) (s : State) (hp : s.powered = true) :
    Dropped .character i (cs.map Transfer.dat) s (putCharacters cs i s) := by
  induction cs generalizing i s with
  | nil => exact Dropped.nil _ _ _
  | cons c cs ih =>
    have hc := writeByte_control true c (.character i) s
    simp only [putCharacters, putCharacter_powered _ _ s hp]
    exact Dropped.cons (rs := true) (b := c) (ih (i + 1) _ (by rw [hc.2.1]; exact hp))

/-! ## The pin phases of the sequencer -/

/-- The pins after the power-up phase (43 R147). -/
theorem powerUpPhase_pins (s : State) : (powerUpPhase s).pins
    = ⟨.output, 0x00#8, false, false, false, true, .output, .output, .output, .output⟩ := by
  simp [powerUpPhase, configPin_eq, setBusDirection, writeBus, delayMs]

/-- The pins after the power-down phase (43 R154). -/
theorem powerDownPhase_pins (s : State) : (powerDownPhase s).pins
    = ⟨.output, 0x00#8, false, false, false, false, .output, .output, .output, .output⟩ := by
  simp [powerDownPhase, configPin_eq, setBusDirection, writeBus]

/-- A pin access adds its entry, unless the pins already show its effect. -/
theorem State.drive_entry (s : State) (ev : PinEvent) (already : Bool) (h : s.pins.after ev = s.pins ↔ already = true) :
    (s.drive ev).waveform = s.waveform ++ entryUnless already ev := by
  rw [State.drive_waveform, entryUnless]
  by_cases e : already = true
  · rw [if_pos (h.2 e), if_pos e]
  · rw [if_neg fun k => e (h.1 k), if_neg e]

/-- The pins already show an access exactly if the fields it writes hold its values. -/
theorem Pins.after_eq_self (p : Pins) :
    (∀ l, p.after (.cfg .e l) = p ↔ (p.dirE == .output && p.e == l) = true)
      ∧ (∀ l, p.after (.cfg .rw l) = p ↔ (p.dirRw == .output && p.rw == l) = true)
      ∧ (∀ l, p.after (.cfg .rs l) = p ↔ (p.dirRs == .output && p.rs == l) = true)
      ∧ (∀ l, p.after (.cfg .pwr l) = p ↔ (p.dirPwr == .output && p.pwr == l) = true)
      ∧ (∀ d, p.after (.busDir d) = p ↔ (p.busDir == dirValue d) = true)
      ∧ ∀ b, p.after (.bus b) = p ↔ (p.busOut == b) = true := by
  obtain ⟨busDir, busOut, e, rw, rs, pwr, dirE, dirRw, dirRs, dirPwr⟩ := p
  refine ⟨?_, ?_, ?_, ?_, ?_, ?_⟩ <;> intro x <;> simp <;> tauto

/-! The entry of each access of a pin phase. -/

theorem configPin_waveform (p : Pin) (l : Bool) (s : State) :
    (configPin p l s).waveform = (s.drive (.cfg p l)).waveform := by
  rw [configPin_eq, State.setDisplay_waveform]
theorem configPin_e_waveform (l : Bool) (s : State) : (configPin .e l s).waveform
    = s.waveform ++ entryUnless (s.pins.dirE == .output && s.pins.e == l) (.cfg .e l) := by
  rw [configPin_waveform]; exact s.drive_entry _ _ (s.pins.after_eq_self.1 l)
theorem configPin_rw_waveform (l : Bool) (s : State) : (configPin .rw l s).waveform
    = s.waveform ++ entryUnless (s.pins.dirRw == .output && s.pins.rw == l) (.cfg .rw l) := by
  rw [configPin_waveform]; exact s.drive_entry _ _ (s.pins.after_eq_self.2.1 l)
theorem configPin_rs_waveform (l : Bool) (s : State) : (configPin .rs l s).waveform
    = s.waveform ++ entryUnless (s.pins.dirRs == .output && s.pins.rs == l) (.cfg .rs l) := by
  rw [configPin_waveform]; exact s.drive_entry _ _ (s.pins.after_eq_self.2.2.1 l)
theorem configPin_pwr_waveform (l : Bool) (s : State) : (configPin .pwr l s).waveform
    = s.waveform ++ entryUnless (s.pins.dirPwr == .output && s.pins.pwr == l) (.cfg .pwr l) := by
  rw [configPin_waveform]; exact s.drive_entry _ _ (s.pins.after_eq_self.2.2.2.1 l)
theorem setBusDirection_waveform (d : Dir) (s : State) : (setBusDirection d s).waveform
    = s.waveform ++ entryUnless (s.pins.busDir == dirValue d) (.busDir d) :=
  s.drive_entry _ _ (s.pins.after_eq_self.2.2.2.2.1 d)
theorem writeBus_waveform (b : Byte) (s : State) : (writeBus b s).waveform
    = s.waveform ++ entryUnless (s.pins.busOut == b) (.bus b) :=
  s.drive_entry _ _ (s.pins.after_eq_self.2.2.2.2.2 b)
theorem setBusDirection_pins (d : Dir) (s : State) : (setBusDirection d s).pins = s.pins.after (.busDir d) :=
  s.drive_pins _
theorem writeBus_pins (b : Byte) (s : State) : (writeBus b s).pins = s.pins.after (.bus b) := s.drive_pins _
theorem configPin_pins (p : Pin) (l : Bool) (s : State) : (configPin p l s).pins = s.pins.after (.cfg p l) := by
  rw [configPin_eq, State.setDisplay_pins, State.drive_pins]

/-- The entries of the power-down phase, from any pins (43 R154). -/
theorem powerDownPhase_waveform (s : State) : (powerDownPhase s).waveform
    = s.waveform ++ entryUnless (s.pins.busDir == .output) (.busDir .output)
        ++ entryUnless (s.pins.busOut == 0x00#8) (.bus 0x00#8)
        ++ entryUnless (s.pins.dirE == .output && s.pins.e == false) (.cfg .e false)
        ++ entryUnless (s.pins.dirRw == .output && s.pins.rw == false) (.cfg .rw false)
        ++ entryUnless (s.pins.dirRs == .output && s.pins.rs == false) (.cfg .rs false)
        ++ entryUnless (s.pins.dirPwr == .output && s.pins.pwr == false) (.cfg .pwr false) := by
  unfold powerDownPhase
  dsimp only
  rw [configPin_pwr_waveform, configPin_rs_waveform, configPin_rw_waveform, configPin_e_waveform, writeBus_waveform,
    setBusDirection_waveform]
  simp only [configPin_pins, writeBus_pins, setBusDirection_pins, Pins.after_cfgE, Pins.after_cfgRw, Pins.after_cfgRs,
    Pins.after_bus, Pins.after_busDir, dirValue_output]

/-- The power-down phase loses the display, unless the supply was already off (60 R202; log 14, log 29). -/
theorem powerDownPhase_display (s : State) :
    (powerDownPhase s).display = if s.pins.supply = some false then s.display else s.display.lost := by
  unfold powerDownPhase setBusDirection writeBus
  dsimp only
  rw [configPin_eq .pwr, State.setDisplay_display]
  simp only [configPin_line .e _ _ (by decide), configPin_line .rw _ _ (by decide), configPin_line .rs _ _ (by decide),
    State.drive_display, State.drive_pins]
  have h : ∀ p : Pins, ((((((p.after (.busDir .output)).after (.bus 0x00#8)).after (.cfg .e false)).after
      (.cfg .rw false)).after (.cfg .rs false)).supply = p.supply) := fun p => rfl
  have h' : ∀ p : Pins, (p.after (.cfg .pwr false)).supply = some false := fun p => by simp [Pins.supply]
  rw [h, h']
  simp only [eq_comm]

/-- Everything a pin phase leaves alone: all but the pins, the waveform and the display record. -/
def SamePinPhase (s t : State) : Prop :=
  SameControl s t ∧ t.status = s.status ∧ t.pollCnt = s.pollCnt ∧ t.answers = s.answers ∧ t.reads = s.reads
    ∧ t.transfers = s.transfers ∧ t.conditions = s.conditions ∧ t.ticks = s.ticks

theorem SamePinPhase.trans {s t u : State} (h : SamePinPhase s t) (k : SamePinPhase t u) : SamePinPhase s u := by
  obtain ⟨h1, h2, h3, h4, h5, h6, h7, h8⟩ := h
  obtain ⟨k1, k2, k3, k4, k5, k6, k7, k8⟩ := k
  exact ⟨h1.trans k1, k2.trans h2, k3.trans h3, k4.trans h4, k5.trans h5, k6.trans h6, k7.trans h7, k8.trans h8⟩

theorem drive_samePinPhase (s : State) (ev : PinEvent) (h : ev ≠ .tick) : SamePinPhase s (s.drive ev) :=
  ⟨by simp [SameControl], by simp, by simp, by simp, by simp, by simp, by simp, s.drive_ticks ev h⟩

theorem configPin_samePinPhase (p : Pin) (l : Bool) (s : State) : SamePinPhase s (configPin p l s) := by
  rw [configPin_eq]
  exact (drive_samePinPhase s (.cfg p l) (by simp)).trans
    ⟨by simp [SameControl], rfl, rfl, rfl, rfl, rfl, rfl, State.ticks_congr rfl⟩

theorem delayMs_samePinPhase (n : Nat) (s : State) : SamePinPhase s (delayMs n s) :=
  ⟨by simp [SameControl, delayMs], rfl, rfl, rfl, rfl, rfl, rfl, by unfold delayMs; rw [State.observe_ticks]; simp⟩

theorem delayMs_traced (n : Nat) (s : State) : Traced s (delayMs n s) := Traced.observe s _ fun p => p.after_ms n

theorem delayMs_enableRests (n : Nat) (s : State) : EnableRests s (delayMs n s) := fun e =>
  ⟨Clean.observe s _ (fun p => p.after_ms n) (by simp [e]), e⟩

theorem powerUpPhase_same (s : State) : SamePinPhase s (powerUpPhase s) := by
  have h1 := ((configPin_samePinPhase .e false s).trans (configPin_samePinPhase .rw false _)).trans
    (configPin_samePinPhase .rs false _)
  have h2 := (h1.trans (drive_samePinPhase _ (.busDir .output) (by simp))).trans
    (drive_samePinPhase _ (.bus 0x00#8) (by simp))
  have h3 := h2.trans (configPin_samePinPhase .pwr true _)
  unfold powerUpPhase setBusDirection writeBus
  exact h3.trans (delayMs_samePinPhase _ _)

theorem powerDownPhase_same (s : State) : SamePinPhase s (powerDownPhase s) := by
  have h1 := (drive_samePinPhase s (.busDir .output) (by simp)).trans (drive_samePinPhase _ (.bus 0x00#8) (by simp))
  have h2 := ((h1.trans (configPin_samePinPhase .e false _)).trans (configPin_samePinPhase .rw false _)).trans
    (configPin_samePinPhase .rs false _)
  have h3 := h2.trans (configPin_samePinPhase .pwr false _)
  unfold powerDownPhase setBusDirection writeBus
  exact h3

/-- The entries of the power-up phase, from any pins (43 R147). -/
theorem powerUpPhase_waveform (s : State) : (powerUpPhase s).waveform
    = s.waveform ++ (entryUnless (s.pins.dirE == .output && s.pins.e == false) (.cfg .e false)
        ++ entryUnless (s.pins.dirRw == .output && s.pins.rw == false) (.cfg .rw false)
        ++ entryUnless (s.pins.dirRs == .output && s.pins.rs == false) (.cfg .rs false)
        ++ entryUnless (s.pins.busDir == .output) (.busDir .output)
        ++ entryUnless (s.pins.busOut == 0x00#8) (.bus 0x00#8)
        ++ entryUnless (s.pins.dirPwr == .output && s.pins.pwr == true) (.cfg .pwr true))
      ++ [.ms s.cfg.powerupSettleMs] := by
  have hc : (powerUpPhase s).cfg = s.cfg := (powerUpPhase_same s).1.2.2.1
  unfold powerUpPhase delayMs at hc ⊢
  dsimp only at hc ⊢
  rw [State.observe_cfg] at hc
  rw [State.observe_waveform, hc, configPin_pwr_waveform, writeBus_waveform, setBusDirection_waveform,
    configPin_rs_waveform, configPin_rw_waveform, configPin_e_waveform]
  simp only [configPin_pins, writeBus_pins, setBusDirection_pins, Pins.after_cfgE, Pins.after_cfgRw, Pins.after_cfgRs,
    Pins.after_bus, Pins.after_busDir, dirValue_output, List.append_assoc]

theorem configPin_traced (p : Pin) (l : Bool) (s : State) : Traced s (configPin p l s) := by
  rw [configPin_eq]
  exact (Traced.drive s (.cfg p l)).trans
    (Traced.of_eq (State.setDisplay_pins _ _) (State.setDisplay_waveform _ _))

theorem powerUpPhase_traced (s : State) : Traced s (powerUpPhase s) := by
  have h1 := ((configPin_traced .e false s).trans (configPin_traced .rw false _)).trans (configPin_traced .rs false _)
  have h2 := (h1.trans (Traced.drive _ (.busDir .output))).trans (Traced.drive _ (.bus 0x00#8))
  have h3 := h2.trans (configPin_traced .pwr true _)
  unfold powerUpPhase setBusDirection writeBus
  exact h3.trans (delayMs_traced _ _)

theorem powerDownPhase_traced (s : State) : Traced s (powerDownPhase s) := by
  have h1 := (Traced.drive s (.busDir .output)).trans (Traced.drive _ (.bus 0x00#8))
  have h2 := ((h1.trans (configPin_traced .e false _)).trans (configPin_traced .rw false _)).trans
    (configPin_traced .rs false _)
  have h3 := h2.trans (configPin_traced .pwr false _)
  unfold powerDownPhase setBusDirection writeBus
  exact h3

theorem configPin_enableRests (p : Pin) (s : State) (l : Bool) (h : p = .e → l = false) :
    EnableRests s (configPin p l s) := fun e => by
  rw [configPin_eq]
  refine ⟨(Clean.drive s (.cfg p l) (by simp [e])).trans
    (Clean.of_eq (State.setDisplay_pins _ _) (State.setDisplay_waveform _ _)), ?_⟩
  rw [State.setDisplay_pins, State.drive_pins]
  cases p <;> simp_all

theorem drive_enableRests (s : State) (ev : PinEvent) (h : ∀ p : Pins, p.e = false → (p.after ev).e = false) :
    EnableRests s (s.drive ev) := fun e =>
  ⟨Clean.drive s ev (by simp [e]), by rw [State.drive_pins]; exact h _ e⟩

theorem powerUpPhase_enableRests (s : State) : EnableRests s (powerUpPhase s) := by
  have h1 := ((configPin_enableRests .e s false (fun _ => rfl)).trans
    (configPin_enableRests .rw _ false (fun _ => rfl))).trans (configPin_enableRests .rs _ false (fun _ => rfl))
  have h2 := (h1.trans (drive_enableRests _ (.busDir .output) (fun _ h => h))).trans
    (drive_enableRests _ (.bus 0x00#8) (fun _ h => h))
  have h3 := h2.trans (configPin_enableRests .pwr _ true (fun h => by simp at h))
  unfold powerUpPhase setBusDirection writeBus
  exact h3.trans (delayMs_enableRests _ _)

theorem powerDownPhase_enableRests (s : State) : EnableRests s (powerDownPhase s) := by
  have h1 := (drive_enableRests s (.busDir .output) (fun _ h => h)).trans
    (drive_enableRests _ (.bus 0x00#8) (fun _ h => h))
  have h2 := ((h1.trans (configPin_enableRests .e _ false (fun _ => rfl))).trans
    (configPin_enableRests .rw _ false (fun _ => rfl))).trans (configPin_enableRests .rs _ false (fun _ => rfl))
  have h3 := h2.trans (configPin_enableRests .pwr _ false (fun _ => rfl))
  unfold powerDownPhase setBusDirection writeBus
  exact h3

/-! ## The sequencer whole -/

/-- A relation that each piece keeps is kept by `PowerOn`. -/
theorem powerOn_rel {R : State → State → Prop} (refl : ∀ s, R s s) (trans : ∀ {s t u}, R s t → R t u → R s u)
    (seq : ∀ s q, R s (s.setSeq q)) (powered : ∀ s, R s (s.setPowered true)) (up : ∀ s, R s (powerUpPhase s))
    (write : ∀ rs b p s, R s (writeByte rs b p s)) (index : ∀ s k e, R s (s.setInitIndex k e)) (s : State) :
    R s (powerOn s) := by
  have h := trans (seq s .powering) (up _)
  have k := trans h (runInit_rel (R := R) refl trans write index (initTable (powerUpPhase (s.setSeq .powering)).cfg) 0 _)
  exact trans (trans k (powered _)) (seq _ _)

/-- `PowerOn` as its three parts, the table taken from the constants it starts with (43 R146). -/
theorem powerOn_eq (s : State) : powerOn s
    = ((runInit (initTable s.cfg) 0 (powerUpPhase (s.setSeq .powering))).setPowered true).setSeq .ready := by
  have h : (powerUpPhase (s.setSeq .powering)).cfg = s.cfg := (powerUpPhase_same (s.setSeq .powering)).1.2.2.1
  unfold powerOn
  dsimp only
  rw [h]

/-- A relation that each piece keeps is kept by `PowerOff`. -/
theorem powerOff_rel {R : State → State → Prop} (trans : ∀ {s t u}, R s t → R t u → R s u)
    (seq : ∀ s q, R s (s.setSeq q)) (powered : ∀ s, R s (s.setPowered false)) (down : ∀ s, R s (powerDownPhase s))
    (s : State) : R s (powerOff s) :=
  trans (trans (powered s) (down _)) (seq _ _)

/-- A `BUS10` write frame runs only with a ready sample last on the trace (log 15). -/
theorem State.handshakeReady_iff (s : State) :
    s.handshakeReady = true ↔ ∃ before v, s.transfers = before ++ [.sts v] ∧ isBusy v = false := by
  unfold State.handshakeReady
  refine ⟨fun h => ?_, fun ⟨l, v, e, hv⟩ => by simp [e, hv]⟩
  rcases List.eq_nil_or_concat s.transfers with e | ⟨l, x, e⟩ <;> rw [e] at h
  · simp at h
  · cases x with
    | cmd => simp at h
    | dat => simp at h
    | sts v => exact ⟨l, v, by simpa using e, by simpa using h⟩

/-! ## What one operation can do to the state -/

/-- The state `exec` goes on to, by the shape of the operation: every relation that the pieces keep is kept by every
operation that completes. The pieces: a status sample under any answers, a gated write, a write phase after a ready
sample, raising a condition, one pin access, one bus read, and the two sequencer operations. -/
theorem exec_rel {R : State → State → Prop} (refl : ∀ s, R s s) (trans : ∀ {s t u}, R s t → R t u → R s u)
    (on : ∀ s, R s (powerOn s)) (off : ∀ s, R s (powerOff s))
    (write : ∀ rs b p s, R s (writeByte rs b p s)) (raised : ∀ s c, R s (s.raise c))
    (wait : ∀ s, R s (waitReady s).2) (sample : ∀ s, R s (sampleStatus s))
    (answer : ∀ (s : State) v, R s { s with answers := v :: s.answers })
    (access : ∀ s ev, ((∃ d, ev = .busDir d) ∨ (∃ b, ev = .bus b) ∨ (∃ l v, ev = .line l v)) → R s (s.drive ev))
    (read : ∀ s, R s (readBus s))
    (frame : ∀ rs b s, s.handshakeReady = true → R s (transfer rs b s))
    (i : Instr) (s t : State) (h : exec i s = .next t) : R s t := by
  have lines : ∀ u v : State, whenLinesDriven u v = .next t → t = v := fun u v hv => by
    rcases whenLinesDriven_cases u v with ⟨_, e⟩ | ⟨_, l, e⟩ <;> rw [e] at hv
    · exact (Host.Outcome.next.inj hv).symm
    · exact absurd hv (by simp)
  have command : ∀ b, sendCommand b s = .next t → R s t := fun b hb => by
    rw [lines _ _ hb]; exact write _ _ _ _
  have contract : ∀ k, raiseContract k s = .next t → R s t := fun k hk => by
    unfold raiseContract at hk
    split at hk
    · exact absurd hk (by simp)
    · rw [← Host.Outcome.next.inj hk]; exact raised _ _
  have chars : ∀ cs n u, R u (putCharacters cs n u) := putCharacters_rel refl trans write raised
  have char : ∀ p c u, R u (putCharacter p c u) := fun p c u => by
    unfold putCharacter; split
    · exact write _ _ _ _
    · exact raised _ _
  have frames : ∀ rs b, writeFrame rs b s = .next t → R s t := fun rs b hf => by
    unfold writeFrame at hf
    split at hf
    · exact absurd hf (by simp)
    · split at hf
      · next hr => rw [← Host.Outcome.next.inj hf]; exact frame rs b s hr
      · exact absurd hf (by simp)
  cases i with
  | powerOn => rw [← Host.Outcome.next.inj h]; exact on s
  | powerOff => rw [← Host.Outcome.next.inj h]; exact off s
  | writeCmd b => exact command b h
  | writeData b => rw [lines _ _ h]; exact write _ _ _ _
  | gotoxy x y =>
    simp only [exec, execGotoxy, whenPowered] at h
    split at h
    · split at h
      · rw [lines _ _ h]; exact write _ _ _ _
      · exact contract _ h
    · rw [← Host.Outcome.next.inj h]; exact raised _ _
  | putc c =>
    simp only [exec, execPutc, whenPowered] at h
    split at h
    · rw [lines _ _ h]; exact char _ _ _
    · rw [← Host.Outcome.next.inj h]; exact raised _ _
  | puts text =>
    simp only [exec, execPuts, whenPowered] at h
    split at h
    · cases text with
      | nil => rw [← Host.Outcome.next.inj h]; exact refl s
      | cons c cs => rw [lines _ _ h]; exact chars _ _ _
    · rw [← Host.Outcome.next.inj h]; exact raised _ _
  | writeLine n text =>
    simp only [exec, execWriteLine, whenPowered] at h
    split at h
    · split at h
      · rw [lines _ _ h]; exact trans (write _ _ _ _) (chars _ _ _)
      · exact contract _ h
    · rw [← Host.Outcome.next.inj h]; exact raised _ _
  | sampleStatus => rw [lines _ _ h]; exact sample s
  | waitReady => rw [lines _ _ h]; exact wait s
  | setBusDir d => rw [← Host.Outcome.next.inj h]; exact access s _ (.inl ⟨d, rfl⟩)
  | writeBus b =>
    simp only [exec, execWriteBus, checkedWriteBus] at h
    split at h <;> rename_i h' <;> split at h' <;> simp at h'
    · rw [← Host.Outcome.next.inj h, ← h']; exact access s _ (.inr (.inl ⟨b, rfl⟩))
    · exact absurd h (by simp)
  | readBus =>
    simp only [exec, execReadBus, checkedReadBus] at h
    split at h <;> rename_i h' <;> split at h' <;> simp at h'
    · rw [← Host.Outcome.next.inj h, ← h'.2]; exact read s
    · exact absurd h (by simp)
  | setCtl l v =>
    simp only [exec, execSetCtl, checkedSetControlLine] at h
    split at h <;> rename_i h' <;> split at h' <;> simp at h'
    · rw [← Host.Outcome.next.inj h, ← h']; exact access s _ (.inr (.inr ⟨l, v, rfl⟩))
    · exact absurd h (by simp)
  | busCmd b => exact frames _ _ h
  | busDat b => exact frames _ _ h
  | busSts v => rw [lines _ _ h]; exact trans (answer s v) (sample _)
  | lcdFuncsetIs1 => exact command _ h
  | lcdBias => exact command _ h
  | lcdPwrContrastHi c => exact command _ h
  | lcdFollower => exact command _ h
  | lcdContrastLo c => exact command _ h
  | lcdFuncsetIs0 => exact command _ h
  | lcdSetCgram a => exact command _ h
  | lcdDisplayOn => exact command _ h
  | lcdClear => exact command _ h
  | lcdEntryInc => exact command _ h
  | lcdSetDdram a => exact command _ h

end Sys2Proof.Machine
end

