-- ==== Sys2Proof/Laws/Decode.lean ====
section
/-! SUPPORT. What decoding a display command can do: the command read from a byte sends that byte, under every
configuration; and the default command bytes tell the commands of a table apart. -/

namespace Sys2Proof.Laws

open Sys2Proof Sys2Proof.Machine

/-- A byte split by a mask: the bits outside the field, and the field put back. -/
theorem insert_field (n : Nat) (hn : n ≤ 8) (b : Byte) :
    b &&& (BitVec.allOnes 8 <<< n) ||| (b.extractLsb' 0 n).setWidth 8 = b := by
  apply BitVec.eq_of_getLsbD_eq
  intro k hk
  simp only [BitVec.getLsbD_or, BitVec.getLsbD_and, BitVec.getLsbD_shiftLeft, BitVec.getLsbD_allOnes,
    BitVec.getLsbD_setWidth, BitVec.getLsbD_extractLsb']
  by_cases h : k < n
  · simp [hk, h]
  · simp [hk, h]; omega

/-- A common command is a command of the byte it was read from. -/
theorem decodeCommonCommand_sends {c : Config} {b : Byte} {i : Instr} (h : decodeCommonCommand c b = some i) :
    commandByte c i = some b := by
  unfold decodeCommonCommand at h
  repeat' split at h
  all_goals cases h
  all_goals rename_i hm
  all_goals first
    | (rw [commandByte, ← hm]; done)
    | (rw [commandByte, ← hm]; exact congrArg some (insert_field 7 (by decide) b))

/-- So is a command of one table alone. -/
theorem decodeTableCommand_sends {c : Config} {t : InstructionTable} {b : Byte} {i : Instr}
    (h : decodeTableCommand c t b = some i) : commandByte c i = some b := by
  unfold decodeTableCommand at h
  repeat' split at h
  all_goals cases h
  all_goals rename_i hm
  all_goals first
    | (rw [commandByte, ← hm]; done)
    | (rw [commandByte, ← hm]; exact congrArg some (insert_field 2 (by decide) b))
    | (rw [commandByte, ← hm]; exact congrArg some (insert_field 4 (by decide) b))
    | (rw [commandByte, ← hm]; exact congrArg some (insert_field 6 (by decide) b))

/-- Whatever command a byte is read as, that command sends the byte (30 R89d: passed through unchanged). -/
theorem decodeCommand_sends {c : Config} {t : InstructionTable} {b : Byte} {i : Instr}
    (h : decodeCommand c t b = some i) : commandByte c i = some b := by
  unfold decodeCommand at h
  split at h
  · rename_i j hj; cases h; exact decodeCommonCommand_sends hj
  · exact decodeTableCommand_sends h

/-- A byte on the command port decodes to its command, or else to WRITE_CMD of it. -/
theorem decode_commandRequest (c : Config) (t : InstructionTable) (b : Byte) :
    decode c (commandRequest t b) = .ok ((decodeCommand c t b).getD (.writeCmd b)) := by
  have arg : reqArg (frame 0#8 b) = b := by revert b; decide
  have top : (frame 0#8 b).extractLsb' 8 8 = 0#8 := by revert b; decide
  simp [decode, commandRequest, decodeLcd8, arg, top]

/-- The default bytes of 00 R6 tell the commands of each table apart. -/
theorem commandsDistinct_of_default {c : Config} (h : UsesDefaultCommands c) : CommandsDistinct c := by
  obtain ⟨h1, h2, h3, h4, h5, h6, h7, h8, h9, h10, h11⟩ := h
  simp only [CommandsDistinct, commandRows, h1, h2, h3, h4, h5, h6, h7, h8, h9, h10, h11]
  decide

end Sys2Proof.Laws
end

