-- ==== Sys2Proof/Laws/PerInstr.lean ====
section
/-! SUPPORT. The laws stated per instruction: at the configuration of reset, whose command bytes are the table's (00 R6),
the encoded word of every operation has the fixed bits of its row of spec/opcode_table.json. -/

namespace Sys2Proof.Laws.EncodedForm

/-- The bits the opcode table fixes for a row (its column `mask`). -/
def fixedMask : Instr → BitVec 16
  | .powerOn => 0xFFFF#16
  | .powerOff => 0xFFFF#16
  | .writeCmd _ => 0xFF00#16
  | .writeData _ => 0xFF00#16
  | .gotoxy _ _ => 0xF000#16
  | .putc _ => 0xFF00#16
  | .puts _ => 0xFFFF#16
  | .writeLine _ _ => 0xF0FF#16
  | .sampleStatus => 0xFFFF#16
  | .waitReady => 0xFFFF#16
  | .setBusDir _ => 0xFFFE#16
  | .writeBus _ => 0xFF00#16
  | .readBus => 0xFFFF#16
  | .setCtl _ _ => 0xFCFE#16
  | .busCmd _ => 0xFF00#16
  | .busDat _ => 0xFF00#16
  | .busSts _ => 0xFF00#16
  | .lcdFuncsetIs1 => 0xFFFF#16
  | .lcdBias => 0xFFFF#16
  | .lcdPwrContrastHi _ => 0xFFFC#16
  | .lcdFollower => 0xFFFF#16
  | .lcdContrastLo _ => 0xFFF0#16
  | .lcdFuncsetIs0 => 0xFFFF#16
  | .lcdSetCgram _ => 0xFFC0#16
  | .lcdDisplayOn => 0xFFFF#16
  | .lcdClear => 0xFFFF#16
  | .lcdEntryInc => 0xFFFF#16
  | .lcdSetDdram _ => 0xFF80#16

/-- The value of those bits (its column `match`); the bits above a narrower format are 0. -/
def fixedBits : Instr → BitVec 16
  | .powerOn => 0x1000#16
  | .powerOff => 0x2000#16
  | .writeCmd _ => 0x3000#16
  | .writeData _ => 0x4000#16
  | .gotoxy _ _ => 0x5000#16
  | .putc _ => 0x6000#16
  | .puts _ => 0x7000#16
  | .writeLine _ _ => 0x8000#16
  | .sampleStatus => 0x9000#16
  | .waitReady => 0xA000#16
  | .setBusDir _ => 0xB000#16
  | .writeBus _ => 0xC000#16
  | .readBus => 0xD000#16
  | .setCtl _ _ => 0xE000#16
  | .busCmd _ => 0x0000#16
  | .busDat _ => 0x0200#16
  | .busSts _ => 0x0100#16
  | .lcdFuncsetIs1 => 0x0039#16
  | .lcdBias => 0x0014#16
  | .lcdPwrContrastHi _ => 0x0054#16
  | .lcdFollower => 0x006D#16
  | .lcdContrastLo _ => 0x0070#16
  | .lcdFuncsetIs0 => 0x0038#16
  | .lcdSetCgram _ => 0x0040#16
  | .lcdDisplayOn => 0x000C#16
  | .lcdClear => 0x0001#16
  | .lcdEntryInc => 0x0006#16
  | .lcdSetDdram _ => 0x0080#16

/-- The encoded word carries its row's fixed bits. -/
abbrev Statement (i : Instr) : Prop :=
  (encode Config.implementation i).word &&& fixedMask i = fixedBits i

/-- A `REQ16` word by its fields, bit by bit. -/
theorem req16_getLsbD (op aux : BitVec 4) (arg : Byte) (k : Nat) :
    (req16 op aux arg).getLsbD k = if k < 8 then arg.getLsbD k
      else if k < 12 then aux.getLsbD (k - 8) else op.getLsbD (k - 12) := by
  simp only [req16, BitVec.getLsbD_setWidth, BitVec.getLsbD_append]
  by_cases h8 : k < 8
  · simp [h8, show k < 16 by omega]
  · by_cases h12 : k < 12
    · simp [h8, h12, show k < 16 by omega, show k - 8 < 4 by omega]
    · by_cases h16 : k < 16
      · simp [h8, h12, h16, show ¬ k - 8 < 4 by omega, show k - 8 - 4 = k - 12 by omega]
      · simp [h8, h12, h16, BitVec.getLsbD_of_ge op (k - 12) (by omega)]

theorem powerOn : Statement .powerOn := by
  decide
theorem powerOff : Statement .powerOff := by
  decide
theorem writeCmd (b : Byte) : Statement (.writeCmd b) := by
  revert b; decide
theorem writeData (b : Byte) : Statement (.writeData b) := by
  revert b; decide
theorem gotoxy (x y : Nat) : Statement (.gotoxy x y) := by
  show req16 0x5#4 (BitVec.ofNat 4 y) (BitVec.ofNat 8 x) &&& 0xF000#16 = 0x5000#16
  apply BitVec.eq_of_getLsbD_eq
  intro k hk
  rw [BitVec.getLsbD_and, req16_getLsbD]
  interval_cases k <;> simp
theorem putc (c : Byte) : Statement (.putc c) := by
  revert c; decide
theorem puts (text : List Byte) : Statement (.puts text) := by
  show req16 0x7#4 0#4 0#8 &&& 0xFFFF#16 = 0x7000#16; decide
theorem writeLine (n : Nat) (text : List Byte) : Statement (.writeLine n text) := by
  show req16 0x8#4 (BitVec.ofNat 4 n) 0#8 &&& 0xF0FF#16 = 0x8000#16
  generalize BitVec.ofNat 4 n = aux
  revert aux; decide
theorem sampleStatus : Statement .sampleStatus := by
  decide
theorem waitReady : Statement .waitReady := by
  decide
theorem setBusDir (d : Dir) : Statement (.setBusDir d) := by
  cases d <;> decide
theorem writeBus (b : Byte) : Statement (.writeBus b) := by
  revert b; decide
theorem readBus : Statement .readBus := by
  decide
theorem setCtl (line : Line) (lvl : Bool) : Statement (.setCtl line lvl) := by
  cases line <;> cases lvl <;> decide
theorem busCmd (b : Byte) : Statement (.busCmd b) := by
  revert b; decide
theorem busDat (b : Byte) : Statement (.busDat b) := by
  revert b; decide
theorem busSts (v : Byte) : Statement (.busSts v) := by
  revert v; decide
theorem lcdFuncsetIs1 : Statement .lcdFuncsetIs1 := by
  decide
theorem lcdBias : Statement .lcdBias := by
  decide
theorem lcdPwrContrastHi (c : BitVec 2) : Statement (.lcdPwrContrastHi c) := by
  revert c; decide
theorem lcdFollower : Statement .lcdFollower := by
  decide
theorem lcdContrastLo (c : BitVec 4) : Statement (.lcdContrastLo c) := by
  revert c; decide
theorem lcdFuncsetIs0 : Statement .lcdFuncsetIs0 := by
  decide
theorem lcdSetCgram (a : BitVec 6) : Statement (.lcdSetCgram a) := by
  revert a; decide
theorem lcdDisplayOn : Statement .lcdDisplayOn := by
  decide
theorem lcdClear : Statement .lcdClear := by
  decide
theorem lcdEntryInc : Statement .lcdEntryInc := by
  decide
theorem lcdSetDdram (a : BitVec 7) : Statement (.lcdSetDdram a) := by
  revert a; decide

end Sys2Proof.Laws.EncodedForm
end

