-- ==== Sys2Proof/Tests/Slice0.lean ====
section
/-! SUPPORT. Tests by evaluation. Expected results are those of spec/95_test_vectors.md (the vector's name stands in the
theorem's comment) or words written out from spec/opcode_table.json; and, for every statement with hypotheses, a witness
that meets them. -/

namespace Sys2Proof.Tests

open Sys2Proof Sys2Proof.Machine

/-! ## Helpers: the test configuration and the two start states of 95 part 3 -/

/-- 95, "Test configuration", with `T` as given. -/
def testConfig (t : Nat) : Config where
  pollBound := t
  tickUs := 30
  powerupSettleMs := 100
  contrast := 0x28#6
  glyph := Vector.ofFn fun s => Vector.ofFn fun r => BitVec.ofNat 8 (8 * s.val + r.val)

/-- The fixture after P1 but for its memories. -/
def testDisplay : Display := ⟨.zero, 0#7, .ddram, true, [], [], [], 0⟩

/-- Pins with every direction an output. -/
def outPins (b : Byte) (e rw rs pwr : Bool) : Pins :=
  ⟨.output, b, e, rw, rs, pwr, .output, .output, .output, .output⟩

/-- After one `PowerOff` from reset (95 part 3, families L, H, C). -/
def offState (t : Nat) (answers : List Byte) : State :=
  { State.reset with
    pins := outPins 0x00#8 false false false false, seq := .off, cfg := testConfig t, answers := answers
    display := testDisplay }

/-- After P1 (95 part 3, family T). -/
def onState (t : Nat) (answers : List Byte) : State :=
  { State.reset with
    pins := outPins 0x06#8 false false false true, seq := .ready, powered := true, cfg := testConfig t
    answers := answers, display := testDisplay }

/-- Reset with the test configuration. -/
def resetState (t : Nat) (answers : List Byte) : State :=
  { State.reset with cfg := testConfig t, answers := answers }

/-- A view of the next state. -/
def after (o : Host.Outcome State Fault Refusal) (f : State → α) : Option α := (nextState o).map f

/-- A view of how a run stops. -/
def stopOf (o : Host.Outcome State Fault Refusal) : Option (Fault ⊕ Refusal) :=
  match o with
  | .next _ => none
  | .fault r => some (.inl r)
  | .refused r => some (.inr r)

/-! ## Well-formedness -/

theorem test_wellFormed_gotoxy_x : (Instr.gotoxy 256 0).wellFormed = false := by decide
theorem test_wellFormed_gotoxy_y : (Instr.gotoxy 0 16).wellFormed = false := by decide
theorem test_wellFormed_writeLine : (Instr.writeLine 16 []).wellFormed = false := by decide

/-! ## Decoding: every row's word, bit by bit from the opcode table -/

theorem test_decode_powerOn : decodeTableWord 16 0b0001000000000000 = some .powerOn := by decide
theorem test_decode_powerOff : decodeTableWord 16 0b0010000000000000 = some .powerOff := by decide
theorem test_decode_writeCmd : decodeTableWord 16 0b0011000000111000 = some (.writeCmd 0x38#8) := by decide
theorem test_decode_writeData : decodeTableWord 16 0b0100000001001000 = some (.writeData 0x48#8) := by decide
theorem test_decode_gotoxy : decodeTableWord 16 0b0101000100000101 = some (.gotoxy 5 1) := by decide
theorem test_decode_putc : decodeTableWord 16 0b0110000001000001 = some (.putc 0x41#8) := by decide
theorem test_decode_puts : decode (testConfig 4) ⟨.host, 0b0111000000000000#16, [0x61#8]⟩ = .ok (.puts [0x61#8]) := by decide
theorem test_decode_writeLine :
    decode (testConfig 4) ⟨.host, 0b1000000100000000#16, [0x48#8, 0x69#8]⟩ = .ok (.writeLine 1 [0x48#8, 0x69#8]) := by decide
theorem test_decode_sampleStatus : decodeTableWord 16 0b1001000000000000 = some .sampleStatus := by decide
theorem test_decode_waitReady : decodeTableWord 16 0b1010000000000000 = some .waitReady := by decide
theorem test_decode_setBusDir : decodeTableWord 16 0b1011000000000001 = some (.setBusDir .output) := by decide
theorem test_decode_writeBus : decodeTableWord 16 0b1100000000111001 = some (.writeBus 0x39#8) := by decide
theorem test_decode_readBus : decodeTableWord 16 0b1101000000000000 = some .readBus := by decide
theorem test_decode_setCtl : decodeTableWord 16 0b1110000100000001 = some (.setCtl .rw true) := by decide
theorem test_decode_busCmd : decodeTableWord 10 0b0000111000 = some (.busCmd 0x38#8) := by decide
theorem test_decode_busDat : decodeTableWord 10 0b1001001000 = some (.busDat 0x48#8) := by decide
theorem test_decode_busSts : decodeTableWord 10 0b0110000101 = some (.busSts 0x85#8) := by decide
theorem test_decode_lcdFuncsetIs1 : decodeTableWord 8 0b00111001 = some .lcdFuncsetIs1 := by decide
theorem test_decode_lcdBias : decodeTableWord 8 0b00010100 = some .lcdBias := by decide
theorem test_decode_lcdPwr : decodeTableWord 8 0b01010110 = some (.lcdPwrContrastHi 2#2) := by decide
theorem test_decode_lcdFollower : decodeTableWord 8 0b01101101 = some .lcdFollower := by decide
theorem test_decode_lcdContrastLo : decodeTableWord 8 0b01111000 = some (.lcdContrastLo 8#4) := by decide
theorem test_decode_lcdFuncsetIs0 : decodeTableWord 8 0b00111000 = some .lcdFuncsetIs0 := by decide
theorem test_decode_lcdSetCgram : decodeTableWord 8 0b01001000 = some (.lcdSetCgram 8#6) := by decide
theorem test_decode_lcdDisplayOn : decodeTableWord 8 0b00001100 = some .lcdDisplayOn := by decide
theorem test_decode_lcdClear : decodeTableWord 8 0b00000001 = some .lcdClear := by decide
theorem test_decode_lcdEntryInc : decodeTableWord 8 0b00000110 = some .lcdEntryInc := by decide
theorem test_decode_lcdSetDdram : decodeTableWord 8 0b11000101 = some (.lcdSetDdram 0x45#7) := by decide

/-- 95 E, refused host words: reserved. -/
theorem test_refused_reserved :
    decode (testConfig 4) ⟨.host, 0x0000#16, []⟩ = .error .reservedOp ∧ decode (testConfig 4) ⟨.host, 0xF000#16, []⟩ = .error .reservedOp := by decide

/-- 95 E, refused host words: a nonzero unused field. -/
theorem test_refused_nonzero :
    [0x1001#16, 0x2100#16, 0x7001#16, 0x8101#16].map (fun w => decode (testConfig 4) ⟨.host, w, []⟩)
      = List.replicate 4 (.error .nonzeroField) := by decide

/-- 95 E and L12, refused host words: internal. -/
theorem test_refused_internal :
    [0x9000#16, 0xA000#16, 0xB001#16, 0xC039#16, 0xD000#16, 0xE101#16].map (fun w => decode (testConfig 4) ⟨.host, w, []⟩)
      = List.replicate 6 (.error .internalOp) := by decide

/-- 30 R89: line code 3, and the data-read frame. -/
theorem test_refused_line_and_dataRead :
    decode (testConfig 4) ⟨.inner, 0xE300#16, []⟩ = .error .badLine ∧ decode (testConfig 4) ⟨.bus, 0x300#16, []⟩ = .error .dataRead := by decide

/-- 30 R86: 0x78 is contrast-low in table 1 and the CGRAM address of slot 7 in table 0. -/
theorem test_decode_two_tables :
    decode (testConfig 4) ⟨.command .one, 0x78#16, []⟩ = .ok (.lcdContrastLo 8#4)
      ∧ decode (testConfig 4) ⟨.command .zero, 0x78#16, []⟩ = .ok (.lcdSetCgram 0x38#6) := by decide

/-- 30 R89 (d): any other byte on the command port is passed through as a command. -/
theorem test_decode_other_byte :
    decode (testConfig 4) ⟨.command .zero, 0x02#16, []⟩ = .ok (.writeCmd 0x02#8)
      ∧ decode (testConfig 4) ⟨.command .one, 0x41#16, []⟩ = .ok (.writeCmd 0x41#8) := by decide

/-- The test configuration with the other bias byte in use (30 R76: 0x1C). -/
def otherBias : Config := { testConfig 4 with cmdBias := 0x1C#8 }

/-- 00 R6, 30 R76, R89 (d): with `CMD_BIAS` 0x1C, that byte is the bias command and 0x14 is passed through unchanged. -/
theorem test_decode_other_bias :
    decode otherBias ⟨.command .one, 0x1C#16, []⟩ = .ok .lcdBias
      ∧ decode otherBias ⟨.command .one, 0x14#16, []⟩ = .ok (.writeCmd 0x14#8)
      ∧ (encode otherBias .lcdBias).word = 0x1C#16 := by decide

/-! ## L: bus transport -/

/-- L1, L2 -/
theorem test_L1 : after (exec (.setBusDir .input) (offState 4 [])) (fun t => (t.pins, t.waveform))
    = some (⟨.input, 0x00#8, false, false, false, false, .output, .output, .output, .output⟩, [.busDir .input]) := by
  decide
theorem test_L2 : after (exec (.setBusDir .output) (offState 4 [])) (fun t => t.waveform) = some [] := by decide

/-- L3, L5 -/
theorem test_L3 : after (exec (.writeBus 0x39#8) (offState 4 [])) (fun t => (t.pins.busOut, t.waveform))
    = some (0x39#8, [.bus 0x39#8]) := by decide
theorem test_L5 : stopOf (exec (.writeBus 0x00#8) { offState 4 [] with pins := (outPins 0x39#8 false false false false).sampled })
    = some (.inr .busNotOutput) := by decide

/-- L6, L7 -/
theorem test_L6 : after (exec .readBus { offState 4 [0x85#8] with pins := (outPins 0x39#8 false false false false).sampled })
    (fun t => (t.waveform, t.pins.busOut, t.answers)) = some ([.read 0x85#8], 0x39#8, []) := by decide
theorem test_L7 : stopOf (exec .readBus (offState 4 [])) = some (.inr .busNotInput) := by decide

/-- L9, L10 -/
theorem test_L9 : after (exec (.setCtl .rs true) (offState 4 [])) (fun t => (t.pins.e, t.pins.rw, t.pins.rs, t.waveform))
    = some (false, false, true, [.line .rs true]) := by decide
theorem test_L10 : stopOf (exec (.setCtl .rw true) State.reset) = some (.inr (.lineUnconfigured .rw)) := by decide

/-- L11: the level the bus drives then is the model's (log 7), so only the direction is tested. -/
theorem test_L11 : after (exec (.setBusDir .output) State.reset) (fun t => t.pins.busDir) = some .output := by decide

/-! ## H: handshake -/

/-- H0 -/
theorem test_H0 : after (exec .sampleStatus { offState 4 [0x80#8] with pins := outPins 0x38#8 false false true false })
    (fun t => (t.waveform, t.status, t.transfers))
    = some ([.busDir .input, .line .rw true, .line .rs false, .line .e true, .tick, .read 0x80#8, .line .e false],
        0x80#8, [.sts 0x80#8]) := by decide

/-- H4: the waveform whole -/
theorem test_H4 : after (exec .waitReady (offState 4 [0x80#8, 0x85#8, 0x05#8])) (fun t => t.waveform)
    = some [.busDir .input, .line .rw true, .line .e true, .tick, .read 0x80#8, .line .e false, .tick, .line .e true,
        .tick, .read 0x85#8, .line .e false, .tick, .line .e true, .tick, .read 0x05#8, .line .e false] := by decide

/-- H5 and H6: clear on sample `T`, and never -/
theorem test_H5 : (waitReady (offState 4 [0x80#8, 0x80#8, 0x80#8, 0x7F#8])).1 = .ready := by decide
theorem test_H6 : ((waitReady (offState 4 [0x80#8, 0xFF#8, 0x80#8, 0xC5#8, 0x00#8])).1,
    (waitReady (offState 4 [0x80#8, 0xFF#8, 0x80#8, 0xC5#8, 0x00#8])).2.answers) = (.timeout, [0x00#8]) := by decide

/-! ## C: command/data channel -/

/-- C1: the waveform after the handshake of H4 -/
theorem test_C1 : after (exec (.writeCmd 0x38#8) (offState 4 [0x80#8, 0x85#8, 0x05#8]))
    (fun t => (t.transfers, t.ticks, t.waveform.drop 16))
    = some ([.sts 0x80#8, .sts 0x85#8, .sts 0x05#8, .cmd 0x38#8], 6,
        [.busDir .output, .line .rw false, .bus 0x38#8, .line .e true, .tick, .line .e false]) := by decide

/-- C2 -/
theorem test_C2 : after (exec (.writeData 0x48#8)
      { offState 4 [0x80#8, 0xFF#8, 0x80#8, 0xC5#8] with pins := outPins 0x38#8 false false false false })
    (fun t => (t.transfers, t.ticks, t.pins))
    = some ([.sts 0x80#8, .sts 0xFF#8, .sts 0x80#8, .sts 0xC5#8], 7,
        ⟨.input, 0x38#8, false, true, false, false, .output, .output, .output, .output⟩) := by decide

/-- C3, the end pins -/
theorem test_C3 : after (exec (.writeData 0x48#8) { offState 4 [0x80#8, 0x80#8, 0x80#8, 0x7F#8] with
      pins := (outPins 0x38#8 false false false false).sampled }) (fun t => (t.ticks, t.pins))
    = some (8, outPins 0x48#8 false false true false) := by decide

/-- C5 -/
theorem test_C5 : stopOf (exec (.writeData 0x41#8) State.reset) = some (.inr (.lineUnconfigured .rw)) := by decide

/-- A `BUS10` write frame with and without its handshake (30 R71, 42 R136). -/
theorem test_busCmd : after (exec (.busCmd 0x38#8) { offState 4 [] with transfers := [.sts 0x05#8] }) (fun t => t.transfers)
    = some [.sts 0x05#8, .cmd 0x38#8] := by decide
theorem test_busDat : stopOf (exec (.busDat 0x48#8) { offState 4 [] with transfers := [.sts 0x85#8] })
    = some (.inr .ungatedWrite) := by decide
theorem test_busSts : after (exec (.busSts 0x85#8) (offState 4 [])) (fun t => (t.status, t.transfers))
    = some (0x85#8, [.sts 0x85#8]) := by decide

/-! ## S: sequencer -/

/-- S-3 -/
theorem test_S3 : after (exec .powerOff (resetState 4 [])) (fun t => (t.waveform, t.transfers, t.seq))
    = some ([.busDir .output, .bus 0x00#8, .cfg .e false, .cfg .rw false, .cfg .rs false, .cfg .pwr false], [], .off) := by
  decide

/-- S-4 -/
theorem test_S4 : after (exec .powerOff { onState 4 [] with pins := outPins 0x41#8 false false true true })
    (fun t => (t.waveform, t.powered)) = some ([.bus 0x00#8, .cfg .rs false, .cfg .pwr false], false) := by decide

/-- 60 R202, 70 R216: the first `PowerOff` loses what the record told of a display whose supply was unknown; a second one
finds the supply off. -/
theorem test_powerOff_display :
    [State.reset.pins, (offState 4 []).pins].map (fun p =>
        after (exec .powerOff { offState 4 [] with pins := p, display := { testDisplay with ddram := [(0, 0x41#8)] } })
          (fun t => t.display.ddram.read 0)) = [some none, some (some 0x41#8)] := by decide

/-- P1, the start of the waveform -/
theorem test_P1_start : (powerUpPhase (resetState 4 [])).waveform
    = [.cfg .e false, .cfg .rw false, .cfg .rs false, .busDir .output, .bus 0x00#8, .cfg .pwr true, .ms 100] := by decide

/-- P1, the writes of `STEP` 0 to 8 and 78 to 80 -/
theorem test_P1_table : (((initTable (testConfig 4)).map InitEntry.transfer).take 9,
    ((initTable (testConfig 4)).map InitEntry.transfer).drop 78)
    = ([.cmd 0x39#8, .cmd 0x14#8, .cmd 0x56#8, .cmd 0x6D#8, .cmd 0x78#8, .cmd 0x38#8, .cmd 0x40#8, .dat 0x00#8,
        .dat 0x01#8], [.cmd 0x0C#8, .cmd 0x01#8, .cmd 0x06#8]) := by decide

/-! ## T: text operations -/

/-- T4 -/
theorem test_T4 : after (exec (.gotoxy 15 1) (onState 4 [0x00#8])) (fun t => t.transfers)
    = some [.sts 0x00#8, .cmd 0xCF#8] := by decide
/-- T5, T6: nothing, not even a sample -/
theorem test_T5 : after (exec (.gotoxy 16 0) (onState 4 [])) (fun t => (t.transfers, t.waveform, t.conditions))
    = some ([], [], [.contractViolation .cursor]) := by decide
/-- T7 -/
theorem test_T7 : after (exec (.putc 0x00#8) (onState 4 [0x00#8])) (fun t => t.transfers)
    = some [.sts 0x00#8, .dat 0x00#8] := by decide
/-- T8 -/
theorem test_T8 : after (exec (.puts []) (onState 4 [])) (fun t => (t.transfers, t.waveform)) = some ([], []) := by decide
/-- T12, shortened to three characters -/
theorem test_T12 : after (exec (.puts [0x41#8, 0x42#8, 0x43#8]) (onState 4 [0x00#8, 0x00#8, 0x00#8])) (fun t => t.transfers)
    = some [.sts 0x00#8, .dat 0x41#8, .sts 0x00#8, .dat 0x42#8, .sts 0x00#8, .dat 0x43#8] := by decide
/-- T9 -/
theorem test_T9 : after (exec (.writeLine 3 [0x61#8]) (onState 4 [])) (fun t => (t.transfers, t.conditions))
    = some ([], [.contractViolation .lineNumber]) := by decide
/-- T13: the address command dropped, the sixteen characters still sent -/
theorem test_T13 : after (exec (.writeLine 2 [0x41#8, 0x42#8]) (onState 2 ([0x80#8, 0x80#8] ++ List.replicate 16 0x00#8)))
    (fun t => t.transfers.filter Transfer.isWrite)
    = some ([.dat 0x41#8, .dat 0x42#8] ++ List.replicate 14 (.dat 0x20#8)) := by decide +kernel
/-- T14 -/
theorem test_T14 : after (exec (.putc 0x42#8) (offState 4 [])) (fun t => (t.transfers, t.waveform, t.conditions))
    = some ([], [], [.poweredOffAccess]) := by decide
/-- T15 -/
theorem test_T15 : stopOf (exec (.gotoxy 16 0) { onState 4 [] with cfg := { testConfig 4 with debugAssert := true } })
    = some (.inl (.contractViolation .cursor)) := by decide
/-- T16 -/
theorem test_T16 : after (exec (.gotoxy 16 0) { offState 4 [] with cfg := { testConfig 4 with debugAssert := true } })
    (fun t => t.transfers) = some [] := by decide
/-- 44 R176: a rendering longer than the buffer is rejected with no transfer. -/
theorem test_formattedPrint : after (formattedPrint 1 1 [0x61#8, 0x62#8] (onState 4 []))
    (fun t => (t.transfers, t.conditions)) = some ([], [.contractViolation .formatOverflow]) := by decide

/-! ## Display commands -/

/-- 95 E, command assembly: `CONTRAST` 0x28 gives 56 and 78. -/
theorem test_lcdPwr : after (exec (.lcdPwrContrastHi 2#2) (offState 4 [0x00#8])) (fun t => t.transfers)
    = some [.sts 0x00#8, .cmd 0x56#8] := by decide
theorem test_lcdContrastLo : after (exec (.lcdContrastLo 8#4) (offState 4 [0x00#8])) (fun t => t.transfers)
    = some [.sts 0x00#8, .cmd 0x78#8] := by decide
/-- 95 E: CGRAM slot 7 gives 78, DDRAM (5, 1) gives C5. -/
theorem test_lcdSetCgram : after (exec (.lcdSetCgram 0x38#6) (offState 4 [0x00#8])) (fun t => t.transfers)
    = some [.sts 0x00#8, .cmd 0x78#8] := by decide
theorem test_lcdSetDdram : after (exec (.lcdSetDdram 0x45#7) (onState 4 [0x00#8])) (fun t => (t.transfers, t.display.address))
    = some ([.sts 0x00#8, .cmd 0xC5#8], 0x45#7) := by decide
/-- 95 part 2: the clear command of the fixture. -/
theorem test_lcdClear : after (exec .lcdClear { onState 4 [0x00#8] with display := { testDisplay with address := 0x45#7 } })
    (fun t => (t.display.address, t.display.ddram.read 0x4F)) = some (0#7, some 0x20#8) := by decide
/-- 95 part 2: `Dat(b)` with the counter in CGRAM stores under `AC & 0x3F`. -/
theorem test_fixture_cgram : after (exec (.writeData 0x1F#8) { onState 4 [0x00#8] with
      display := { testDisplay with address := 0x47#7, target := .cgram } })
    (fun t => (t.display.cgram, t.display.address)) = some ([(7, 0x1F#8)], 0x48#7) := by decide

/-! ## The step -/

/-- The first instruction after reset (70 R215). -/
theorem test_step_powerOff : after (step (State.reset.withFetchWord 16 0x2000)) (fun t => (t.seq, t.requests))
    = some (.off, []) := by decide
/-- 30 R89 (d), 42 R138: the byte of the word crosses the bus, whatever the parameters say of it. -/
theorem test_step_other_bias :
    [0x14#16, 0x1C#16].map (fun w => after (step { offState 4 [0x00#8] with
        cfg := otherBias, requests := [⟨.command .one, w, []⟩] }) (fun t => t.transfers))
      = [some [.sts 0x00#8, .cmd 0x14#8], some [.sts 0x00#8, .cmd 0x1C#8]] := by decide
theorem test_step_waits : step State.reset = .next State.reset := by rfl
theorem test_step_refuses : stopOf (step { State.reset with requests := [⟨.host, 0xC039#16, []⟩] })
    = some (.inr (.undecodable .internalOp)) := by decide

/-! ## Witnesses: for every statement with hypotheses, values that meet them all, clause by clause -/

/-- `n` ready answers. -/
def ready (n : Nat) : List Byte := List.replicate n 0x00#8
/-- `n` busy answers. -/
def busy (n : Nat) : List Byte := List.replicate n 0x80#8
/-- Off, the last poll bound sample of four ready. -/
def lateState : State := offState 4 (busy 3 ++ ready 1)
/-- The same, powered. -/
def lateOnState : State := onState 4 (busy 3 ++ ready 1)

theorem late_readyOn : lateState.ReadyOn 3 := by unfold State.ReadyOn State.BusyFor; decide
theorem lateOn_readyOn : lateOnState.ReadyOn 3 := by unfold State.ReadyOn State.BusyFor; decide
theorem early_readyOn : (offState 1 (ready 1)).ReadyOn 0 := by unfold State.ReadyOn State.BusyFor; decide
theorem busy_busyFor : (offState 1 (busy 1)).BusyFor 1 := by unfold State.BusyFor; decide
theorem busyOn_busyFor : (onState 1 (busy 1)).BusyFor 1 := by unfold State.BusyFor; decide

/-- No command; a command at its last operand under distinct bytes; and one whose byte another row has too. -/
theorem witness_DecodeOfEncodeIsTheOperation :
    ((Instr.gotoxy 255 15).wellFormed = true ∧ commandByte (testConfig 4) (.gotoxy 255 15) = none)
      ∧ ((Instr.lcdSetDdram 0x7F#7).wellFormed = true ∧ (testConfig 4).Valid ∧ CommandsDistinct (testConfig 4))
      ∧ ((Instr.lcdBias).wellFormed = true ∧ ({ testConfig 4 with cmdBias := 0x0C#8 } : Config).Valid
        ∧ commandByte { testConfig 4 with cmdBias := 0x0C#8 } .lcdBias = some 0x0C#8
        ∧ ¬ CommandsDistinct { testConfig 4 with cmdBias := 0x0C#8 }) :=
  ⟨by decide, ⟨by decide, by decide, Laws.commandsDistinct_of_default (by decide)⟩, by decide⟩
theorem witness_DecodedRequestIsTheEncodersWord :
    decode (testConfig 4) ⟨.host, 0x5FFF#16, []⟩ = .ok (.gotoxy 255 15)
      ∧ decode (testConfig 4) ⟨.command .one, 0x57#16, []⟩ = .ok (.lcdPwrContrastHi 3#2)
      ∧ decode (testConfig 4) ⟨.command .zero, 0x02#16, []⟩ = .ok (.writeCmd 0x02#8) := by decide
/-- One word per clause: both reserved codes, the first and the last internal code, each group of exposed codes with and
without a stray bit, the data-read frame. -/
theorem witness_HostWordsRefusedOrExposed :
    (reqOp 0x0FFF#16 = 0x0#4 ∧ reqOp 0xF000#16 = 0xF#4)
      ∧ ((reqOp 0x9000#16).toNat = 9 ∧ (reqOp 0xEFFF#16).toNat = 14)
      ∧ (reqOp 0x1000#16 = 0x1#4 ∧ reqOp 0x2001#16 = 0x2#4 ∧ reqOp 0x7100#16 = 0x7#4)
      ∧ (reqOp 0x30FF#16 = 0x3#4 ∧ reqOp 0x4100#16 = 0x4#4 ∧ reqOp 0x6F00#16 = 0x6#4)
      ∧ reqOp 0x5FFF#16 = 0x5#4 ∧ (reqOp 0x8F00#16 = 0x8#4 ∧ reqOp 0x8001#16 = 0x8#4)
      ∧ (0x3FF#16).extractLsb' 8 8 = 3#8 := by decide
theorem witness_StepRunsTheDecodedRequest :
    (State.reset.withFetchWord 16 0x1000).requests = [⟨.host, 0x1000#16, []⟩]
      ∧ decode State.reset.cfg ⟨.host, 0x1000#16, []⟩ = .ok .powerOn := by decide
theorem witness_StepRefusesOrWaits :
    (State.reset.withFetchWord 16 0xF000).requests = [⟨.host, 0xF000#16, []⟩]
      ∧ decode State.reset.cfg ⟨.host, 0xF000#16, []⟩ = .error .reservedOp ∧ State.reset.requests = [] := by decide
theorem witness_WriteBusResult :
    (offState 4 []).pins.busDir = .output ∧ State.reset.pins.busDir ≠ .output := by decide
theorem witness_ReadBusResult :
    (outPins 0x00#8 false false false false).sampled.busDir = .input ∧ State.reset.pins.busDir ≠ .input := by decide
theorem witness_SetControlLineResult :
    (offState 4 []).pins.LinesDriven
      ∧ State.reset.pins.dirE = .unconf ∧ State.reset.pins.dirRw = .unconf ∧ State.reset.pins.dirRs = .unconf := by decide
theorem witness_SampleStatusResult : (offState 4 []).pins.LinesDriven := by decide
/-- The clauses at their bounds: ready on the last sample allowed, ready on the first of a bound of 1, busy to the end. -/
theorem witness_PollCountingLaw :
    (lateState.pins.LinesDriven ∧ lateState.ReadyOn 3)
      ∧ ((offState 1 (ready 1)).pins.LinesDriven ∧ (offState 1 (ready 1)).ReadyOn 0)
      ∧ ((offState 1 (busy 1)).pins.LinesDriven ∧ 1 ≤ (offState 1 (busy 1)).cfg.pollBound
        ∧ (offState 1 (busy 1)).BusyFor (offState 1 (busy 1)).cfg.pollBound) :=
  ⟨⟨by decide, late_readyOn⟩, ⟨by decide, early_readyOn⟩, by decide, by decide, busy_busyFor⟩
theorem witness_WaitReadyResult : (offState 1 []).pins.LinesDriven ∧ 1 ≤ (offState 1 []).cfg.pollBound := by decide
theorem witness_PollTickCost :
    (lateState.pins.LinesDriven ∧ 1 ≤ 4 ∧ lateState.ReadyOn (4 - 1))
      ∧ ((offState 1 (busy 1)).pins.LinesDriven ∧ 1 ≤ (offState 1 (busy 1)).cfg.pollBound
        ∧ (offState 1 (busy 1)).BusyFor (offState 1 (busy 1)).cfg.pollBound) :=
  ⟨⟨by decide, by decide, late_readyOn⟩, by decide, by decide, busy_busyFor⟩
theorem witness_PollMachineIsWaitReady : lateState.pins.LinesDriven ∧ 1 ≤ lateState.cfg.pollBound := by decide
theorem witness_WriteCommandSendsOneByte : lateState.pins.LinesDriven ∧ lateState.ReadyOn 3 :=
  ⟨by decide, late_readyOn⟩
theorem witness_WriteDataSendsOneByte : (offState 1 (ready 1)).pins.LinesDriven ∧ (offState 1 (ready 1)).ReadyOn 0 :=
  ⟨by decide, early_readyOn⟩
theorem witness_WriteTimesOutSilently :
    (Instr.writeData 0xFF#8 = .writeCmd 0xFF#8 ∨ Instr.writeData 0xFF#8 = .writeData 0xFF#8)
      ∧ (offState 1 (busy 1)).pins.LinesDriven ∧ 1 ≤ (offState 1 (busy 1)).cfg.pollBound
      ∧ (offState 1 (busy 1)).BusyFor (offState 1 (busy 1)).cfg.pollBound :=
  ⟨.inr rfl, by decide, by decide, busy_busyFor⟩
theorem witness_UnconfiguredLinesRefuse :
    State.reset.pins.Unconfigured ∧ commandByte State.reset.cfg .lcdClear = some 0x01#8 := ⟨by decide, rfl⟩
theorem witness_ChannelIgnoresPowerState :
    Instr.writeCmd 0x00#8 = .writeCmd 0x00#8 ∨ Instr.writeCmd 0x00#8 = .writeData 0x00#8 := .inl rfl
theorem witness_WriteMachineIsTheGatedWrite :
    (offState 1 (busy 1)).pins.LinesDriven ∧ 1 ≤ (offState 1 (busy 1)).cfg.pollBound := by decide
/-- A ready sample last; and the three ways it is not: no transfer yet, a busy sample, a write. -/
theorem witness_BusWriteFrames :
    ((offState 4 []).pins.LinesDriven ∧ ({ offState 4 [] with transfers := [.sts 0x7F#8] } : State).transfers
        = [] ++ [.sts 0x7F#8] ∧ isBusy 0x7F#8 = false)
      ∧ ¬ (∃ before v, (offState 4 []).transfers = before ++ [.sts v] ∧ isBusy v = false)
      ∧ ({ offState 4 [] with transfers := [.sts 0x80#8] } : State).handshakeReady = false
      ∧ ({ offState 4 [] with transfers := [.sts 0x00#8, .cmd 0x01#8] } : State).handshakeReady = false := by
  refine ⟨by decide, ?_, by decide, by decide⟩
  rintro ⟨before, v, h, -⟩
  simp [offState, State.reset] at h
theorem witness_BusStatusFrame : (offState 4 []).pins.LinesDriven := by decide
theorem witness_DisplayCommandsSendTheirByte :
    (commandByte lateState.cfg (.lcdSetDdram 0x7F#7) = some 0xFF#8 ∧ lateState.pins.LinesDriven ∧ lateState.ReadyOn 3)
      ∧ (commandByte (offState 1 (busy 1)).cfg (.lcdContrastLo 0xF#4) = some 0x7F#8
        ∧ (offState 1 (busy 1)).pins.LinesDriven ∧ 1 ≤ (offState 1 (busy 1)).cfg.pollBound
        ∧ (offState 1 (busy 1)).BusyFor (offState 1 (busy 1)).cfg.pollBound) :=
  ⟨⟨by decide, by decide, late_readyOn⟩, by decide, by decide, by decide, busy_busyFor⟩
theorem witness_DefaultCommandBytesAreTheTables :
    commandByte otherBias .lcdBias = some 0x1C#8 ∧ UsesDefaultCommands (testConfig 4) := by decide
theorem witness_FieldsAreCleanInserts : (testConfig 1).Valid ∧ 15 < 16 ∧ 1 < 2 := by decide
/-- The reset pins meet the premises of the last clause. -/
theorem witness_PowerUpPhaseThenSettle :
    State.reset.pins.Unconfigured ∧ State.reset.pins.busDir = .unconf ∧ State.reset.pins.busOut ≠ 0x00#8 := by decide
theorem witness_PowerOnSendsTheTableInOrder :
    1 ≤ (resetState 1 (ready 81)).cfg.pollBound ∧ (resetState 1 (ready 81)).ReadyFor 81 :=
  ⟨by decide, by unfold State.ReadyFor; decide +kernel⟩
theorem witness_PowerOnAgainstABusyDisplay :
    1 ≤ (resetState 1 (busy 81)).cfg.pollBound
      ∧ (resetState 1 (busy 81)).BusyFor (81 * (resetState 1 (busy 81)).cfg.pollBound) :=
  ⟨by decide, by unfold State.BusyFor; decide +kernel⟩
theorem witness_SequencerTransitionTable :
    Instr.setBusDir .input ≠ .powerOn ∧ Instr.setBusDir .input ≠ .powerOff
      ∧ ((onState 4 []).powered = true ↔ (onState 4 []).seq = .ready)
      ∧ exec (.setBusDir .input) (onState 4 []) = .next (setBusDirection .input (onState 4 [])) :=
  ⟨by decide, by decide, by decide, rfl⟩
theorem witness_OnlyTheSequencerMovesPower :
    Instr.setBusDir .input ≠ .powerOn ∧ Instr.setBusDir .input ≠ .powerOff
      ∧ exec (.setBusDir .input) State.reset = .next (setBusDirection .input State.reset) :=
  ⟨by decide, by decide, rfl⟩
theorem witness_ConstantsNeverChange : exec .powerOff State.reset = .next (powerOff State.reset) := rfl
theorem witness_PoweredOffTextOperationsDoNothing :
    isTextOp (.gotoxy 16 0) = true ∧ (offState 4 []).powered = false := by decide
/-- Each operand out of range alone, at the boundary; each line number beside the valid two. -/
theorem witness_ContractViolationsAbort :
    (onState 4 []).powered = true ∧ (16 ≤ 16 ∨ 2 ≤ 0) ∧ (16 ≤ 0 ∨ 2 ≤ 2) ∧ (0 ≠ 1 ∧ 0 ≠ 2) ∧ (3 ≠ 1 ∧ 3 ≠ 2) := by decide
theorem witness_GotoxySendsOneAddressCommand :
    (lateOnState.powered = true ∧ lateOnState.pins.LinesDriven ∧ 15 < 16 ∧ 1 < 2 ∧ lateOnState.ReadyOn 3)
      ∧ ((onState 1 (busy 1)).powered = true ∧ (onState 1 (busy 1)).pins.LinesDriven
        ∧ 1 ≤ (onState 1 (busy 1)).cfg.pollBound ∧ (onState 1 (busy 1)).BusyFor (onState 1 (busy 1)).cfg.pollBound) :=
  ⟨⟨by decide, by decide, by decide, by decide, lateOn_readyOn⟩, by decide, by decide, by decide, busyOn_busyFor⟩
theorem witness_PutcSendsOneCharacter :
    (lateOnState.powered = true ∧ lateOnState.pins.LinesDriven ∧ lateOnState.ReadyOn 3)
      ∧ ((onState 1 (busy 1)).powered = true ∧ (onState 1 (busy 1)).pins.LinesDriven
        ∧ 1 ≤ (onState 1 (busy 1)).cfg.pollBound ∧ (onState 1 (busy 1)).BusyFor (onState 1 (busy 1)).cfg.pollBound) :=
  ⟨⟨by decide, by decide, lateOn_readyOn⟩, by decide, by decide, by decide, busyOn_busyFor⟩
/-- A text of two characters, and its last one; the empty text. -/
theorem witness_PutsSendsEveryCharacter :
    ((onState 1 (ready 2)).powered = true ∧ (onState 1 (ready 2)).pins.LinesDriven
        ∧ 1 ≤ (onState 1 (ready 2)).cfg.pollBound ∧ (onState 1 (ready 2)).ReadyFor ([0x41#8, 0x42#8] : List Byte).length
        ∧ ([0x41#8, 0x42#8] : List Byte).getLast? = some 0x42#8)
      ∧ (onState 1 []).ReadyFor ([] : List Byte).length := by
  unfold State.ReadyFor; decide
theorem witness_WriteLineSendsSeventeenTransfers :
    (onState 1 (ready 17)).powered = true ∧ (onState 1 (ready 17)).pins.LinesDriven
      ∧ 1 ≤ (onState 1 (ready 17)).cfg.pollBound ∧ (2 = 1 ∨ 2 = 2) ∧ (onState 1 (ready 17)).ReadyFor 17
      ∧ (formatLine (onState 1 (ready 17)).cfg []).getLast? = some 0x20#8 := by
  unfold State.ReadyFor; decide
theorem witness_TextDropsButNeverReorders :
    (onState 1 []).powered = true ∧ (onState 1 []).pins.LinesDriven ∧ (1 = 1 ∨ 1 = 2) := by decide
theorem witness_TextTransferCounts :
    ((onState 1 (ready 17)).pins.LinesDriven ∧ 1 ≤ (onState 1 (ready 17)).cfg.pollBound
        ∧ (onState 1 (ready 17)).powered = true ∧ (onState 1 (ready 17)).ReadyFor (1 + 16))
      ∧ (isTextOp (.writeLine 3 []) = true ∧ State.reset.powered = false)
      ∧ exec (.gotoxy 16 0) (onState 1 []) = .next ((onState 1 []).raise (.contractViolation .cursor)) :=
  ⟨by unfold State.ReadyFor; decide, by decide, rfl⟩
theorem witness_FormatLaws :
    16 ≤ (List.replicate 16 0x41#8).length ∧ (List.replicate 15 0x41#8).length < 16 ∧ 15 < 16 := by decide
/-- A run of one step in which no request is a `PowerOn` and all are text operations. -/
theorem witness_GatedUntilPowerOn :
    (offState 4 []).powered = false
      ∧ Host.Core.run Sys2Proof.core 1 { offState 4 [] with requests := [⟨.host, 0x6041#16, []⟩] }
        = .next ((offState 4 []).raise .poweredOffAccess)
      ∧ decode (offState 4 []).cfg ⟨.host, 0x6041#16, []⟩ = .ok (.putc 0x41#8) ∧ isTextOp (.putc 0x41#8) = true :=
  ⟨by decide, rfl, by decide, by decide⟩
/-- The invariants' premises at reset, where one host request is a step. -/
theorem witness_EveryStepKeepsCoherence :
    (State.reset.withFetchWord 16 0x2000).Coherent
      ∧ step (State.reset.withFetchWord 16 0x2000) = .next (powerOff State.reset) :=
  ⟨by decide, rfl⟩
theorem witness_HostStepsKeepTheBoundary :
    (State.reset.withFetchWord 16 0x2000).Boundary
      ∧ (∀ r ∈ (State.reset.withFetchWord 16 0x2000).requests, r.port = .host)
      ∧ step (State.reset.withFetchWord 16 0x2000) = .next (powerOff State.reset) :=
  ⟨by decide, by decide, rfl⟩
theorem witness_EveryStepKeepsTheMemoryForm :
    (State.reset.withFetchWord 16 0x2000).MemoryCanonical
      ∧ step (State.reset.withFetchWord 16 0x2000) = .next (powerOff State.reset) :=
  ⟨Display.unknown_wf 0, rfl⟩
theorem witness_EveryWriteFollowsAReadySample :
    Handshaken (State.reset.withFetchWord 16 0x2000).transfers
      ∧ step (State.reset.withFetchWord 16 0x2000) = .next (powerOff State.reset) :=
  ⟨Handshaken.nil, rfl⟩
theorem witness_TheWaveformTellsThePins : exec .powerOn State.reset = .next (powerOn State.reset) := rfl
theorem witness_EnablePulsesAreClean :
    Instr.powerOn.exposed = true ∧ State.reset.pins.e = false ∧ exec .powerOn State.reset = .next (powerOn State.reset) :=
  ⟨rfl, rfl, rfl⟩
theorem witness_HostOperationsComplete :
    (Instr.gotoxy 16 2).exposed = true ∧ (onState 1 []).pins.LinesDriven ∧ (onState 1 []).cfg.debugAssert = false := by
  decide
/-- The same with the display's counter at the last address of CGRAM. -/
def cgramState : State := { lateOnState with display := { testDisplay with address := 0x7F#7, target := .cgram } }
/-- Each target of the store. -/
theorem witness_DataWriteStoresOneByte :
    (lateOnState.pins.LinesDriven ∧ lateOnState.pins.supplied = true ∧ lateOnState.ReadyOn 3
        ∧ lateOnState.display.target = .ddram)
      ∧ (cgramState.pins.LinesDriven ∧ cgramState.pins.supplied = true ∧ cgramState.ReadyOn 3
        ∧ cgramState.display.target = .cgram) :=
  ⟨⟨by decide, by decide, lateOn_readyOn, by decide⟩, by decide, by decide, lateOn_readyOn, by decide⟩
theorem witness_DisplayCommandsPlaceTheCounter :
    lateOnState.pins.LinesDriven ∧ lateOnState.pins.supplied = true ∧ lateOnState.ReadyOn 3
      ∧ UsesDefaultCommands lateOnState.cfg ∧ lateOnState.display.table = .zero :=
  ⟨by decide, by decide, lateOn_readyOn, by decide, by decide⟩
theorem witness_PowerOnInitialisesTheFixture :
    1 ≤ (resetState 1 (ready 81)).cfg.pollBound ∧ (resetState 1 (ready 81)).ReadyFor 81
      ∧ UsesDefaultCommands (resetState 1 (ready 81)).cfg :=
  ⟨by decide, by unfold State.ReadyFor; decide +kernel, by decide⟩
theorem witness_WriteLineFillsItsLine :
    (onState 1 (ready 17)).powered = true ∧ (onState 1 (ready 17)).pins.LinesDriven
      ∧ (onState 1 (ready 17)).pins.supplied = true ∧ 1 ≤ (onState 1 (ready 17)).cfg.pollBound ∧ (2 = 1 ∨ 2 = 2)
      ∧ (onState 1 (ready 17)).ReadyFor 17 ∧ UsesDefaultCommands (onState 1 (ready 17)).cfg := by
  unfold State.ReadyFor; decide

end Sys2Proof.Tests
end

section
/-! The scope statements (spec/00_scope.md): a step runs the decoded request, the waveform tells the pins, and the
display record never interferes. -/

namespace Sys2Proof.Machine

/-! ## The step -/

/-- Settles O5: the two matches of `step` taken at the request and at what it decodes to. -/
theorem stepRunsTheDecodedRequest : Obligations.StepRunsTheDecodedRequest := by
  intro s r rest i hreq hdec
  simp only [step, hreq, hdec]
  rfl

/-! ## The waveform -/

theorem powerOn_traced (s : State) : Traced s (powerOn s) :=
  powerOn_rel (R := Traced) Traced.refl Traced.trans (fun _ _ => .of_eq rfl rfl) (fun _ => .of_eq rfl rfl)
    powerUpPhase_traced writeByte_traced (fun _ _ _ => .of_eq rfl rfl) s

theorem powerOff_traced (s : State) : Traced s (powerOff s) :=
  powerOff_rel (R := Traced) Traced.trans (fun _ _ => .of_eq rfl rfl) (fun _ => .of_eq rfl rfl)
    powerDownPhase_traced s

/-- Settles O53: every piece an operation is made of adds to the waveform what replays to its new pins. -/
theorem theWaveformTellsThePins : Obligations.TheWaveformTellsThePins :=
  exec_rel (R := Traced) Traced.refl Traced.trans powerOn_traced powerOff_traced writeByte_traced
    (fun _ _ => .of_eq rfl rfl) waitReady_traced sampleStatus_traced (fun _ _ => .of_eq rfl rfl)
    (fun s ev _ => Traced.drive s ev) readBus_traced (fun rs b s _ => transfer_traced rs b s)

/-! ## Another display record: the pieces that leave the record alone

Each commutes with putting another record in. -/

section
variable (s : State) (d : Display)

theorem State.drive_setDisplay (ev : PinEvent) : (s.setDisplay d).drive ev = (s.drive ev).setDisplay d := by
  rw [State.drive_eq, State.drive_eq]; rfl

theorem State.observe_setDisplay (ev : PinEvent) : (s.setDisplay d).observe ev = (s.observe ev).setDisplay d := rfl

theorem State.nextAnswer_setDisplay : (s.setDisplay d).nextAnswer = s.nextAnswer := rfl

theorem State.popAnswer_setDisplay : (s.setDisplay d).popAnswer = s.popAnswer.setDisplay d := by
  unfold State.popAnswer
  rw [State.setDisplay_answers]
  split <;> rfl

theorem State.setStatus_setDisplay (v : Byte) : (s.setDisplay d).setStatus v = (s.setStatus v).setDisplay d := rfl

theorem State.logTransfer_setDisplay (x : Transfer) :
    (s.setDisplay d).logTransfer x = (s.logTransfer x).setDisplay d := rfl

theorem State.setPollCnt_setDisplay (n : Nat) : (s.setDisplay d).setPollCnt n = (s.setPollCnt n).setDisplay d := rfl

theorem State.busyFlag_setDisplay : (s.setDisplay d).busyFlag = s.busyFlag := rfl

theorem delayTick_setDisplay : delayTick (s.setDisplay d) = (delayTick s).setDisplay d := rfl

theorem readBus_setDisplay : readBus (s.setDisplay d) = (readBus s).setDisplay d := by
  simp only [readBus, State.nextAnswer_setDisplay, State.popAnswer_setDisplay, State.observe_setDisplay]

theorem sampleStatus_setDisplay : sampleStatus (s.setDisplay d) = (sampleStatus s).setDisplay d := by
  simp only [sampleStatus, setBusDirection, setControlLine, State.drive_setDisplay, delayTick_setDisplay,
    State.nextAnswer_setDisplay, readBus_setDisplay, State.setStatus_setDisplay, State.logTransfer_setDisplay]

end

theorem pollFrom_setDisplay (more : Nat) (s : State) (d : Display) :
    pollFrom more (s.setDisplay d) = ((pollFrom more s).1, (pollFrom more s).2.setDisplay d) := by
  induction more generalizing s with
  | zero =>
    simp only [pollFrom, sampleStatus_setDisplay, State.setDisplay_pollCnt, State.setPollCnt_setDisplay,
      State.busyFlag_setDisplay]
    split <;> rfl
  | succ more ih =>
    simp only [pollFrom, sampleStatus_setDisplay, State.setDisplay_pollCnt, State.setPollCnt_setDisplay,
      State.busyFlag_setDisplay, delayTick_setDisplay, ih]
    split <;> rfl

theorem waitReady_setDisplay (s : State) (d : Display) :
    waitReady (s.setDisplay d) = ((waitReady s).1, (waitReady s).2.setDisplay d) :=
  pollFrom_setDisplay _ (s.setPollCnt 0) d

/-! ## Two runs that differ in the display record -/

/-- The second state is the first but for its display record. -/
def SameBlock (s t : State) : Prop := ∃ d, t = s.setDisplay d

theorem SameBlock.setDisplay (s : State) (d : Display) : SameBlock s (s.setDisplay d) := ⟨d, rfl⟩

section
variable {s t : State}

theorem SameBlock.raise (h : SameBlock s t) (c : Condition) : SameBlock (s.raise c) (t.raise c) := by
  obtain ⟨d, rfl⟩ := h; exact ⟨d, rfl⟩

theorem SameBlock.drive (h : SameBlock s t) (ev : PinEvent) : SameBlock (s.drive ev) (t.drive ev) := by
  obtain ⟨d, rfl⟩ := h; exact ⟨d, s.drive_setDisplay d ev⟩

theorem SameBlock.observe (h : SameBlock s t) (ev : PinEvent) : SameBlock (s.observe ev) (t.observe ev) := by
  obtain ⟨d, rfl⟩ := h; exact ⟨d, rfl⟩

theorem SameBlock.logTransfer (h : SameBlock s t) (x : Transfer) :
    SameBlock (s.logTransfer x) (t.logTransfer x) := by
  obtain ⟨d, rfl⟩ := h; exact ⟨d, rfl⟩

theorem SameBlock.setSeq (h : SameBlock s t) (q : Seq) : SameBlock (s.setSeq q) (t.setSeq q) := by
  obtain ⟨d, rfl⟩ := h; exact ⟨d, rfl⟩

theorem SameBlock.setPowered (h : SameBlock s t) (b : Bool) : SameBlock (s.setPowered b) (t.setPowered b) := by
  obtain ⟨d, rfl⟩ := h; exact ⟨d, rfl⟩

theorem SameBlock.setInitIndex (h : SameBlock s t) (k : Nat) (e : InitEntry) :
    SameBlock (s.setInitIndex k e) (t.setInitIndex k e) := by
  obtain ⟨d, rfl⟩ := h; exact ⟨d, rfl⟩

/-- Whatever records the two states are given. -/
theorem SameBlock.setDisplays (h : SameBlock s t) (d d' : Display) :
    SameBlock (s.setDisplay d) (t.setDisplay d') := by
  obtain ⟨_, rfl⟩ := h; exact ⟨d', rfl⟩

theorem SameBlock.cfg_eq (h : SameBlock s t) : t.cfg = s.cfg := by
  obtain ⟨d, rfl⟩ := h; rfl

theorem SameBlock.powered_eq (h : SameBlock s t) : t.powered = s.powered := by
  obtain ⟨d, rfl⟩ := h; rfl

theorem SameBlock.readBus (h : SameBlock s t) : SameBlock (readBus s) (readBus t) := by
  obtain ⟨d, rfl⟩ := h; exact ⟨d, readBus_setDisplay s d⟩

theorem SameBlock.sampleStatus (h : SameBlock s t) : SameBlock (sampleStatus s) (sampleStatus t) := by
  obtain ⟨d, rfl⟩ := h; exact ⟨d, sampleStatus_setDisplay s d⟩

theorem SameBlock.waitReady (h : SameBlock s t) : SameBlock (waitReady s).2 (waitReady t).2 := by
  obtain ⟨d, rfl⟩ := h; exact ⟨d, by rw [waitReady_setDisplay]⟩

/-- The write phase: what the display latches goes to the record alone (42 R137). -/
theorem SameBlock.transfer (h : SameBlock s t) (rs : Bool) (b : Byte) :
    SameBlock (transfer rs b s) (transfer rs b t) := by
  have up := ((((h.drive (.busDir .output)).drive (.line .rw false)).drive (.line .rs rs)).drive (.bus b)).drive
    (.line .e true)
  exact (((up.observe .tick).drive (.line .e false)).logTransfer _).setDisplays _ _

theorem SameBlock.writeByte (h : SameBlock s t) (rs : Bool) (b : Byte) (p : Place) :
    SameBlock (writeByte rs b p s) (writeByte rs b p t) := by
  obtain ⟨d, rfl⟩ := h
  unfold Machine.writeByte
  rw [waitReady_setDisplay]
  rcases Machine.waitReady s with ⟨_ | _, u⟩
  · exact (SameBlock.setDisplay u d).transfer rs b
  · exact (SameBlock.setDisplay u d).raise _

/-! ### The sequencer -/

/-- A change of the supply loses the record and nothing else (60 R202). -/
theorem SameBlock.configPin (h : SameBlock s t) (pin : Pin) (lvl : Bool) :
    SameBlock (configPin pin lvl s) (configPin pin lvl t) := by
  rw [configPin_eq, configPin_eq]
  exact (h.drive (.cfg pin lvl)).setDisplays _ _

theorem SameBlock.powerUpPhase (h : SameBlock s t) : SameBlock (powerUpPhase s) (powerUpPhase t) := by
  have lines := ((h.configPin .e false).configPin .rw false).configPin .rs false
  have supply := ((lines.drive (.busDir .output)).drive (.bus 0x00#8)).configPin .pwr true
  unfold Machine.powerUpPhase setBusDirection writeBus delayMs
  dsimp only
  rw [supply.cfg_eq]
  exact supply.observe _

theorem SameBlock.powerDownPhase (h : SameBlock s t) : SameBlock (powerDownPhase s) (powerDownPhase t) :=
  (((((h.drive (.busDir .output)).drive (.bus 0x00#8)).configPin .e false).configPin .rw false).configPin
    .rs false).configPin .pwr false

theorem SameBlock.runInit (es : List InitEntry) (k : Nat) (h : SameBlock s t) :
    SameBlock (runInit es k s) (runInit es k t) := by
  induction es generalizing k s t with
  | nil => exact h
  | cons e es ih => exact ih _ ((h.setInitIndex k e).writeByte _ _ _)

theorem SameBlock.powerOn (h : SameBlock s t) : SameBlock (powerOn s) (powerOn t) := by
  rw [powerOn_eq, powerOn_eq, h.cfg_eq]
  exact (((h.setSeq .powering).powerUpPhase.runInit _ 0).setPowered true).setSeq .ready

theorem SameBlock.powerOff (h : SameBlock s t) : SameBlock (powerOff s) (powerOff t) :=
  (h.setPowered false).powerDownPhase.setSeq .off

/-! ### The text operations -/

theorem SameBlock.putCharacter (h : SameBlock s t) (p : Place) (c : Byte) :
    SameBlock (putCharacter p c s) (putCharacter p c t) := by
  unfold Machine.putCharacter
  rw [h.powered_eq]
  split
  · exact h.writeByte _ _ _
  · exact h.raise _

theorem SameBlock.putCharacters (cs : List Byte) (i : Nat) (h : SameBlock s t) :
    SameBlock (putCharacters cs i s) (putCharacters cs i t) := by
  induction cs generalizing i s t with
  | nil => exact h
  | cons c cs ih => exact ih _ (h.putCharacter _ _)

theorem SameBlock.moveCursor (h : SameBlock s t) (x y : Nat) : SameBlock (moveCursor x y s) (moveCursor x y t) := by
  unfold Machine.moveCursor
  rw [h.cfg_eq]
  exact h.writeByte _ _ _

theorem SameBlock.lineTransfers (h : SameBlock s t) (n : Nat) (text : List Byte) :
    SameBlock (lineTransfers n text s) (lineTransfers n text t) := by
  unfold Machine.lineTransfers
  rw [h.cfg_eq]
  exact (h.moveCursor _ _).putCharacters _ _

end

/-! ### Outcomes -/

/-- Two outcomes that differ at most in the display record of the next state. -/
def SameOutcome (o o' : Host.Outcome State Fault Refusal) : Prop :=
  ∀ d, mapNext (fun u => u.setDisplay d) o' = mapNext (fun u => u.setDisplay d) o

theorem SameOutcome.refl (o : Host.Outcome State Fault Refusal) : SameOutcome o o := fun _ => rfl

theorem SameBlock.next {s t : State} (h : SameBlock s t) : SameOutcome (.next s) (.next t) := by
  obtain ⟨d, rfl⟩ := h; exact fun _ => rfl

section
variable (s : State) (d : Display)

theorem whenLinesDriven_sameOutcome {u v : State} (h : SameBlock u v) :
    SameOutcome (whenLinesDriven s u) (whenLinesDriven (s.setDisplay d) v) := by
  unfold whenLinesDriven
  rw [State.setDisplay_pins]
  split
  · exact .refl _
  · exact h.next

theorem sendCommand_sameOutcome (b : Byte) : SameOutcome (sendCommand b s) (sendCommand b (s.setDisplay d)) :=
  whenLinesDriven_sameOutcome s d ((SameBlock.setDisplay s d).writeByte _ _ _)

theorem raiseContract_sameOutcome (k : Violation) :
    SameOutcome (raiseContract k s) (raiseContract k (s.setDisplay d)) := by
  unfold raiseContract
  rw [State.setDisplay_cfg]
  split
  · exact .refl _
  · exact ((SameBlock.setDisplay s d).raise _).next

theorem whenPowered_sameOutcome {o o' : Host.Outcome State Fault Refusal} (h : SameOutcome o o') :
    SameOutcome (whenPowered s o) (whenPowered (s.setDisplay d) o') := by
  unfold whenPowered
  rw [State.setDisplay_powered]
  split
  · exact h
  · exact ((SameBlock.setDisplay s d).raise _).next

/-- Only the last transfer of the trace gates a frame (log 15). -/
theorem writeFrame_sameOutcome (rs : Bool) (b : Byte) :
    SameOutcome (writeFrame rs b s) (writeFrame rs b (s.setDisplay d)) := by
  have gate : (s.setDisplay d).handshakeReady = s.handshakeReady := rfl
  unfold writeFrame
  rw [State.setDisplay_pins, gate]
  split
  · exact .refl _
  · split
    · exact ((SameBlock.setDisplay s d).transfer rs b).next
    · exact .refl _

theorem execWriteBus_sameOutcome (b : Byte) : SameOutcome (execWriteBus b s) (execWriteBus b (s.setDisplay d)) := by
  unfold execWriteBus checkedWriteBus writeBus
  rw [State.setDisplay_pins]
  by_cases h : s.pins.busDir = .output
  · simpa only [if_pos h] using ((SameBlock.setDisplay s d).drive (.bus b)).next
  · simpa only [if_neg h] using SameOutcome.refl _

theorem execReadBus_sameOutcome : SameOutcome (execReadBus s) (execReadBus (s.setDisplay d)) := by
  unfold execReadBus checkedReadBus
  rw [State.setDisplay_pins]
  by_cases h : s.pins.busDir = .input
  · simpa only [if_pos h] using (SameBlock.setDisplay s d).readBus.next
  · simpa only [if_neg h] using SameOutcome.refl _

theorem execSetCtl_sameOutcome (l : Line) (lvl : Bool) :
    SameOutcome (execSetCtl l lvl s) (execSetCtl l lvl (s.setDisplay d)) := by
  unfold execSetCtl checkedSetControlLine setControlLine
  rw [State.setDisplay_pins]
  by_cases h : s.pins.lineDir l = .output
  · simpa only [if_pos h] using ((SameBlock.setDisplay s d).drive (.line l lvl)).next
  · simpa only [if_neg h] using SameOutcome.refl _

/-- Every operation, run beside itself from another display record, ends alike but for that record. -/
theorem exec_sameOutcome (i : Instr) : SameOutcome (exec i s) (exec i (s.setDisplay d)) := by
  have start := SameBlock.setDisplay s d
  cases i with
  | powerOn => exact start.powerOn.next
  | powerOff => exact start.powerOff.next
  | writeCmd b => exact sendCommand_sameOutcome s d b
  | writeData b => exact whenLinesDriven_sameOutcome s d (start.writeByte _ _ _)
  | gotoxy x y =>
    refine whenPowered_sameOutcome s d ?_
    split
    · exact whenLinesDriven_sameOutcome s d (start.moveCursor x y)
    · exact raiseContract_sameOutcome s d _
  | putc c => exact whenPowered_sameOutcome s d (whenLinesDriven_sameOutcome s d (start.putCharacter _ c))
  | puts text =>
    refine whenPowered_sameOutcome s d ?_
    cases text with
    | nil => exact start.next
    | cons c cs => exact whenLinesDriven_sameOutcome s d (start.putCharacters _ _)
  | writeLine n text =>
    refine whenPowered_sameOutcome s d ?_
    split
    · exact whenLinesDriven_sameOutcome s d (start.lineTransfers n text)
    · exact raiseContract_sameOutcome s d _
  | sampleStatus => exact whenLinesDriven_sameOutcome s d start.sampleStatus
  | waitReady => exact whenLinesDriven_sameOutcome s d start.waitReady
  | setBusDir dir => exact (start.drive (.busDir dir)).next
  | writeBus b => exact execWriteBus_sameOutcome s d b
  | readBus => exact execReadBus_sameOutcome s d
  | setCtl l lvl => exact execSetCtl_sameOutcome s d l lvl
  | busCmd b => exact writeFrame_sameOutcome s d false b
  | busDat b => exact writeFrame_sameOutcome s d true b
  | busSts v =>
    have answered : SameBlock { s with answers := v :: s.answers }
        { s.setDisplay d with answers := v :: (s.setDisplay d).answers } := ⟨d, rfl⟩
    exact whenLinesDriven_sameOutcome s d answered.sampleStatus
  | lcdFuncsetIs1 => exact sendCommand_sameOutcome s d _
  | lcdBias => exact sendCommand_sameOutcome s d _
  | lcdPwrContrastHi c => exact sendCommand_sameOutcome s d _
  | lcdFollower => exact sendCommand_sameOutcome s d _
  | lcdContrastLo c => exact sendCommand_sameOutcome s d _
  | lcdFuncsetIs0 => exact sendCommand_sameOutcome s d _
  | lcdSetCgram a => exact sendCommand_sameOutcome s d _
  | lcdDisplayOn => exact sendCommand_sameOutcome s d _
  | lcdClear => exact sendCommand_sameOutcome s d _
  | lcdEntryInc => exact sendCommand_sameOutcome s d _
  | lcdSetDdram a => exact sendCommand_sameOutcome s d _

end

/-- Settles O56: the two runs keep step, piece by piece, but for the display record. -/
theorem theDisplayRecordNeverInterferes : Obligations.TheDisplayRecordNeverInterferes :=
  fun i s d d' => exec_sameOutcome s d i d'

end Sys2Proof.Machine
end

section
/-! The state statements (spec/10_state.md): what an operation is made of, the power state and the line directions,
the operation boundary, and the canonical form of the display memories. -/

namespace Sys2Proof.Machine

/-! ## How an operation that completes can end -/

section
variable {s t u : State}

theorem whenLinesDriven_eq_next (h : whenLinesDriven s u = .next t) : t = u := by
  rcases whenLinesDriven_cases s u with ⟨_, e⟩ | ⟨_, l, e⟩ <;> rw [e] at h <;> cases h
  rfl

theorem raiseContract_eq_next {k : Violation} (h : raiseContract k s = .next t) :
    t = s.raise (.contractViolation k) := by
  unfold raiseContract at h
  split at h <;> cases h
  rfl

/-- Past the power gate the operation runs, at the gate it raises (44 R165). -/
theorem whenPowered_eq_next {o : Host.Outcome State Fault Refusal} (h : whenPowered s o = .next t) :
    o = .next t ∨ t = s.raise .poweredOffAccess := by
  unfold whenPowered at h
  split at h
  · exact .inl h
  · cases h; exact .inr rfl

theorem writeFrame_eq_next {rs : Bool} {b : Byte} (h : writeFrame rs b s = .next t) : t = transfer rs b s := by
  unfold writeFrame at h
  split at h
  · cases h
  · split at h
    · exact (Host.Outcome.next.inj h).symm
    · cases h

theorem execWriteBus_eq_next {b : Byte} (h : execWriteBus b s = .next t) : t = s.drive (.bus b) := by
  unfold execWriteBus checkedWriteBus writeBus at h
  split_ifs at h
  exact (Host.Outcome.next.inj h).symm

theorem execReadBus_eq_next (h : execReadBus s = .next t) : t = readBus s := by
  unfold execReadBus checkedReadBus at h
  split_ifs at h
  exact (Host.Outcome.next.inj h).symm

theorem execSetCtl_eq_next {l : Line} {lvl : Bool} (h : execSetCtl l lvl s = .next t) : t = s.drive (.line l lvl) := by
  unfold execSetCtl checkedSetControlLine setControlLine at h
  split_ifs at h
  exact (Host.Outcome.next.inj h).symm

/-- A step waits, or runs the operation its next request names. -/
theorem step_eq_next (h : step s = .next t) :
    t = s ∨ ∃ r rest i, s.requests = r :: rest ∧ decode s.cfg r = .ok i
      ∧ exec i (s.setRequests rest) = .next t := by
  unfold step at h
  split at h
  · cases h; exact .inl rfl
  · next r rest hreq =>
    split at h
    · next i hdec => exact .inr ⟨r, rest, i, hreq, hdec, h⟩
    · cases h

end

/-- The host issues exposed operations only (30 R89b). -/
theorem exposed_of_decode_host {c : Config} {r : Request} {i : Instr} (hp : r.port = .host)
    (h : decode c r = .ok i) : i.exposed = true := by
  simp only [decode, hp] at h
  split at h
  · unfold hostOnly at h
    split at h
    · next he => cases h; exact he
    · cases h
  · cases h

/-! ## The pieces of an operation

Every operation but the two of the sequencer is a sequence of these; an exposed one of gated writes and raises only. -/

/-- One piece of an operation, exposed or not. -/
inductive Piece : Bool → State → State → Prop
  | write {x s} (rs b p) : Piece x s (writeByte rs b p s)
  | raised {x s} (c) : Piece x s (s.raise c)
  | wait {s} : Piece false s (waitReady s).2
  | sample {s} : Piece false s (sampleStatus s)
  | answer {s : State} (v) : Piece false s { s with answers := v :: s.answers }
  | busDir {s : State} (d) : Piece false s (s.drive (.busDir d))
  | bus {s : State} (b) : Piece false s (s.drive (.bus b))
  | line {s : State} (l lvl) : Piece false s (s.drive (.line l lvl))
  | read {s} : Piece false s (readBus s)
  | frame {s} (rs b) : Piece false s (transfer rs b s)

/-- A sequence of pieces. -/
abbrev Pieces (x : Bool) : State → State → Prop := Relation.ReflTransGen (Piece x)

/-- What is kept by doing nothing, by one thing after another, and by each piece, is kept by a sequence of them. -/
theorem Pieces.rel {R : State → State → Prop} {x : Bool} (refl : ∀ s, R s s)
    (trans : ∀ {s t u}, R s t → R t u → R s u) (piece : ∀ {s t}, Piece x s t → R s t) {s t : State}
    (h : Pieces x s t) : R s t := by
  induction h with
  | refl => exact refl s
  | tail _ last ih => exact trans ih (piece last)

theorem writeByte_pieces (x rs : Bool) (b : Byte) (p : Place) (s : State) : Pieces x s (writeByte rs b p s) :=
  .single (.write rs b p)

theorem raise_pieces (x : Bool) (s : State) (c : Condition) : Pieces x s (s.raise c) := .single (.raised c)

theorem putCharacters_pieces (x : Bool) (cs : List Byte) (i : Nat) (s : State) : Pieces x s (putCharacters cs i s) :=
  putCharacters_rel (R := Pieces x) (fun _ => .refl) .trans (writeByte_pieces x) (raise_pieces x) cs i s

section
variable {s t : State} {x : Bool}

theorem sendCommand_pieces {b : Byte} (h : sendCommand b s = .next t) : Pieces x s t := by
  rw [whenLinesDriven_eq_next h]; exact writeByte_pieces x _ _ _ s

theorem execWriteData_pieces {b : Byte} (h : execWriteData b s = .next t) : Pieces x s t := by
  rw [whenLinesDriven_eq_next h]; exact writeByte_pieces x _ _ _ s

theorem raiseContract_pieces {k : Violation} (h : raiseContract k s = .next t) : Pieces x s t := by
  rw [raiseContract_eq_next h]; exact raise_pieces x s _

/-- Behind the power gate only the operation itself is left to look at. -/
theorem whenPowered_pieces {o : Host.Outcome State Fault Refusal} (h : whenPowered s o = .next t)
    (ho : o = .next t → Pieces x s t) : Pieces x s t := by
  rcases whenPowered_eq_next h with e | rfl
  · exact ho e
  · exact raise_pieces x s _

theorem execGotoxy_pieces {c y : Nat} (h : execGotoxy c y s = .next t) : Pieces x s t :=
  whenPowered_pieces h fun h => by
    split at h
    · rw [whenLinesDriven_eq_next h]; exact writeByte_pieces x _ _ _ s
    · exact raiseContract_pieces h

theorem execPutc_pieces {c : Byte} (h : execPutc c s = .next t) : Pieces x s t :=
  whenPowered_pieces h fun h => by
    rw [whenLinesDriven_eq_next h]
    unfold putCharacter
    split
    · exact writeByte_pieces x _ _ _ s
    · exact raise_pieces x s _

theorem execPuts_pieces {text : List Byte} (h : execPuts text s = .next t) : Pieces x s t :=
  whenPowered_pieces h fun h => by
    cases text with
    | nil => cases h; exact .refl
    | cons c cs => rw [whenLinesDriven_eq_next h]; exact putCharacters_pieces x _ _ s

theorem execWriteLine_pieces {n : Nat} {text : List Byte} (h : execWriteLine n text s = .next t) : Pieces x s t :=
  whenPowered_pieces h fun h => by
    split at h
    · rw [whenLinesDriven_eq_next h]; exact (writeByte_pieces x _ _ _ s).trans (putCharacters_pieces x _ _ _)
    · exact raiseContract_pieces h

theorem execBusSts_pieces {v : Byte} (h : execBusSts v s = .next t) : Pieces false s t := by
  rw [whenLinesDriven_eq_next h]; exact .tail (.single (.answer v)) .sample

theorem writeFrame_pieces {rs : Bool} {b : Byte} (h : writeFrame rs b s = .next t) : Pieces false s t := by
  rw [writeFrame_eq_next h]; exact .single (.frame rs b)

/-- Every operation but the two of the sequencer, by its pieces. -/
theorem exec_pieces {i : Instr} (on : i ≠ .powerOn) (off : i ≠ .powerOff) (h : exec i s = .next t) :
    Pieces i.exposed s t := by
  cases i with
  | powerOn => exact absurd rfl on
  | powerOff => exact absurd rfl off
  | writeCmd b => exact sendCommand_pieces h
  | writeData b => exact execWriteData_pieces h
  | gotoxy c y => exact execGotoxy_pieces h
  | putc c => exact execPutc_pieces h
  | puts text => exact execPuts_pieces h
  | writeLine n text => exact execWriteLine_pieces h
  | sampleStatus => rw [whenLinesDriven_eq_next h]; exact .single .sample
  | waitReady => rw [whenLinesDriven_eq_next h]; exact .single .wait
  | setBusDir d => rw [← Host.Outcome.next.inj h]; exact .single (.busDir d)
  | writeBus b => rw [execWriteBus_eq_next h]; exact .single (.bus b)
  | readBus => rw [execReadBus_eq_next h]; exact .single .read
  | setCtl l lvl => rw [execSetCtl_eq_next h]; exact .single (.line l lvl)
  | busCmd b => exact writeFrame_pieces h
  | busDat b => exact writeFrame_pieces h
  | busSts v => exact execBusSts_pieces h
  | lcdFuncsetIs1 => exact sendCommand_pieces h
  | lcdBias => exact sendCommand_pieces h
  | lcdPwrContrastHi c => exact sendCommand_pieces h
  | lcdFollower => exact sendCommand_pieces h
  | lcdContrastLo c => exact sendCommand_pieces h
  | lcdFuncsetIs0 => exact sendCommand_pieces h
  | lcdSetCgram a => exact sendCommand_pieces h
  | lcdDisplayOn => exact sendCommand_pieces h
  | lcdClear => exact sendCommand_pieces h
  | lcdEntryInc => exact sendCommand_pieces h
  | lcdSetDdram a => exact sendCommand_pieces h

/-- What an operation can do: power on, power off, or a sequence of pieces. -/
theorem exec_cases {i : Instr} (h : exec i s = .next t) :
    t = powerOn s ∨ t = powerOff s ∨ Pieces i.exposed s t := by
  by_cases on : i = .powerOn
  · subst on; exact .inl (Host.Outcome.next.inj h).symm
  by_cases off : i = .powerOff
  · subst off; exact .inr (.inl (Host.Outcome.next.inj h).symm)
  exact .inr (.inr (exec_pieces on off h))

end

/-! ## What the pieces leave of the power state and the directions -/

/-- The lines keep their directions and the supply its level, and a configured bus stays configured. -/
def KeepsLines (s t : State) : Prop := SameLines s t ∧ (s.pins.busDir ≠ .unconf → t.pins.busDir ≠ .unconf)

/-- An update that leaves the pins alone. -/
theorem KeepsLines.of_pins_eq {s t : State} (h : t.pins = s.pins) : KeepsLines s t := by simp [KeepsLines, SameLines, h]

theorem KeepsLines.refl (s : State) : KeepsLines s s := .of_pins_eq rfl

theorem KeepsLines.trans {s t u : State} (h : KeepsLines s t) (k : KeepsLines t u) : KeepsLines s u :=
  ⟨h.1.trans k.1, k.2 ∘ h.2⟩

theorem sampleStatus_keepsLines (s : State) : KeepsLines s (sampleStatus s) := by
  simp [KeepsLines, SameLines, Pins.sampled]

theorem transfer_keepsLines (rs : Bool) (b : Byte) (s : State) : KeepsLines s (transfer rs b s) := by
  simp [KeepsLines, SameLines, Pins.written]

theorem writeByte_keepsLines (rs : Bool) (b : Byte) (p : Place) (s : State) : KeepsLines s (writeByte rs b p s) :=
  writeByte_rel (R := KeepsLines) KeepsLines.trans sampleStatus_keepsLines (fun _ _ => .of_pins_eq rfl)
    (fun _ => .of_pins_eq rfl) transfer_keepsLines (fun _ _ => .of_pins_eq rfl) rs b p s

theorem waitReady_keepsLines (s : State) : KeepsLines s (waitReady s).2 :=
  waitReady_rel (R := KeepsLines) KeepsLines.trans sampleStatus_keepsLines (fun _ _ => .of_pins_eq rfl)
    (fun _ => .of_pins_eq rfl) s

theorem drive_busDir_keepsLines (s : State) (d : Dir) : KeepsLines s (s.drive (.busDir d)) := by
  cases d <;> simp [KeepsLines, SameLines]

theorem drive_line_keepsLines (s : State) (l : Line) (lvl : Bool) : KeepsLines s (s.drive (.line l lvl)) := by
  cases l <;> simp [KeepsLines, SameLines]

section
variable {s t : State} {x : Bool}

theorem Piece.keepsLines (h : Piece x s t) : KeepsLines s t := by
  cases h with
  | write rs b p => exact writeByte_keepsLines rs b p s
  | raised c => exact .of_pins_eq rfl
  | wait => exact waitReady_keepsLines s
  | sample => exact sampleStatus_keepsLines s
  | answer v => exact .of_pins_eq rfl
  | busDir d => exact drive_busDir_keepsLines s d
  | bus b => simp [KeepsLines, SameLines]
  | line l lvl => exact drive_line_keepsLines s l lvl
  | read => exact .of_pins_eq s.popAnswer_pins
  | frame rs b => exact transfer_keepsLines rs b s

theorem Piece.control (h : Piece x s t) : SameControl s t := by
  cases h with
  | write rs b p => exact writeByte_control rs b p s
  | raised c => simp [SameControl]
  | wait => exact waitReady_control s
  | sample => exact sampleStatus_control s
  | answer v => simp [SameControl]
  | busDir d => simp [SameControl]
  | bus b => simp [SameControl]
  | line l lvl => simp [SameControl]
  | read => simp [SameControl, readBus]
  | frame rs b => exact transfer_control rs b s

/-- The pieces of the exposed operations start and end with Enable low. -/
theorem Piece.enableRests (h : Piece true s t) : EnableRests s t := by
  cases h with
  | write rs b p => exact writeByte_enableRests rs b p s
  | raised c => exact .of_eq rfl rfl

theorem Pieces.keepsLines (h : Pieces x s t) : KeepsLines s t := h.rel KeepsLines.refl KeepsLines.trans Piece.keepsLines

theorem Pieces.control (h : Pieces x s t) : SameControl s t := h.rel SameControl.refl SameControl.trans Piece.control

theorem Pieces.enableRests (h : Pieces true s t) : EnableRests s t :=
  h.rel EnableRests.refl EnableRests.trans Piece.enableRests

theorem KeepsLines.configured (h : KeepsLines s t) (hs : s.pins.Configured) : t.pins.Configured := by
  obtain ⟨⟨dirE, dirRw, dirRs, dirPwr, _⟩, bus⟩ := h
  obtain ⟨⟨e, rw, rs⟩, pwr, hbus⟩ := hs
  exact ⟨⟨dirE.trans e, dirRw.trans rw, dirRs.trans rs⟩, dirPwr.trans pwr, bus hbus⟩

theorem KeepsLines.unconfigured (h : KeepsLines s t) (hs : s.pins.Unconfigured) : t.pins.Unconfigured := by
  obtain ⟨⟨dirE, dirRw, dirRs, dirPwr, _⟩, _⟩ := h
  obtain ⟨e, rw, rs, pwr⟩ := hs
  exact ⟨dirE.trans e, dirRw.trans rw, dirRs.trans rs, dirPwr.trans pwr⟩

theorem Pieces.coherent (h : Pieces x s t) (hs : s.Coherent) : t.Coherent := by
  obtain ⟨seq, powered, _⟩ := h.control
  obtain ⟨ready, settled, unconfigured, configured⟩ := hs
  rw [State.Coherent, seq, powered]
  exact ⟨ready, settled, h.keepsLines.unconfigured ∘ unconfigured, h.keepsLines.configured ∘ configured⟩

theorem Pieces.boundary (h : Pieces true s t) (hs : s.Boundary) : t.Boundary := by
  obtain ⟨coherent, low⟩ := hs
  refine ⟨h.coherent coherent, fun ht => (h.enableRests (low ?_)).2⟩
  rwa [h.control.1] at ht

end

/-- Settles O35: the pieces of every other operation leave the power state, the supply and the directions. -/
theorem onlyTheSequencerMovesPower : Obligations.OnlyTheSequencerMovesPower := by
  intro i s t on off h
  have pieces := exec_pieces on off h
  obtain ⟨seq, powered, _, _, step, slot, row⟩ := pieces.control
  obtain ⟨⟨dirE, dirRw, dirRs, dirPwr, pwr⟩, _⟩ := pieces.keepsLines
  exact ⟨seq, powered, pwr, dirPwr, dirE, dirRw, dirRs, step, slot, row⟩

/-! ## What the sequencer leaves

Neither operation looks at the state it starts from (43 R156): each ends at a boundary. -/

theorem runInit_keepsLines (es : List InitEntry) (k : Nat) (s : State) : KeepsLines s (runInit es k s) :=
  runInit_rel (R := KeepsLines) KeepsLines.refl KeepsLines.trans writeByte_keepsLines
    (fun _ _ _ => .of_pins_eq rfl) es k s

theorem runInit_enableRests (es : List InitEntry) (k : Nat) (s : State) : EnableRests s (runInit es k s) :=
  runInit_rel (R := EnableRests) EnableRests.refl EnableRests.trans writeByte_enableRests
    (fun _ _ _ => .of_eq rfl rfl) es k s

/-- The last two assignments of `PowerOn`, from configured pins with Enable low. -/
theorem ready_boundary (u : State) (configured : u.pins.Configured) (low : u.pins.e = false) :
    ((u.setPowered true).setSeq .ready).Boundary :=
  ⟨⟨by simp, by simp, by simp, fun _ => configured⟩, fun _ => low⟩

/-- The last assignment of `PowerOff`, from configured pins with Enable low. -/
theorem off_boundary (u : State) (unpowered : u.powered = false) (configured : u.pins.Configured)
    (low : u.pins.e = false) : (u.setSeq .off).Boundary :=
  ⟨⟨by simp [unpowered], by simp, by simp, fun _ => configured⟩, fun _ => low⟩

theorem powerUpPhase_configured (s : State) : (powerUpPhase s).pins.Configured ∧ (powerUpPhase s).pins.e = false := by
  rw [powerUpPhase_pins]; decide

theorem powerDownPhase_configured (s : State) :
    (powerDownPhase s).pins.Configured ∧ (powerDownPhase s).pins.e = false := by
  rw [powerDownPhase_pins]; decide

theorem powerOn_boundary (s : State) : (powerOn s).Boundary := by
  obtain ⟨configured, low⟩ := powerUpPhase_configured (s.setSeq .powering)
  rw [powerOn_eq]
  exact ready_boundary _ ((runInit_keepsLines _ _ _).configured configured) (runInit_enableRests _ _ _ low).2

theorem powerOff_boundary (s : State) : (powerOff s).Boundary := by
  obtain ⟨configured, low⟩ := powerDownPhase_configured (s.setPowered false)
  obtain ⟨⟨_, unpowered, _⟩, _⟩ := powerDownPhase_same (s.setPowered false)
  exact off_boundary _ unpowered configured low

/-- Every operation keeps coherence, whatever port it came from. -/
theorem exec_coherent {i : Instr} {s t : State} (h : exec i s = .next t) (hs : s.Coherent) : t.Coherent := by
  rcases exec_cases h with rfl | rfl | pieces
  · exact (powerOn_boundary s).1
  · exact (powerOff_boundary s).1
  · exact pieces.coherent hs

/-- Settles O49: the request consumed, then the operation. -/
theorem everyStepKeepsCoherence : Obligations.EveryStepKeepsCoherence := by
  intro s t hs h
  rcases step_eq_next h with rfl | ⟨r, rest, i, _, _, run⟩
  · exact hs
  · exact exec_coherent run hs

/-! ## The operation boundary of the host -/

/-- Every exposed operation keeps the boundary, Enable low included. -/
theorem exec_boundary {i : Instr} {s t : State} (hi : i.exposed = true) (h : exec i s = .next t) (hs : s.Boundary) :
    t.Boundary := by
  rcases exec_cases h with rfl | rfl | pieces
  · exact powerOn_boundary s
  · exact powerOff_boundary s
  · rw [hi] at pieces; exact pieces.boundary hs

/-- The requests to come are the same. -/
def SameRequests (s t : State) : Prop := t.requests = s.requests

theorem SameRequests.trans {s t u : State} (h : SameRequests s t) (k : SameRequests t u) : SameRequests s u :=
  Eq.trans k h

theorem SameControl.requests {s t : State} (h : SameControl s t) : SameRequests s t := by
  obtain ⟨_, _, _, requests, _⟩ := h
  exact requests

theorem powerUpPhase_requests (s : State) : SameRequests s (powerUpPhase s) := (powerUpPhase_same s).1.requests

theorem powerDownPhase_requests (s : State) : SameRequests s (powerDownPhase s) := (powerDownPhase_same s).1.requests

theorem powerOn_requests (s : State) : (powerOn s).requests = s.requests :=
  powerOn_rel (R := SameRequests) (fun _ => rfl) SameRequests.trans (fun _ _ => rfl) (fun _ => rfl)
    powerUpPhase_requests (fun rs b p s => (writeByte_control rs b p s).requests) (fun _ _ _ => rfl) s

theorem powerOff_requests (s : State) : (powerOff s).requests = s.requests :=
  powerOff_rel (R := SameRequests) SameRequests.trans (fun _ _ => rfl) (fun _ => rfl) powerDownPhase_requests s

/-- No operation adds to the requests or takes from them. -/
theorem exec_requests {i : Instr} {s t : State} (h : exec i s = .next t) : t.requests = s.requests := by
  rcases exec_cases h with rfl | rfl | pieces
  · exact powerOn_requests s
  · exact powerOff_requests s
  · exact pieces.control.requests

/-- Settles O50: a host request is an exposed operation, and the requests after it are the rest. -/
theorem hostStepsKeepTheBoundary : Obligations.HostStepsKeepTheBoundary := by
  intro s t hs host h
  rcases step_eq_next h with rfl | ⟨r, rest, i, hreq, hdec, run⟩
  · exact ⟨hs, host⟩
  · rw [hreq] at host
    have exposed := exposed_of_decode_host (host r List.mem_cons_self) hdec
    refine ⟨exec_boundary exposed run hs, fun q hq => host q (List.mem_cons_of_mem r ?_)⟩
    rwa [exec_requests run, State.setRequests_requests] at hq

/-! ## The display memories -/

/-- If the old memories are in canonical form, so are the new ones. -/
def KeepsMemoryForm (s t : State) : Prop := s.MemoryCanonical → t.MemoryCanonical

theorem KeepsMemoryForm.refl (s : State) : KeepsMemoryForm s s := id

theorem KeepsMemoryForm.trans {s t u : State} (h : KeepsMemoryForm s t) (k : KeepsMemoryForm t u) :
    KeepsMemoryForm s u := k ∘ h

/-- An update that leaves the display record alone. -/
theorem KeepsMemoryForm.of_display_eq {s t : State} (h : t.display = s.display) : KeepsMemoryForm s t := by
  intro hs; rwa [State.MemoryCanonical, h]

theorem transfer_keepsMemoryForm (rs : Bool) (b : Byte) (s : State) : KeepsMemoryForm s (transfer rs b s) := by
  intro hs
  rw [State.MemoryCanonical, transfer_display]
  exact s.display.latch_wf s.pins.supplied rs b hs

theorem sampleStatus_keepsMemoryForm (s : State) : KeepsMemoryForm s (sampleStatus s) :=
  .of_display_eq (sampleStatus_display s)

theorem waitReady_keepsMemoryForm (s : State) : KeepsMemoryForm s (waitReady s).2 := by
  obtain ⟨_, _, _, display, _⟩ := waitReady_trace s
  exact .of_display_eq display

theorem writeByte_keepsMemoryForm (rs : Bool) (b : Byte) (p : Place) (s : State) :
    KeepsMemoryForm s (writeByte rs b p s) :=
  writeByte_rel (R := KeepsMemoryForm) KeepsMemoryForm.trans sampleStatus_keepsMemoryForm
    (fun _ _ => .of_display_eq rfl) (fun _ => .of_display_eq rfl) transfer_keepsMemoryForm
    (fun _ _ => .of_display_eq rfl) rs b p s

/-- A drive of a pin keeps the display record or loses it (60 R202). -/
theorem configPin_keepsMemoryForm (p : Pin) (lvl : Bool) (s : State) : KeepsMemoryForm s (configPin p lvl s) := by
  intro hs
  rw [State.MemoryCanonical, configPin_eq, State.setDisplay_display]
  split
  · exact hs
  · exact Display.unknown_wf _

theorem drive_keepsMemoryForm (s : State) (ev : PinEvent) : KeepsMemoryForm s (s.drive ev) :=
  .of_display_eq (s.drive_display ev)

theorem delayMs_keepsMemoryForm (n : Nat) (s : State) : KeepsMemoryForm s (delayMs n s) :=
  .of_display_eq (s.observe_display (.ms n))

theorem powerUpPhase_keepsMemoryForm (s : State) : KeepsMemoryForm s (powerUpPhase s) := by
  have lines := ((configPin_keepsMemoryForm .e false s).trans (configPin_keepsMemoryForm .rw false _)).trans
    (configPin_keepsMemoryForm .rs false _)
  have bus := (lines.trans (drive_keepsMemoryForm _ (.busDir .output))).trans (drive_keepsMemoryForm _ (.bus 0x00#8))
  have supply := bus.trans (configPin_keepsMemoryForm .pwr true _)
  unfold powerUpPhase setBusDirection writeBus
  exact supply.trans (delayMs_keepsMemoryForm _ _)

theorem powerDownPhase_keepsMemoryForm (s : State) : KeepsMemoryForm s (powerDownPhase s) := by
  intro hs
  rw [State.MemoryCanonical, powerDownPhase_display]
  split
  · exact hs
  · exact Display.unknown_wf _

theorem powerOn_keepsMemoryForm (s : State) : KeepsMemoryForm s (powerOn s) :=
  powerOn_rel (R := KeepsMemoryForm) KeepsMemoryForm.refl KeepsMemoryForm.trans (fun _ _ => .of_display_eq rfl)
    (fun _ => .of_display_eq rfl) powerUpPhase_keepsMemoryForm writeByte_keepsMemoryForm
    (fun _ _ _ => .of_display_eq rfl) s

theorem powerOff_keepsMemoryForm (s : State) : KeepsMemoryForm s (powerOff s) :=
  powerOff_rel (R := KeepsMemoryForm) KeepsMemoryForm.trans (fun _ _ => .of_display_eq rfl)
    (fun _ => .of_display_eq rfl) powerDownPhase_keepsMemoryForm s

theorem exec_keepsMemoryForm (i : Instr) (s t : State) (h : exec i s = .next t) : KeepsMemoryForm s t :=
  exec_rel (R := KeepsMemoryForm) KeepsMemoryForm.refl KeepsMemoryForm.trans powerOn_keepsMemoryForm
    powerOff_keepsMemoryForm writeByte_keepsMemoryForm (fun _ _ => .of_display_eq rfl) waitReady_keepsMemoryForm
    sampleStatus_keepsMemoryForm (fun _ _ => .of_display_eq rfl) (fun s ev _ => drive_keepsMemoryForm s ev)
    (fun s => .of_display_eq s.popAnswer_display) (fun rs b s _ => transfer_keepsMemoryForm rs b s) i s t h

/-- Settles O51: a latched byte stays within its memory, and a lost record is empty. -/
theorem everyStepKeepsTheMemoryForm : Obligations.EveryStepKeepsTheMemoryForm := by
  intro s t hs h
  rcases step_eq_next h with rfl | ⟨r, rest, i, _, _, run⟩
  · exact hs
  · exact exec_keepsMemoryForm i _ t run hs

/-! ## Reset -/

/-- Settles O47: the fields of the reset state. -/
theorem resetLeavesTheSpecValues : Obligations.ResetLeavesTheSpecValues :=
  ⟨rfl, rfl, rfl, ⟨rfl, rfl, rfl, rfl⟩, rfl, rfl⟩

theorem reset_boundary : State.reset.Boundary := by decide

/-- `T` is at least 1, and the default command bytes leave their fields' bits zero (00 R6). -/
theorem implementation_valid : Config.implementation.Valid :=
  ⟨Nat.le_add_left 1 _, by decide, by decide, by decide, by decide⟩

/-- Settles O48: one fact per invariant. -/
theorem resetMeetsTheInvariants : Obligations.ResetMeetsTheInvariants :=
  ⟨reset_boundary, Display.unknown_wf 0, Handshaken.nil, implementation_valid⟩

end Sys2Proof.Machine
end

section
/-! The memory statements (spec/20_memory.md): the handshake before every write of the trace, the constants and the
requests to come, and what a data write stores. -/

namespace Sys2Proof.Machine

/-! ## The handshake before every write -/

theorem KeepsHandshake.refl (s : State) : KeepsHandshake s s := id

theorem KeepsHandshake.trans {s t u : State} (h : KeepsHandshake s t) (k : KeepsHandshake t u) :
    KeepsHandshake s u := k ∘ h

/-- An update that leaves the trace alone. -/
theorem KeepsHandshake.of_transfers_eq {s t : State} (h : t.transfers = s.transfers) : KeepsHandshake s t := by
  intro hs; rwa [h]

theorem sampleStatus_keepsHandshake (s : State) : KeepsHandshake s (sampleStatus s) := by
  intro hs
  rw [sampleStatus_transfers]
  exact hs.append_sample _

/-- A write phase needs the ready sample that a frame looks for (42 R136; log 15). -/
theorem transfer_keepsHandshake (rs : Bool) (b : Byte) (s : State) (gate : s.handshakeReady = true) :
    KeepsHandshake s (transfer rs b s) := by
  intro hs
  rw [transfer_transfers]
  exact hs.append_write _ (s.handshakeReady_iff.1 gate)

theorem powerUpPhase_transfers (s : State) : (powerUpPhase s).transfers = s.transfers := by
  obtain ⟨_, _, _, _, _, transfers, _⟩ := powerUpPhase_same s
  exact transfers

theorem powerDownPhase_transfers (s : State) : (powerDownPhase s).transfers = s.transfers := by
  obtain ⟨_, _, _, _, _, transfers, _⟩ := powerDownPhase_same s
  exact transfers

theorem powerOn_keepsHandshake (s : State) : KeepsHandshake s (powerOn s) :=
  powerOn_rel (R := KeepsHandshake) KeepsHandshake.refl KeepsHandshake.trans (fun _ _ => .of_transfers_eq rfl)
    (fun _ => .of_transfers_eq rfl) (fun s => .of_transfers_eq (powerUpPhase_transfers s)) writeByte_handshake
    (fun _ _ _ => .of_transfers_eq rfl) s

theorem powerOff_keepsHandshake (s : State) : KeepsHandshake s (powerOff s) :=
  powerOff_rel (R := KeepsHandshake) KeepsHandshake.trans (fun _ _ => .of_transfers_eq rfl)
    (fun _ => .of_transfers_eq rfl) (fun s => .of_transfers_eq (powerDownPhase_transfers s)) s

/-- The two pieces that add a write, the gated write and the frame, each add it after a ready sample; the other pieces
add samples or nothing. -/
theorem exec_keepsHandshake {i : Instr} {s t : State} (h : exec i s = .next t) : KeepsHandshake s t :=
  exec_rel (R := KeepsHandshake) KeepsHandshake.refl KeepsHandshake.trans powerOn_keepsHandshake
    powerOff_keepsHandshake writeByte_handshake (fun _ _ => .of_transfers_eq rfl) waitReady_handshake
    sampleStatus_keepsHandshake (fun _ _ => .of_transfers_eq rfl)
    (fun s ev _ => .of_transfers_eq (s.drive_transfers ev)) (fun s => .of_transfers_eq s.popAnswer_transfers)
    transfer_keepsHandshake i s t h

/-- Settles O52: the request consumed, then the operation; neither a wait nor the consuming touches the trace. -/
theorem everyWriteFollowsAReadySample : Obligations.EveryWriteFollowsAReadySample := by
  intro s t hs h
  rcases step_eq_next h with rfl | ⟨r, rest, i, _, _, run⟩
  · exact hs
  · exact exec_keepsHandshake run hs

/-! ## The constants -/

/-- The parameters are the same. -/
def SameConfig (s t : State) : Prop := t.cfg = s.cfg

theorem SameConfig.trans {s t u : State} (h : SameConfig s t) (k : SameConfig t u) : SameConfig s u := Eq.trans k h

theorem SameControl.config {s t : State} (h : SameControl s t) : SameConfig s t := by
  obtain ⟨_, _, config, _⟩ := h
  exact config

theorem powerOn_cfg (s : State) : (powerOn s).cfg = s.cfg :=
  powerOn_rel (R := SameConfig) (fun _ => rfl) SameConfig.trans (fun _ _ => rfl) (fun _ => rfl)
    (fun s => (powerUpPhase_same s).1.config) (fun rs b p s => (writeByte_control rs b p s).config)
    (fun _ _ _ => rfl) s

theorem powerOff_cfg (s : State) : (powerOff s).cfg = s.cfg :=
  powerOff_rel (R := SameConfig) SameConfig.trans (fun _ _ => rfl) (fun _ => rfl)
    (fun s => (powerDownPhase_same s).1.config) s

/-- No operation writes a parameter (20 R65). -/
theorem exec_cfg {i : Instr} {s t : State} (h : exec i s = .next t) : t.cfg = s.cfg := by
  rcases exec_cases h with rfl | rfl | pieces
  · exact powerOn_cfg s
  · exact powerOff_cfg s
  · exact pieces.control.config

/-- Settles O36: the parameters and the requests each by its own lemma. -/
theorem constantsNeverChange : Obligations.ConstantsNeverChange :=
  fun _ _ _ h => ⟨exec_cfg h, exec_requests h⟩

/-! ## A data write in the fixture -/

section
variable (d : Display) (b : Byte)

@[simp] theorem Display.data_address : (d.data b).address = d.address + 1#7 := by
  unfold Display.data; split <;> rfl

@[simp] theorem Display.data_target : (d.data b).target = d.target := by
  unfold Display.data; split <;> rfl

@[simp] theorem Display.data_table : (d.data b).table = d.table := by
  unfold Display.data; split <;> rfl

theorem Display.data_ddram_of_ddram (h : d.target = .ddram) :
    (d.data b).ddram = d.ddram.write d.storeAddress b := by
  unfold Display.data; rw [h]

theorem Display.data_cgram_of_ddram (h : d.target = .ddram) : (d.data b).cgram = d.cgram := by
  unfold Display.data; rw [h]

theorem Display.data_cgram_of_cgram (h : d.target = .cgram) :
    (d.data b).cgram = d.cgram.write d.storeAddress b := by
  unfold Display.data; rw [h]

theorem Display.data_ddram_of_cgram (h : d.target = .cgram) : (d.data b).ddram = d.ddram := by
  unfold Display.data; rw [h]

end

/-- A supplied display stores a data byte and runs a command byte (95 Part 2). -/
theorem Display.latch_supplied (d : Display) (rs : Bool) (b : Byte) :
    d.latch true rs b = if rs then d.data b else d.command b := rfl

/-- WRITE_DATA of a byte to a supplied display that answers ready: the fixture's store (42 R139, 95 Part 2). -/
theorem exec_writeData_display (b : Byte) (s : State) (j : Nat) (lines : s.pins.LinesDriven)
    (supplied : s.pins.supplied = true) (answers : s.ReadyOn j) :
    ∃ t, exec (.writeData b) s = .next t ∧ t.display = s.display.data b := by
  obtain ⟨_, _, _, _, _, _, display, _⟩ := writeByte_ready true b .alone s j answers
  refine ⟨_, whenLinesDriven_next s _ lines, ?_⟩
  rw [display, supplied, Display.latch_supplied, if_pos rfl]

/-- Settles O57: the fixture's store, then a read after a write in the memory the counter stands in. -/
theorem dataWriteStoresOneByte : Obligations.DataWriteStoresOneByte := by
  intro b s j lines supplied answers
  obtain ⟨t, run, display⟩ := exec_writeData_display b s j lines supplied answers
  refine ⟨t, run, ?_⟩
  rw [display]
  refine ⟨s.display.data_address b, s.display.data_target b, s.display.data_table b, fun target => ?_,
    fun target => ?_⟩
  · rw [s.display.data_ddram_of_ddram b target, s.display.data_cgram_of_ddram b target]
    exact ⟨Memory.read_write_same _ _ _, rfl, fun a other => Memory.read_write_other _ _ _ _ other⟩
  · rw [s.display.data_cgram_of_cgram b target, s.display.data_ddram_of_cgram b target]
    exact ⟨Memory.read_write_same _ _ _, rfl, fun a other => Memory.read_write_other _ _ _ _ other⟩

end Sys2Proof.Machine
end

section
/-! The encoding statements (spec/30_encoding.md) about words: their fields, the field of a command byte, the rows of an
instruction table, and decoding against encoding. -/

namespace Sys2Proof.Laws

open Sys2Proof Sys2Proof.Machine

/-! ## The fields of a word -/

section
variable (op aux : BitVec 4) (arg : Byte)

@[simp] theorem reqOp_req16 : reqOp (req16 op aux arg) = op := by
  rw [reqOp, req16, BitVec.setWidth_eq, BitVec.extractLsb'_append_eq_of_le (by decide)]
  exact BitVec.extractLsb'_append_eq_left

@[simp] theorem reqAux_req16 : reqAux (req16 op aux arg) = aux := by
  rw [reqAux, req16, BitVec.setWidth_eq, BitVec.extractLsb'_append_eq_of_le (by decide)]
  exact BitVec.extractLsb'_append_eq_right

@[simp] theorem reqArg_req16 : reqArg (req16 op aux arg) = arg := by
  rw [reqArg, req16, BitVec.setWidth_eq]
  exact BitVec.extractLsb'_append_eq_right

end

section
variable (rsrw b : Byte)

@[simp] theorem reqArg_frame : reqArg (frame rsrw b) = b := by
  rw [reqArg, frame, BitVec.setWidth_eq]
  exact BitVec.extractLsb'_append_eq_right

@[simp] theorem extractLsb'_frame : (frame rsrw b).extractLsb' 8 8 = rsrw := by
  rw [frame, BitVec.setWidth_eq]
  exact BitVec.extractLsb'_append_eq_left

theorem frame_zero : frame 0#8 b = b.setWidth 16 := by
  revert b; decide

end

/-- A `REQ16` word is made of its three fields (30 R72). -/
theorem req16_eq_of_fields {w : BitVec 16} {n : Nat} {aux : BitVec 4} {arg : Byte} (hop : (reqOp w).toNat = n)
    (haux : reqAux w = aux) (harg : reqArg w = arg) : req16 (BitVec.ofNat 4 n) aux arg = w := by
  subst hop haux harg
  rw [BitVec.ofNat_toNat, BitVec.setWidth_eq, req16, BitVec.setWidth_eq, reqOp, reqAux, reqArg,
    BitVec.extractLsb'_append_extractLsb'_eq_extractLsb' (show 12 = 8 + 4 from rfl),
    BitVec.extractLsb'_append_extractLsb'_eq_extractLsb' (show 8 = 0 + 8 from rfl)]
  exact BitVec.extractLsb'_eq_self

/-- A frame is made of its byte and the bits above it (30 R71). -/
theorem frame_eq_of_fields {w : BitVec 16} {n : Nat} (htop : (w.extractLsb' 8 8).toNat = n) :
    frame (BitVec.ofNat 8 n) (reqArg w) = w := by
  subst htop
  rw [BitVec.ofNat_toNat, BitVec.setWidth_eq, frame, BitVec.setWidth_eq, reqArg,
    BitVec.extractLsb'_append_extractLsb'_eq_extractLsb' (show 8 = 0 + 8 from rfl)]
  exact BitVec.extractLsb'_eq_self

/-- A one-bit operand with zeros above it is the whole argument (30 R73). -/
theorem bitArg_getLsbD (arg : Byte) (h : arg.extractLsb' 1 7 = 0#7) : bitArg (arg.getLsbD 0) = arg := by
  revert arg; decide

theorem unusedZero_eq_ok {ok : Bool} {i j : Instr} : unusedZero ok i = .ok j ↔ ok = true ∧ i = j := by
  cases ok <;> simp [unusedZero]

/-! ## The field of a command byte -/

/-- The `n` low bits of the base of a command byte are zero (00 R6). -/
def FieldClear (n : Nat) (base : Byte) : Prop := base &&& (BitVec.allOnes n).setWidth 8 = 0#8

section
variable {n : Nat} {base : Byte} (field : BitVec n) (clear : FieldClear n base)
include clear

/-- The base and the field have no bit in common. -/
theorem base_and_field : base &&& field.setWidth 8 = 0#8 := by
  have within : field.setWidth 8 = (BitVec.allOnes n).setWidth 8 &&& field.setWidth 8 := by
    ext k hk
    by_cases h : k < n <;> simp [h, BitVec.getLsbD_of_ge, Nat.le_of_not_lt]
  rw [within, ← BitVec.and_assoc, show base &&& (BitVec.allOnes n).setWidth 8 = 0#8 from clear, BitVec.zero_and]

/-- So the insert is a sum (30 R90). -/
theorem insert_toNat (hn : n ≤ 8) : (base ||| field.setWidth 8).toNat = base.toNat + field.toNat := by
  have apart := base_and_field field clear
  rw [← BitVec.add_eq_or_of_and_eq_zero _ _ apart, BitVec.toNat_add_of_and_eq_zero apart,
    BitVec.toNat_setWidth_of_le hn]

/-- The base has only zeros under the field. -/
theorem base_getLsbD {k : Nat} (hk : k < n) : base.getLsbD k = false := by
  rcases Nat.lt_or_ge k 8 with h8 | h8
  · have bit : (base &&& (BitVec.allOnes n).setWidth 8).getLsbD k = false := by
      rw [show base &&& (BitVec.allOnes n).setWidth 8 = 0#8 from clear, BitVec.getLsbD_zero]
    simpa [hk, h8] using bit
  · exact BitVec.getLsbD_of_ge _ _ h8

/-- The bits above the field are the base's. -/
theorem insert_mask : (base ||| field.setWidth 8) &&& BitVec.allOnes 8 <<< n = base := by
  apply BitVec.eq_of_getLsbD_eq
  intro k hk
  simp only [BitVec.getLsbD_and, BitVec.getLsbD_or, BitVec.getLsbD_setWidth, BitVec.getLsbD_shiftLeft,
    BitVec.getLsbD_allOnes]
  by_cases h : k < n
  · rw [base_getLsbD clear h]; simp [h]
  · simp [h, hk, show k - n < 8 by omega, BitVec.getLsbD_of_ge field k (by omega)]

/-- The bits of the field are the field. -/
theorem insert_extract (hn : n ≤ 8) : (base ||| field.setWidth 8).extractLsb' 0 n = field := by
  apply BitVec.eq_of_getLsbD_eq
  intro k hk
  simp only [BitVec.getLsbD_extractLsb', BitVec.getLsbD_or, BitVec.getLsbD_setWidth, Nat.zero_add,
    base_getLsbD clear hk]
  simp [hk, show k < 8 by omega]

end

/-- The bases that 00 R6 constrains, and the widths of their fields. -/
theorem fieldsClear_of_valid {c : Config} (valid : c.Valid) : FieldClear 2 c.cmdPwrBase
    ∧ FieldClear 4 c.cmdContrastBase ∧ FieldClear 6 c.cmdSetCgram ∧ FieldClear 7 c.cmdSetDdram := by
  obtain ⟨_, clear⟩ := valid
  exact clear

/-- Settles O26: every base is clear under its field, and the addresses fit theirs. -/
theorem fieldsAreCleanInserts : Obligations.FieldsAreCleanInserts := by
  intro c valid
  obtain ⟨pwr, contrast, cgram, ddram⟩ := fieldsClear_of_valid valid
  refine ⟨fun hi => insert_toNat hi pwr (by decide), fun lo => insert_toNat lo contrast (by decide), ?_,
    fun slot => ?_, fun x y hx hy => ⟨?_, by omega⟩⟩
  · exact (BitVec.extractLsb'_append_extractLsb'_eq_extractLsb' (show 4 = 0 + 4 from rfl)).trans
      BitVec.extractLsb'_eq_self
  · rw [setCgramByte, insert_toNat _ cgram (by decide), cgramAddress, BitVec.toNat_ofNat, Nat.mod_eq_of_lt (by omega)]
  · rw [setDdramByte, insert_toNat _ ddram (by decide), ddramAddress, BitVec.toNat_ofNat, rowStride,
      Nat.mod_eq_of_lt (by omega)]

/-! ## The rows of an instruction table -/

/-- A row of an instruction table: the bits it fixes and their value, and what a byte of the row is read as. -/
structure CommandRow where
  bits : Byte × Byte
  read : Byte → Instr

/-- The byte is one of the row's. -/
def CommandRow.has (r : CommandRow) (b : Byte) : Bool := b &&& r.bits.1 == r.bits.2

/-- A row of one byte. -/
def CommandRow.single (b : Byte) (i : Instr) : CommandRow := ⟨(0xFF#8, b), fun _ => i⟩

/-- A row with an `n`-bit field in its low bits. -/
def CommandRow.field {n : Nat} (mask base : Byte) (read : BitVec n → Instr) : CommandRow :=
  ⟨(mask, base), fun b => read (b.extractLsb' 0 n)⟩

theorem CommandRow.single_has (v b : Byte) (i : Instr) : (CommandRow.single v i).has b = (b == v) := by
  rw [CommandRow.has, CommandRow.single, show (0xFF#8 : Byte) = BitVec.allOnes 8 from rfl, BitVec.and_allOnes]

theorem single_reads (v : Byte) (i : Instr) :
    (CommandRow.single v i).has v ∧ (CommandRow.single v i).read v = i :=
  ⟨by rw [CommandRow.single_has, beq_self_eq_true], rfl⟩

theorem field_reads {n : Nat} {mask base : Byte} (read : BitVec n → Instr) (x : BitVec n) (hn : n ≤ 8)
    (above : mask = BitVec.allOnes 8 <<< n) (clear : FieldClear n base) :
    (CommandRow.field mask base read).has (base ||| x.setWidth 8)
      ∧ (CommandRow.field mask base read).read (base ||| x.setWidth 8) = read x := by
  subst above
  exact ⟨beq_iff_eq.2 (insert_mask x clear), congrArg read (insert_extract x clear hn)⟩

/-- The rows both tables have (30 R86). -/
def commonTable (c : Config) : List CommandRow :=
  [.single c.cmdFuncsetIs1 .lcdFuncsetIs1, .single c.cmdFuncsetIs0 .lcdFuncsetIs0,
    .single c.cmdDisplayOn .lcdDisplayOn, .single c.cmdClear .lcdClear, .single c.cmdEntryInc .lcdEntryInc,
    .field setDdramMask c.cmdSetDdram .lcdSetDdram]

/-- The rows of one table alone (30 R86). -/
def ownTable (c : Config) : InstructionTable → List CommandRow
  | .one =>
    [.single c.cmdBias .lcdBias, .field pwrMask c.cmdPwrBase .lcdPwrContrastHi, .single c.cmdFollower .lcdFollower,
      .field contrastMask c.cmdContrastBase .lcdContrastLo]
  | .zero => [.field setCgramMask c.cmdSetCgram .lcdSetCgram]

/-- `commandRows`, with what each row is read as. -/
def commandTable (c : Config) (t : InstructionTable) : List CommandRow := commonTable c ++ ownTable c t

theorem commandTable_bits (c : Config) (t : InstructionTable) :
    (commandTable c t).map CommandRow.bits = commandRows c t := by
  cases t <;> rfl

/-- What a byte is read as by the first row that has it. -/
def readRows (rows : List CommandRow) (b : Byte) : Option Instr := (rows.find? (·.has b)).map (·.read b)

theorem readRows_nil (b : Byte) : readRows [] b = none := rfl

theorem readRows_cons (r : CommandRow) (rows : List CommandRow) (b : Byte) :
    readRows (r :: rows) b = if r.has b then some (r.read b) else readRows rows b := by
  cases h : r.has b <;> simp [readRows, h]

theorem readRows_append (rows rows' : List CommandRow) (b : Byte) :
    readRows (rows ++ rows') b = (readRows rows b).or (readRows rows' b) := by
  simp [readRows, List.find?_append, Option.map_or]

theorem decodeCommonCommand_eq (c : Config) (b : Byte) : decodeCommonCommand c b = readRows (commonTable c) b := by
  simp only [commonTable, readRows_cons, readRows_nil, CommandRow.single_has]
  simp [decodeCommonCommand, CommandRow.single, CommandRow.field, CommandRow.has]

theorem decodeTableCommand_eq (c : Config) (t : InstructionTable) (b : Byte) :
    decodeTableCommand c t b = readRows (ownTable c t) b := by
  cases t <;> simp only [ownTable, readRows_cons, readRows_nil, CommandRow.single_has] <;>
    simp [decodeTableCommand, CommandRow.single, CommandRow.field, CommandRow.has]

/-- A byte is read as a command by the first row of its table (log 16). -/
theorem decodeCommand_eq (c : Config) (t : InstructionTable) (b : Byte) :
    decodeCommand c t b = readRows (commandTable c t) b := by
  rw [commandTable, readRows_append, ← decodeCommonCommand_eq, ← decodeTableCommand_eq, decodeCommand]
  cases decodeCommonCommand c b <;> rfl

/-- A byte that some row has is read as something. -/
theorem readRows_isSome {rows : List CommandRow} {r : CommandRow} {b : Byte} (mem : r ∈ rows) (has : r.has b) :
    (readRows rows b).isSome := by
  rw [readRows, Option.isSome_map, List.find?_isSome]
  exact ⟨r, mem, has⟩

/-- Two rows that are apart have no byte in common. -/
theorem not_has_of_rowsApart {r r' : CommandRow} {b : Byte} (apart : RowsApart r.bits r'.bits) (has : r.has b) :
    ¬ r'.has b := by
  intro has'
  apply apart
  rw [← eq_of_beq has, ← eq_of_beq has']
  ext k hk
  simp only [BitVec.getElem_and, BitVec.getElem_xor, BitVec.getElem_zero]
  cases r.bits.1[k] <;> cases b[k] <;> simp

/-- Where the rows are apart, any row that has a byte is the one that reads it. -/
theorem readRows_of_mem {rows : List CommandRow} {r : CommandRow} {b : Byte}
    (apart : (rows.map CommandRow.bits).Pairwise RowsApart) (mem : r ∈ rows) (has : r.has b) :
    readRows rows b = some (r.read b) := by
  induction rows with
  | nil => cases mem
  | cons q rows ih =>
    obtain ⟨first, rest⟩ := List.pairwise_cons.1 apart
    rw [readRows_cons]
    rcases List.mem_cons.1 mem with rfl | mem
    · rw [if_pos has]
    · have other : ¬ q.has b := fun hq => not_has_of_rowsApart (first _ (List.mem_map_of_mem mem)) hq has
      rw [if_neg other, ih rest mem]

/-! ## The display commands -/

/-- The instruction table whose command port the encoder gives a display command (30 R86). -/
def homeTable : Instr → InstructionTable
  | .lcdBias | .lcdPwrContrastHi _ | .lcdFollower | .lcdContrastLo _ | .lcdFuncsetIs0 => .one
  | _ => .zero

section
variable {c : Config} {i : Instr} {b : Byte} (command : commandByte c i = some b)
include command

/-- The word of a display command is the byte it sends (30 R74). -/
theorem encode_command : encode c i = commandRequest (homeTable i) b := by
  cases i <;> cases command <;> rfl

theorem wellFormed_of_command : i.wellFormed = true := by
  cases i <;> cases command <;> rfl

/-- Under a valid configuration the byte of a display command is in a row of its table that reads it as the command. -/
theorem commandTable_has (valid : c.Valid) : ∃ r ∈ commandTable c (homeTable i), r.has b ∧ r.read b = i := by
  obtain ⟨pwr, contrast, cgram, ddram⟩ := fieldsClear_of_valid valid
  have common : ∀ k (hk : k < 6), (commonTable c)[k]'hk ∈ commandTable c (homeTable i) :=
    fun _ _ => List.mem_append_left _ (List.getElem_mem _)
  have own : ∀ k (hk : k < (ownTable c (homeTable i)).length),
      (ownTable c (homeTable i))[k] ∈ commandTable c (homeTable i) :=
    fun _ _ => List.mem_append_right _ (List.getElem_mem _)
  cases i with
  | lcdFuncsetIs1 => cases command; exact ⟨_, common 0 (by decide), single_reads _ _⟩
  | lcdFuncsetIs0 => cases command; exact ⟨_, common 1 (by decide), single_reads _ _⟩
  | lcdDisplayOn => cases command; exact ⟨_, common 2 (by decide), single_reads _ _⟩
  | lcdClear => cases command; exact ⟨_, common 3 (by decide), single_reads _ _⟩
  | lcdEntryInc => cases command; exact ⟨_, common 4 (by decide), single_reads _ _⟩
  | lcdSetDdram a => cases command; exact ⟨_, common 5 (by decide), field_reads _ a (by decide) rfl ddram⟩
  | lcdBias => cases command; exact ⟨_, own 0 (by decide : 0 < 4), single_reads _ _⟩
  | lcdPwrContrastHi hi => cases command; exact ⟨_, own 1 (by decide : 1 < 4), field_reads _ hi (by decide) rfl pwr⟩
  | lcdFollower => cases command; exact ⟨_, own 2 (by decide : 2 < 4), single_reads _ _⟩
  | lcdContrastLo lo => cases command; exact ⟨_, own 3 (by decide : 3 < 4), field_reads _ lo (by decide) rfl contrast⟩
  | lcdSetCgram a => cases command; exact ⟨_, own 0 (by decide : 0 < 1), field_reads _ a (by decide) rfl cgram⟩
  | _ => cases command

end

/-! ## Decoding what was encoded -/

/-- The host port is the request codes, less the operations the host may not issue (30 R73, R89b). -/
theorem decode_host_eq_ok {c : Config} {w : BitVec 16} {text : List Byte} {i : Instr} :
    decode c ⟨.host, w, text⟩ = .ok i ↔ decodeReq16 w text = .ok i ∧ i.exposed = true := by
  simp only [decode]
  cases decodeReq16 w text with
  | error e => simp
  | ok j => cases exposed : j.exposed <;> simp [hostOnly, exposed] <;> rintro rfl <;> exact exposed

/-- An operation that is no display command comes back under every configuration. -/
theorem decode_encode_of_not_command {c : Config} {i : Instr} (wf : i.wellFormed = true)
    (other : commandByte c i = none) : decode c (encode c i) = .ok i := by
  cases i with
  | powerOn | powerOff | writeCmd | writeData | putc | puts =>
    exact decode_host_eq_ok.2 ⟨by simp [decodeReq16, unusedZero], rfl⟩
  | gotoxy x y =>
    have fits : x < 256 ∧ y < 16 := by simpa [Instr.wellFormed] using wf
    exact decode_host_eq_ok.2 ⟨by simp [decodeReq16, Nat.mod_eq_of_lt fits.1, Nat.mod_eq_of_lt fits.2], rfl⟩
  | writeLine n text =>
    have fits : n < 16 := by simpa [Instr.wellFormed] using wf
    exact decode_host_eq_ok.2 ⟨by simp [decodeReq16, unusedZero, Nat.mod_eq_of_lt fits], rfl⟩
  | sampleStatus | waitReady | writeBus | readBus => simp [decode, encode, decodeReq16, unusedZero]
  | setBusDir d => cases d <;> simp [decode, encode, decodeReq16, unusedZero, bitArg]
  | setCtl line lvl =>
    cases line <;> cases lvl <;> simp [decode, encode, decodeReq16, decodeSetCtl, unusedZero, bitArg, lineCode]
  | busCmd | busDat | busSts => simp [decode, encode, decodeBus10]
  | _ => cases other

/-- A display command comes back where no byte is in two rows of its table. -/
theorem decode_encode_of_command {c : Config} {i : Instr} {b : Byte} (command : commandByte c i = some b)
    (valid : c.Valid) (distinct : CommandsDistinct c) : decode c (encode c i) = .ok i := by
  obtain ⟨r, mem, has, read⟩ := commandTable_has command valid
  have apart : ((commandTable c (homeTable i)).map CommandRow.bits).Pairwise RowsApart := by
    obtain ⟨one, zero⟩ := distinct
    rw [commandTable_bits]
    cases homeTable i
    · exact zero
    · exact one
  rw [encode_command command, decode_commandRequest, decodeCommand_eq, readRows_of_mem apart mem has, read,
    Option.getD_some]

/-- A display command comes back as a command of the same byte. -/
theorem decode_encode_sends {c : Config} {i : Instr} {b : Byte} (command : commandByte c i = some b)
    (valid : c.Valid) : ∃ j, decode c (encode c i) = .ok j ∧ commandByte c j = some b := by
  obtain ⟨r, mem, has, _⟩ := commandTable_has command valid
  obtain ⟨j, read⟩ := Option.isSome_iff_exists.1 (readRows_isSome mem has)
  rw [← decodeCommand_eq] at read
  exact ⟨j, by rw [encode_command command, decode_commandRequest, read, Option.getD_some], decodeCommand_sends read⟩

/-- Settles O1: operations with fields of their own, and display commands by the row of their table. -/
theorem decodeOfEncodeIsTheOperation : Obligations.DecodeOfEncodeIsTheOperation := by
  intro c i wf
  refine ⟨decode_encode_of_not_command wf, fun valid distinct => ?_, fun b valid command =>
    decode_encode_sends command valid⟩
  cases command : commandByte c i with
  | none => exact decode_encode_of_not_command wf command
  | some b => exact decode_encode_of_command command valid distinct

/-! ## Encoding what was decoded -/

/-- A decoded SET_CTL has its line's code and a one-bit level (30 R73). -/
theorem decodeSetCtl_eq_ok {aux : BitVec 4} {arg : Byte} {i : Instr} (h : decodeSetCtl aux arg = .ok i) :
    ∃ line lvl, i = .setCtl line lvl ∧ aux = lineCode line ∧ arg = bitArg lvl := by
  unfold decodeSetCtl at h
  split at h
  case h_4 | h_5 => cases h
  all_goals
    next code =>
    rw [unusedZero_eq_ok, beq_iff_eq] at h
    obtain ⟨zero, rfl⟩ := h
    exact ⟨_, _, rfl, BitVec.eq_of_toNat_eq code, (bitArg_getLsbD arg zero).symm⟩

/-- A decoded SET_BUS_DIR has a one-bit direction (30 R73). -/
theorem bitArg_dir {arg : Byte} (zero : arg.extractLsb' 1 7 = 0#7) :
    arg = bitArg ((if arg.getLsbD 0 then Dir.output else Dir.input) == .output) := by
  revert arg; decide

/-- A `REQ16` word that decodes is the word of what it decodes to, whose operands fit. -/
theorem decodeReq16_word {w : BitVec 16} {text : List Byte} {i : Instr} (h : decodeReq16 w text = .ok i) (c : Config) :
    i.wellFormed = true ∧ (encode c i).word = w := by
  unfold decodeReq16 at h
  dsimp only at h
  split at h
  case h_1 op | h_2 op | h_7 op | h_9 op | h_10 op | h_13 op =>
    rw [unusedZero_eq_ok, Bool.and_eq_true, beq_iff_eq, beq_iff_eq] at h
    obtain ⟨⟨aux, arg⟩, rfl⟩ := h
    exact ⟨rfl, req16_eq_of_fields op aux arg⟩
  case h_3 op | h_4 op | h_6 op | h_12 op =>
    rw [unusedZero_eq_ok, beq_iff_eq] at h
    obtain ⟨aux, rfl⟩ := h
    exact ⟨rfl, req16_eq_of_fields op aux rfl⟩
  case h_5 op =>
    cases h
    have fits : (reqArg w).toNat < 256 ∧ (reqAux w).toNat < 16 := ⟨(reqArg w).isLt, (reqAux w).isLt⟩
    exact ⟨by simpa [Instr.wellFormed] using fits, req16_eq_of_fields op (by simp) (by simp)⟩
  case h_8 op =>
    rw [unusedZero_eq_ok, beq_iff_eq] at h
    obtain ⟨arg, rfl⟩ := h
    exact ⟨decide_eq_true (reqAux w).isLt, req16_eq_of_fields op (by simp) arg⟩
  case h_11 op =>
    rw [unusedZero_eq_ok, Bool.and_eq_true, beq_iff_eq, beq_iff_eq] at h
    obtain ⟨⟨aux, zero⟩, rfl⟩ := h
    exact ⟨rfl, req16_eq_of_fields op aux (bitArg_dir zero)⟩
  case h_14 op =>
    obtain ⟨line, lvl, rfl, aux, arg⟩ := decodeSetCtl_eq_ok h
    exact ⟨rfl, req16_eq_of_fields op aux arg⟩
  case h_15 => cases h

/-- A frame that decodes is the frame of what it decodes to (30 R71). -/
theorem decodeBus10_word {w : BitVec 16} {i : Instr} (h : decodeBus10 w = .ok i) (c : Config) :
    i.wellFormed = true ∧ (encode c i).word = w := by
  unfold decodeBus10 at h
  split at h
  case h_1 top | h_2 top | h_3 top => cases h; exact ⟨rfl, frame_eq_of_fields top⟩
  case h_4 | h_5 => cases h

/-- A command word that decodes is the byte of the command it decodes to, or a byte that is passed through. -/
theorem decodeLcd8_word {c : Config} {t : InstructionTable} {w : BitVec 16} {i : Instr} (h : decodeLcd8 c t w = .ok i) :
    (i.wellFormed = true ∧ (encode c i).word = w)
      ∨ (w = (reqArg w).setWidth 16 ∧ decodeCommand c t (reqArg w) = none ∧ i = .writeCmd (reqArg w)) := by
  unfold decodeLcd8 at h
  split at h
  · next top =>
    have word : frame 0#8 (reqArg w) = w := frame_eq_of_fields (congrArg BitVec.toNat top)
    cases read : decodeCommand c t (reqArg w) with
    | none =>
      rw [read, Option.getD_none] at h
      cases h
      exact .inr ⟨by rw [← frame_zero, word], rfl, rfl⟩
    | some j =>
      rw [read, Option.getD_some] at h
      cases h
      have command := decodeCommand_sends read
      exact .inl ⟨wellFormed_of_command command, by rw [encode_command command]; exact word⟩
  · cases h

/-- Settles O2: each format by its own inversion. -/
theorem decodedRequestIsTheEncodersWord : Obligations.DecodedRequestIsTheEncodersWord := by
  rintro c ⟨port, w, text⟩ i h
  cases port with
  | host =>
    obtain ⟨read, _⟩ := decode_host_eq_ok.1 h
    obtain ⟨wf, word⟩ := decodeReq16_word read c
    exact ⟨wf, .inl word⟩
  | inner =>
    obtain ⟨wf, word⟩ := decodeReq16_word h c
    exact ⟨wf, .inl word⟩
  | bus =>
    obtain ⟨wf, word⟩ := decodeBus10_word h c
    exact ⟨wf, .inl word⟩
  | command t =>
    rcases decodeLcd8_word h with ⟨wf, word⟩ | ⟨word, other, rfl⟩
    · exact ⟨wf, .inl word⟩
    · exact ⟨rfl, .inr ⟨t, _, rfl, word, other, rfl⟩⟩

/-! ## Which words are refused -/

section
variable {c : Config} {w : BitVec 16} {text : List Byte} {i : Instr}

/-- An exposed operation from the host: decoded if its unused fields are zero, refused for them otherwise. -/
theorem decode_host_of_unusedZero {ok : Bool} (exposed : i.exposed = true)
    (read : decodeReq16 w text = unusedZero ok i) :
    if ok then decode c ⟨.host, w, text⟩ = .ok i else decode c ⟨.host, w, text⟩ = .error .nonzeroField := by
  cases ok <;> simp [decode, read, unusedZero, hostOnly, exposed]

/-- As `decode_host_of_unusedZero`, for a test `P` of the unused fields and some exposed operation. -/
theorem decode_host_exposed {ok : Bool} {P : Prop} [Decidable P] (test : ok = true ↔ P) (exposed : i.exposed = true)
    (read : decodeReq16 w text = unusedZero ok i) :
    if P then ∃ i, decode c ⟨.host, w, text⟩ = .ok i ∧ i.exposed = true
    else decode c ⟨.host, w, text⟩ = .error .nonzeroField := by
  have decoded := decode_host_of_unusedZero (c := c) exposed read
  split
  · next h => rw [if_pos (test.2 h)] at decoded; exact ⟨i, decoded, exposed⟩
  · next h => rwa [if_neg (h ∘ test.1)] at decoded

/-- The word of an exposed operation has no op code above 8 (30 R73). -/
theorem exposed_op_le (exposed : i.exposed = true) : (reqOp (encode c i).word).toNat ≤ 8 := by
  cases i <;> simp_all [encode, Instr.exposed]

/-- A micro-operation code is refused from the host, whatever stands in its fields (30 R89b). -/
theorem decode_host_of_internal_op (low : 9 ≤ (reqOp w).toNat) : ∃ e, decode c ⟨.host, w, text⟩ = .error e := by
  cases decoded : decode c ⟨.host, w, text⟩ with
  | error e => exact ⟨e, rfl⟩
  | ok i =>
    obtain ⟨read, exposed⟩ := decode_host_eq_ok.1 decoded
    obtain ⟨_, word⟩ := decodeReq16_word read c
    have op := exposed_op_le (c := c) exposed
    rw [word] at op
    omega

/-- A byte of the command port is sent unchanged, by its command or by WRITE_CMD (30 R89d). -/
theorem decode_command_byte (t : InstructionTable) (b : Byte) :
    ∃ i, decode c ⟨.command t, b.setWidth 16, text⟩ = .ok i
      ∧ (commandByte c i = some b ∨ decodeCommand c t b = none ∧ i = .writeCmd b) := by
  have decoded : decode c ⟨.command t, b.setWidth 16, text⟩ = .ok ((decodeCommand c t b).getD (.writeCmd b)) := by
    rw [← frame_zero]; exact decode_commandRequest c t b
  rw [decoded]
  cases read : decodeCommand c t b with
  | none => exact ⟨_, rfl, .inr ⟨rfl, rfl⟩⟩
  | some i => exact ⟨i, rfl, .inl (decodeCommand_sends read)⟩

end

/-- Settles O3: the op code picks the arm of the decoder; a command byte goes by what it is read as. -/
theorem hostWordsRefusedOrExposed : Obligations.HostWordsRefusedOrExposed := by
  intro c w text
  refine ⟨?reserved, fun low _ => decode_host_of_internal_op low, ?noField, ?argField, ?gotoxy, ?writeLine, ?dataRead,
    decode_command_byte⟩
  case reserved => rintro (op | op) <;> simp [decode, decodeReq16, op]
  case noField =>
    have test : (reqAux w == 0#4 && reqArg w == 0#8) = true ↔ reqAux w = 0#4 ∧ reqArg w = 0#8 := by simp
    rintro (op | op | op)
    · exact decode_host_exposed (i := .powerOn) test rfl (by simp [decodeReq16, op])
    · exact decode_host_exposed (i := .powerOff) test rfl (by simp [decodeReq16, op])
    · exact decode_host_exposed (i := .puts text) test rfl (by simp [decodeReq16, op])
  case argField =>
    rintro (op | op | op)
    · exact decode_host_exposed (i := .writeCmd _) beq_iff_eq rfl (by rw [decodeReq16, op]; rfl)
    · exact decode_host_exposed (i := .writeData _) beq_iff_eq rfl (by rw [decodeReq16, op]; rfl)
    · exact decode_host_exposed (i := .putc _) beq_iff_eq rfl (by rw [decodeReq16, op]; rfl)
  case gotoxy => intro op; simp [decode, decodeReq16, op, hostOnly, Instr.exposed]
  case writeLine =>
    intro op
    have decoded := decode_host_of_unusedZero (c := c) (w := w) (text := text) (ok := reqArg w == 0#8)
      (i := .writeLine (reqAux w).toNat text) rfl (by simp [decodeReq16, op])
    simpa using decoded
  case dataRead => intro top; simp [decode, decodeBus10, top]

/-! ## The words of the display commands -/

/-- Settles O25: the word is the encoder's byte, and the default bases with a field appended. -/
theorem defaultCommandBytesAreTheTables : Obligations.DefaultCommandBytesAreTheTables := by
  intro c
  refine ⟨fun i b command => ?_, fun default => ?_⟩
  · rw [encode_command command]
    exact ⟨frame_zero b, _, rfl⟩
  · obtain ⟨is1, bias, pwr, follower, contrast, is0, cgram, on, clear, entry, ddram⟩ := default
    simp only [encode, pwrContrastByte, contrastLowByte, setCgramByte, setDdramByte, commandRequest, is1, bias, pwr,
      follower, contrast, is0, cgram, on, clear, entry, ddram]
    decide

end Sys2Proof.Laws
end

section
/-! The encoding statements (spec/30_encoding.md) about execution: a refused word, the bus frames, and the display
commands. -/

namespace Sys2Proof.Machine

/-! ## The step -/

/-- Settles O6: the two matches of `step` taken at the refusal, and its first arm. -/
theorem stepRefusesOrWaits : Obligations.StepRefusesOrWaits :=
  ⟨fun s r rest e request refusal => by simp only [step, request, refusal], fun s idle => by simp only [step, idle]⟩

/-! ## Bus frames -/

section
variable {s : State} (lines : s.pins.LinesDriven)
include lines

/-- With the lines driven a write frame is its write phase after a ready sample (42 R136, 70 R222; log 15). -/
theorem writeFrame_ready (rs : Bool) (b : Byte) (gate : s.handshakeReady = true) :
    writeFrame rs b s = .next (transfer rs b s) := by
  rw [writeFrame, s.pins.undrivenLine_eq_none.2 lines]
  exact if_pos gate

/-- Otherwise it is refused. -/
theorem writeFrame_ungated (rs : Bool) (b : Byte) (gate : ¬ s.handshakeReady = true) :
    writeFrame rs b s = .refused .ungatedWrite := by
  rw [writeFrame, s.pins.undrivenLine_eq_none.2 lines]
  exact if_neg gate

end

/-- Settles O22: the write phase of either frame, behind the gate. -/
theorem busWriteFrames : Obligations.BusWriteFrames := by
  refine fun b s lines => ⟨fun before v last ready => ?_, fun noReady => ?_⟩
  · have gate : s.handshakeReady = true := s.handshakeReady_iff.2 ⟨before, v, last, ready⟩
    exact ⟨transfer false b s, transfer true b s, writeFrame_ready lines _ _ gate, writeFrame_ready lines _ _ gate,
      transfer_transfers _ _ _, transfer_transfers _ _ _, transfer_pins _ _ _, transfer_pins _ _ _,
      transfer_ticks _ _ _, transfer_ticks _ _ _, transfer_control _ _ _, transfer_control _ _ _,
      transfer_status _ _ _, transfer_status _ _ _, transfer_pollCnt _ _ _, transfer_pollCnt _ _ _,
      transfer_conditions _ _ _, transfer_conditions _ _ _, transfer_display _ _ _, transfer_display _ _ _⟩
  · have gate : ¬ s.handshakeReady = true := fun ready => noReady (s.handshakeReady_iff.1 ready)
    exact ⟨writeFrame_ungated lines _ _ gate, writeFrame_ungated lines _ _ gate⟩

/-- `s` with one more answer listed first (log 15). -/
def State.withAnswer (s : State) (v : Byte) : State := { s with answers := v :: s.answers }

@[simp] theorem State.withAnswer_answerAt_zero (s : State) (v : Byte) : (s.withAnswer v).answerAt 0 = v := rfl

@[simp] theorem State.withAnswer_answerAt_succ (s : State) (v : Byte) (k : Nat) :
    (s.withAnswer v).answerAt (k + 1) = s.answerAt k := by
  simp [State.answerAt, State.withAnswer]

/-- Settles O23: a sample whose answer is the frame's byte. -/
theorem busStatusFrame : Obligations.BusStatusFrame := by
  intro v s lines
  refine ⟨sampleStatus (s.withAnswer v), whenLinesDriven_next _ _ lines, ?_, ?_, ?_, ?_, fun k => ?_, ?_, ?_, ?_, ?_⟩
  · rw [sampleStatus_status, State.withAnswer_answerAt_zero]
  · rw [sampleStatus_transfers, State.withAnswer_answerAt_zero]; rfl
  · exact sampleStatus_pins _
  · exact sampleStatus_ticks _
  · rw [sampleStatus_answerAt, State.withAnswer_answerAt_succ]
  · exact sampleStatus_pollCnt _
  · exact sampleStatus_control (s.withAnswer v)
  · exact sampleStatus_conditions _
  · exact sampleStatus_display _

/-! ## Display commands -/

section
variable {s : State} {i : Instr} {b : Byte} (command : commandByte s.cfg i = some b) (lines : s.pins.LinesDriven)
include command

/-- A display command is one `WriteCommand` of its byte (30 R74; log 16). -/
theorem exec_command : exec i s = sendCommand b s := by
  cases i <;> cases command <;> rfl

include lines

theorem exec_command_next : exec i s = .next (writeByte false b .alone s) := by
  rw [exec_command command]; exact whenLinesDriven_next _ _ lines

/-- A supplied display that answers ready runs the byte of the command (95 Part 2; log 13). -/
theorem exec_command_display {j : Nat} (supplied : s.pins.supplied = true) (answers : s.ReadyOn j) {d : Display}
    (effect : s.display.command b = d) : ∃ t, exec i s = .next t ∧ t.display = d := by
  obtain ⟨_, _, _, _, _, _, display, _⟩ := writeByte_ready false b .alone s j answers
  refine ⟨_, exec_command_next command lines, ?_⟩
  rw [display, supplied, ← effect]
  rfl

end

/-- Settles O24: the gated write of the command's byte, ready or timed out. -/
theorem displayCommandsSendTheirByte : Obligations.DisplayCommandsSendTheirByte := by
  refine fun i c s command lines => ⟨fun j answers => ?_, fun bound busy => ?_⟩
  · obtain ⟨pins, status, pollCnt, transfers, _, conditions, display, _⟩ := writeByte_ready false c .alone s j answers
    exact ⟨_, exec_command_next command lines, transfers, pins, status, pollCnt, writeByte_control _ _ _ _, conditions,
      display⟩
  · obtain ⟨pins, _, _, transfers, _, conditions, display, _⟩ := writeByte_timeout false c .alone s bound busy
    exact ⟨_, exec_command_next command lines, transfers, pins, writeByte_control _ _ _ _, conditions, display⟩

/-! ## The default command bytes in the fixture -/

section
variable (d : Display)

/-- No earlier line of the fixture takes a set-DDRAM-address byte. -/
theorem Display.command_setDdram (a : BitVec 7) :
    d.command (0x80#8 ||| a.setWidth 8) = { d with address := a, target := .ddram } := by
  have lines : ∀ b a, b = 0x80#8 ||| BitVec.setWidth 8 (a : BitVec 7) → b ≠ 0x01#8 ∧ b &&& 0xFC#8 ≠ 0x04#8
      ∧ b &&& 0xF8#8 ≠ 0x08#8 ∧ b &&& 0xE0#8 ≠ 0x20#8 ∧ b &&& 0x80#8 = 0x80#8 ∧ b.setWidth 7 = a := by
    rintro _ a rfl; revert a; decide
  generalize h : 0x80#8 ||| a.setWidth 8 = b
  obtain ⟨clear, entry, on, table, ddram, address⟩ := lines b a h.symm
  rw [Display.command, if_neg clear, if_neg entry, if_neg on, if_neg table, if_pos ddram, address]

/-- Nor a set-CGRAM-address byte, and table 0 has no other line for it. -/
theorem Display.command_setCgram (base : d.table = .zero) (a : BitVec 6) :
    d.command (0x40#8 ||| a.setWidth 8) = { d with address := a.setWidth 7, target := .cgram } := by
  have lines : ∀ b a, b = 0x40#8 ||| BitVec.setWidth 8 (a : BitVec 6) → b ≠ 0x01#8 ∧ b &&& 0xFC#8 ≠ 0x04#8
      ∧ b &&& 0xF8#8 ≠ 0x08#8 ∧ b &&& 0xE0#8 ≠ 0x20#8 ∧ b &&& 0x80#8 ≠ 0x80#8 ∧ b &&& 0xC0#8 = 0x40#8
      ∧ (b &&& 0x3F#8).setWidth 7 = a.setWidth 7 := by
    rintro _ a rfl; revert a; decide
  generalize h : 0x40#8 ||| a.setWidth 8 = b
  obtain ⟨clear, entry, on, table, ddram, cgram, address⟩ := lines b a h.symm
  rw [Display.command, if_neg clear, if_neg entry, if_neg on, if_neg table, if_neg ddram, base]
  exact (if_pos cgram).trans (by rw [address])

theorem Display.command_funcsetIs1 : d.command 0x39#8 = { d with table := .one } := rfl

theorem Display.command_funcsetIs0 : d.command 0x38#8 = { d with table := .zero } := rfl

theorem Display.command_displayOn : d.command 0x0C#8 = { d with on := true } := rfl

theorem Display.command_entryInc : d.command 0x06#8 = d := rfl

theorem Display.command_clear :
    d.command 0x01#8 = { d with ddram := Memory.fill ddramSize 0x20#8, address := 0#7, target := .ddram } := rfl

end

/-- Settles O58: each command's default byte by its line of the fixture. -/
theorem displayCommandsPlaceTheCounter : Obligations.DisplayCommandsPlaceTheCounter := by
  intro s j lines supplied answers default
  obtain ⟨is1, -, -, -, -, is0, cgram, on, clear, entry, ddram⟩ := default
  have run : ∀ {i b v d}, commandByte s.cfg i = some b → b = v → s.display.command v = d →
      ∃ t, exec i s = .next t ∧ t.display = d :=
    fun command byte effect => exec_command_display command lines supplied answers (byte ▸ effect)
  refine ⟨fun a => run rfl (congrArg (· ||| a.setWidth 8) ddram) (s.display.command_setDdram a),
    fun table a => run rfl (congrArg (· ||| a.setWidth 8) cgram) (s.display.command_setCgram table a),
    run rfl is1 s.display.command_funcsetIs1, run rfl is0 s.display.command_funcsetIs0,
    run rfl on s.display.command_displayOn, run rfl entry s.display.command_entryInc, ?_⟩
  obtain ⟨t, next, display⟩ := run (i := .lcdClear) rfl clear s.display.command_clear
  refine ⟨t, next, ?_⟩
  rw [display]
  exact ⟨rfl, rfl, rfl, Memory.read_fill 128 0x20#8⟩

end Sys2Proof.Machine
end

section
/-! The transport statements (spec/40_bus_transport.md): each micro-operation with its `require`, and the operations
that use the control lines before these are configured. -/

namespace Sys2Proof.Machine

/-! ## A pin access -/

/-- The level of a control line (10 R23). -/
def Pins.lineLevel (p : Pins) : Line → Bool
  | .e => p.e
  | .rw => p.rw
  | .rs => p.rs

section
variable (p : Pins)

theorem Pins.after_busDir_eq_self (d : Dir) : p.after (.busDir d) = p ↔ p.busDir = dirValue d := by
  rw [Pins.after_busDir]
  exact ⟨fun h => (congrArg Pins.busDir h).symm, fun h => h ▸ rfl⟩

theorem Pins.after_bus_eq_self (b : Byte) : p.after (.bus b) = p ↔ p.busOut = b := by
  rw [Pins.after_bus]
  exact ⟨fun h => (congrArg Pins.busOut h).symm, fun h => h ▸ rfl⟩

theorem Pins.after_line_eq_self (l : Line) (lvl : Bool) : p.after (.line l lvl) = p ↔ p.lineLevel l = lvl := by
  refine ⟨fun h => ?_, fun h => ?_⟩
  · rw [← h]; cases l <;> rfl
  · subst h; cases l <;> rfl

end

/-- `State.drive_eq` with the test of the whole record replaced by one of the field that the event sets (40 R105). -/
theorem State.drive_eq_of_iff {s : State} {ev : PinEvent} {P : Prop} [Decidable P]
    (unchanged : s.pins.after ev = s.pins ↔ P) : s.drive ev = { s with
      pins := s.pins.after ev
      waveform := s.waveform ++ (if P then [] else [ev]) } := by
  rw [State.drive_eq, if_congr unchanged rfl rfl]

/-! ## The micro-operations -/

/-- Settles O7: the access sets `BUS_DIR`. -/
theorem setBusDirectionResult : Obligations.SetBusDirectionResult :=
  fun d s => congrArg Host.Outcome.next (State.drive_eq_of_iff (s.pins.after_busDir_eq_self d))

section
variable (s : State)

/-- Where its `require` holds WRITE_BUS is its pin access, elsewhere it is refused (40 R102, R106). -/
theorem execWriteBus_eq (b : Byte) :
    execWriteBus b s = if s.pins.busDir = .output then .next (s.drive (.bus b)) else .refused .busNotOutput := by
  unfold execWriteBus checkedWriteBus
  split_ifs <;> rfl

/-- Where its `require` holds READ_BUS is its read, elsewhere it is refused (40 R103, R106). -/
theorem execReadBus_eq :
    execReadBus s = if s.pins.busDir = .input then .next (readBus s) else .refused .busNotInput := by
  unfold execReadBus checkedReadBus
  split_ifs <;> rfl

/-- Where its `require` holds SET_CTL is its pin access, elsewhere it is refused (40 R104, R106). -/
theorem execSetCtl_eq (l : Line) (lvl : Bool) : execSetCtl l lvl s =
    if s.pins.lineDir l = .output then .next (s.drive (.line l lvl)) else .refused (.lineUnconfigured l) := by
  unfold execSetCtl checkedSetControlLine
  split_ifs <;> rfl

end

/-- Settles O8: the access sets `BUS_OUT`. -/
theorem writeBusResult : Obligations.WriteBusResult := by
  refine fun b s => ⟨fun out => ?_, fun notOut => (execWriteBus_eq s b).trans (if_neg notOut)⟩
  calc execWriteBus b s
    _ = .next (s.drive (.bus b)) := (execWriteBus_eq s b).trans (if_pos out)
    _ = _ := congrArg Host.Outcome.next (State.drive_eq_of_iff (s.pins.after_bus_eq_self b))

theorem readBus_waveform (s : State) : (readBus s).waveform = s.waveform ++ [.read (s.answerAt 0)] := by
  rw [readBus, State.observe_waveform, State.popAnswer_waveform, State.nextAnswer_eq]

theorem readBus_answerAt (s : State) (k : Nat) : (readBus s).answerAt k = s.answerAt (k + 1) := by
  rw [readBus, State.observe_answerAt, State.popAnswer_answerAt]

/-- Settles O9: a read moves the answers on and adds its event. -/
theorem readBusResult : Obligations.ReadBusResult := by
  refine fun s => ⟨fun input => ?_, fun notIn => (execReadBus_eq s).trans (if_neg notIn)⟩
  exact ⟨readBus s, (execReadBus_eq s).trans (if_pos input), readBus_waveform s, readBus_answerAt s, s.popAnswer_pins,
    s.popAnswer_status, s.popAnswer_pollCnt, Piece.control .read, s.popAnswer_transfers,
    s.popAnswer_conditions, s.popAnswer_display⟩

/-- SET_CTL of any configured line: that line alone (40 R104). -/
theorem exec_setCtl_configured {s : State} {l : Line} (configured : s.pins.lineDir l = .output) (lvl : Bool) :
    exec (.setCtl l lvl) s = .next { s with
      pins := s.pins.setLine l lvl
      waveform := s.waveform ++ (if s.pins.lineLevel l = lvl then [] else [.line l lvl]) } :=
  calc execSetCtl l lvl s
    _ = .next (s.drive (.line l lvl)) := (execSetCtl_eq s l lvl).trans (if_pos configured)
    _ = _ := congrArg Host.Outcome.next (State.drive_eq_of_iff (s.pins.after_line_eq_self l lvl))

theorem exec_setCtl_unconfigured {s : State} {l : Line} (unconf : s.pins.lineDir l = .unconf) (lvl : Bool) :
    exec (.setCtl l lvl) s = .refused (.lineUnconfigured l) :=
  (execSetCtl_eq s l lvl).trans (if_neg (by rw [unconf]; decide))

/-- Settles O10: the two ways SET_CTL ends, at each of the three lines. -/
theorem setControlLineResult : Obligations.SetControlLineResult := fun lvl _ =>
  ⟨fun e => exec_setCtl_configured (l := .e) e lvl, fun rw => exec_setCtl_configured (l := .rw) rw lvl,
    fun rs => exec_setCtl_configured (l := .rs) rs lvl, fun e => exec_setCtl_unconfigured (l := .e) e lvl,
    fun rw => exec_setCtl_unconfigured (l := .rw) rw lvl, fun rs => exec_setCtl_unconfigured (l := .rs) rs lvl⟩

/-! ## Before the lines are configured -/

section
variable {s : State} (unconf : s.pins.Unconfigured)
include unconf

/-- The line met first is Read/Write (log 8). -/
theorem undrivenLine_of_unconfigured : s.pins.undrivenLine = some .rw := by
  obtain ⟨_, rw, _, _⟩ := unconf
  exact if_pos rw

theorem whenLinesDriven_unconfigured (t : State) : whenLinesDriven s t = .refused (.lineUnconfigured .rw) := by
  rw [whenLinesDriven, undrivenLine_of_unconfigured unconf]

theorem writeFrame_unconfigured (rs : Bool) (b : Byte) :
    writeFrame rs b s = .refused (.lineUnconfigured .rw) := by
  rw [writeFrame, undrivenLine_of_unconfigured unconf]

end

/-- Settles O19: each operation that uses the lines looks at them first. -/
theorem unconfiguredLinesRefuse : Obligations.UnconfiguredLinesRefuse := by
  intro s unconf b
  have refused := whenLinesDriven_unconfigured unconf
  have frame := writeFrame_unconfigured unconf
  refine ⟨refused _, refused _, refused _, refused _, frame false b, frame true b, refused _, fun i c command => ?_⟩
  rw [exec_command command]
  exact refused _

end Sys2Proof.Machine
end

section
/-! The handshake statements (spec/41_handshake.md): one sample, the poll by its two ends, and the poll machine. -/

namespace Sys2Proof.Machine

/-! ## The sample and the poll -/

/-- Settles O11: each field of a sample. -/
theorem sampleStatusResult : Obligations.SampleStatusResult := fun s lines =>
  ⟨sampleStatus s, whenLinesDriven_next _ _ lines, sampleStatus_pins s, sampleStatus_status s,
    congrArg isBusy (sampleStatus_status s), sampleStatus_transfers s, sampleStatus_answerAt s, sampleStatus_ticks s,
    sampleStatus_pollCnt s, sampleStatus_control s, sampleStatus_conditions s, sampleStatus_display s⟩

section
variable {s : State} (lines : s.pins.LinesDriven)
include lines

theorem exec_waitReady_next : exec .waitReady s = .next (waitReady s).2 := whenLinesDriven_next _ _ lines

theorem exec_writeCmd_next (b : Byte) : exec (.writeCmd b) s = .next (writeByte false b .alone s) :=
  whenLinesDriven_next _ _ lines

theorem exec_writeData_next (b : Byte) : exec (.writeData b) s = .next (writeByte true b .alone s) :=
  whenLinesDriven_next _ _ lines

end

/-- Settles O12: the two ends of the poll, alone and before a write. -/
theorem pollCountingLaw : Obligations.PollCountingLaw := by
  refine fun s lines => ⟨fun j answers => ?_, fun bound busy => ?_⟩
  · obtain ⟨ready, _, _, _, transfers, _, _, ticks⟩ := waitReady_ready s j answers
    have written : ∀ rs b, (writeByte rs b .alone s).transfers = s.transfers ++ s.samples (j + 1) ++ [writeOf rs b] :=
      fun rs b => by
        obtain ⟨_, _, _, transfers, _⟩ := writeByte_ready rs b .alone s j answers
        exact transfers
    exact ⟨ready, transfers, by omega, fun b => ⟨_, _, exec_writeCmd_next lines b, written false b,
      exec_writeData_next lines b, written true b⟩⟩
  · obtain ⟨timeout, _, _, _, transfers, _, _, ticks⟩ := waitReady_timeout s bound busy
    have skipped : ∀ rs b, (writeByte rs b .alone s).transfers = s.transfers ++ s.samples s.cfg.pollBound :=
      fun rs b => by
        obtain ⟨_, _, _, transfers, _⟩ := writeByte_timeout rs b .alone s bound busy
        exact transfers
    exact ⟨timeout, transfers, by omega, fun b => ⟨_, _, exec_writeCmd_next lines b, skipped false b,
      exec_writeData_next lines b, skipped true b⟩⟩

/-- Settles O13: of the next `T` answers one is the first ready one, or all are busy. -/
theorem waitReadyResult : Obligations.WaitReadyResult := by
  intro s lines bound
  refine ⟨(waitReady s).2, ?_⟩
  rcases s.ready_or_busy s.cfg.pollBound with ⟨j, answers⟩ | busy
  · obtain ⟨_, pins, status, pollCnt, transfers, conditions, display, _⟩ := waitReady_ready s j answers
    obtain ⟨within, before, last⟩ := answers
    have notBusy : ¬ isBusy (waitReady s).2.status = true := by rw [status, last]; decide
    exact ⟨j + 1, exec_waitReady_next lines, j.succ_pos, within, transfers, status, pollCnt,
      fun h => absurd h notBusy, before, pins, waitReady_control s, conditions, display⟩
  · obtain ⟨_, pins, status, pollCnt, transfers, conditions, display, _⟩ := waitReady_timeout s bound busy
    exact ⟨s.cfg.pollBound, exec_waitReady_next lines, bound, le_rfl, transfers, status, pollCnt, fun _ => rfl,
      fun k hk => busy k (by omega), pins, waitReady_control s, conditions, display⟩

/-- Settles O14: the ticks of the two ends. -/
theorem pollTickCost : Obligations.PollTickCost := by
  refine fun s lines => ⟨fun j pos answers => ⟨_, exec_waitReady_next lines, ?_⟩,
    fun bound busy => ⟨_, exec_waitReady_next lines, ?_⟩⟩
  · obtain ⟨_, _, _, _, _, _, _, ticks⟩ := waitReady_ready s (j - 1) answers
    omega
  · obtain ⟨_, _, _, _, _, _, _, ticks⟩ := waitReady_timeout s bound busy
    exact ticks

/-! ## The poll by the rows of its machine -/

/-- One more sample in `POLL_CNT` (41 R122). -/
def State.counted (s : State) : State := s.setPollCnt (s.pollCnt + 1)

@[simp] theorem State.counted_pollCnt (s : State) : s.counted.pollCnt = s.pollCnt + 1 := rfl
@[simp] theorem State.counted_cfg (s : State) : s.counted.cfg = s.cfg := rfl
@[simp] theorem State.counted_pins (s : State) : s.counted.pins = s.pins := rfl

/-- The pins of a sample before Enable rises: the row of `H_SETUP` (41 R124). -/
def setupSample (s : State) : State :=
  setControlLine .rs false (setControlLine .rw true (setBusDirection .input s))

/-- The read of a sample and the fall of Enable: the row of `H_SAMPLE` before it counts (41 R124). -/
def readSample (s : State) : State :=
  ((setControlLine .e false (readBus s)).setStatus s.nextAnswer).logTransfer (.sts s.nextAnswer)

/-- The four rows of a sample are `SampleStatus` (41 R120). -/
theorem sampleStatus_eq_rows (s : State) :
    sampleStatus s = readSample (delayTick (setControlLine .e true (setupSample s))) := rfl

theorem pollFrom_zero (s : State) : pollFrom 0 s =
    if (sampleStatus s).counted.busyFlag then (.timeout, (sampleStatus s).counted)
    else (.ready, (sampleStatus s).counted) := by
  rw [pollFrom]; rfl

theorem pollFrom_succ (more : Nat) (s : State) : pollFrom (more + 1) s =
    if (sampleStatus s).counted.busyFlag then pollFrom more (delayTick (sampleStatus s).counted)
    else (.ready, (sampleStatus s).counted) := by
  rw [pollFrom]; rfl

theorem pollFrom_of_ready (more : Nat) {s : State} (ready : (sampleStatus s).counted.busyFlag = false) :
    pollFrom more s = (.ready, (sampleStatus s).counted) := by
  cases more with
  | zero => rw [pollFrom_zero, ready]; rfl
  | succ more => rw [pollFrom_succ, ready]; rfl

/-- The state the machine goes to from `H_SAMPLE`, the sample counted (41 R124). -/
def State.afterSample (s : State) : PollState :=
  if s.busyFlag = false then .ready else if s.pollCnt = s.cfg.pollBound then .timeout else .gap

theorem afterSample_sampleStatus (s : State) : (sampleStatus s).counted.afterSample =
    if (sampleStatus s).counted.busyFlag = false then .ready
    else if s.pollCnt + 1 = s.cfg.pollBound then .timeout else .gap := by
  rw [State.afterSample, State.counted_pollCnt, State.counted_cfg, sampleStatus_pollCnt, sampleStatus_cfg]

/-- The state the machine ends in for a result of `WaitReady` (41 R124). -/
def Handshake.pollState : Handshake → PollState
  | .ready => .ready
  | .timeout => .timeout

/-! ## Every `require` of the machine holds -/

theorem KeepsLines.linesDriven {s t : State} (keeps : KeepsLines s t) (lines : s.pins.LinesDriven) :
    t.pins.LinesDriven := by
  obtain ⟨⟨e, rw, rs, _⟩, _⟩ := keeps
  rwa [Pins.LinesDriven, e, rw, rs]

theorem checkedReadBus_ok {s : State} (input : s.pins.busDir = .input) :
    checkedReadBus s = .ok (s.nextAnswer, readBus s) := if_pos input

section
variable {s : State} (lines : s.pins.LinesDriven)
include lines

theorem checkedSetControlLine_ok (l : Line) (lvl : Bool) :
    checkedSetControlLine l lvl s = .ok (setControlLine l lvl s) := by
  obtain ⟨e, rw, rs⟩ := lines
  have configured : s.pins.lineDir l = .output := by
    cases l
    · exact e
    · exact rw
    · exact rs
  exact if_pos configured

theorem setBusDirection_linesDriven (d : Dir) : (setBusDirection d s).pins.LinesDriven :=
  (drive_busDir_keepsLines s d).linesDriven lines

theorem setControlLine_linesDriven (l : Line) (lvl : Bool) : (setControlLine l lvl s).pins.LinesDriven :=
  (drive_line_keepsLines s l lvl).linesDriven lines

theorem pollAdvance_setup : pollAdvance .setup s = .ok (.raise, setupSample s) := by
  have input := setBusDirection_linesDriven lines .input
  simp only [pollAdvance, checkedSetControlLine_ok input,
    checkedSetControlLine_ok (setControlLine_linesDriven input .rw true), bind, Except.bind]
  rfl

theorem pollAdvance_raise : pollAdvance .raise s = .ok (.settle, setControlLine .e true s) := by
  rw [pollAdvance, checkedSetControlLine_ok lines]; rfl

theorem pollAdvance_sample (input : s.pins.busDir = .input) :
    pollAdvance .sample s = .ok ((readSample s).counted.afterSample, (readSample s).counted) := by
  have read : (readBus s).pins.LinesDriven := (KeepsLines.of_pins_eq s.popAnswer_pins).linesDriven lines
  have row : pollAdvance .sample s =
      if (readSample s).counted.busyFlag = false then .ok (.ready, (readSample s).counted)
      else if (readSample s).counted.pollCnt = (readSample s).counted.cfg.pollBound then
        .ok (.timeout, (readSample s).counted)
      else .ok (.gap, (readSample s).counted) := by
    simp only [pollAdvance, checkedReadBus_ok input, checkedSetControlLine_ok read, bind, Except.bind]
    rfl
  rw [row, State.afterSample]
  split_ifs <;> rfl

end

/-! ## The machine computes the poll -/

/-- A step of the machine that is not refused, before `n` more. -/
theorem pollRun_succ {p q : PollState} {s t : State} (advance : pollAdvance p s = .ok (q, t)) (n : Nat) :
    pollRun (n + 1) p s = pollRun n q t := by
  rw [pollRun, advance]

/-- From `H_SETUP` four steps take one sample and count it. -/
theorem pollRun_sample {s : State} (lines : s.pins.LinesDriven) (n : Nat) :
    pollRun (n + 4) .setup s = pollRun n (sampleStatus s).counted.afterSample (sampleStatus s).counted := by
  have setup : (setupSample s).pins.LinesDriven :=
    setControlLine_linesDriven (setControlLine_linesDriven (setBusDirection_linesDriven lines _) _ _) _ _
  have settled : (delayTick (setControlLine .e true (setupSample s))).pins.LinesDriven :=
    setControlLine_linesDriven setup .e true
  have input : (delayTick (setControlLine .e true (setupSample s))).pins.busDir = .input := by
    simp [setupSample, setControlLine, setBusDirection, delayTick]
  rw [pollRun_succ (pollAdvance_setup lines), pollRun_succ (pollAdvance_raise setup), pollRun_succ rfl,
    pollRun_succ (pollAdvance_sample settled input), ← sampleStatus_eq_rows]

/-- From `H_SETUP` the machine runs the loop of `WaitReady` to its end. -/
theorem pollRun_pollFrom (more : Nat) (s : State) (lines : s.pins.LinesDriven)
    (left : s.pollCnt + 1 + more = s.cfg.pollBound) :
    ∃ n, pollRun n .setup s = .ok ((pollFrom more s).1.pollState, (pollFrom more s).2) := by
  induction more generalizing s with
  | zero =>
    refine ⟨4, ?_⟩
    rw [pollRun_sample lines 0, afterSample_sampleStatus, if_pos left, pollFrom_zero]
    cases (sampleStatus s).counted.busyFlag <;> rfl
  | succ more ih =>
    cases flag : (sampleStatus s).counted.busyFlag with
    | false =>
      refine ⟨4, ?_⟩
      rw [pollRun_sample lines 0, afterSample_sampleStatus, if_pos flag, pollFrom_of_ready _ flag]
      rfl
    | true =>
      have pins : (delayTick (sampleStatus s).counted).pins = s.pins.sampled := by simp [delayTick]
      have left' : (delayTick (sampleStatus s).counted).pollCnt + 1 + more
          = (delayTick (sampleStatus s).counted).cfg.pollBound := by
        simp only [delayTick, State.observe_pollCnt, State.observe_cfg, State.counted_pollCnt, State.counted_cfg,
          sampleStatus_pollCnt, sampleStatus_cfg]
        omega
      obtain ⟨n, run⟩ := ih _ (by rw [pins]; exact lines) left'
      refine ⟨n + 1 + 4, ?_⟩
      rw [pollRun_sample lines, afterSample_sampleStatus, if_neg (by rw [flag]; decide), if_neg (by omega),
        pollRun_succ rfl, run, pollFrom_succ, if_pos flag]

/-- Settles O15: `H_IDLE` clears the counter, then the loop. -/
theorem pollMachineIsWaitReady : Obligations.PollMachineIsWaitReady := by
  intro s lines bound
  obtain ⟨n, run⟩ := pollRun_pollFrom (s.cfg.pollBound - 1) (s.setPollCnt 0) lines
    (by simp only [State.setPollCnt_pollCnt, State.setPollCnt_cfg]; omega)
  exact ⟨n + 1, (pollRun_succ rfl n).trans run⟩

end Sys2Proof.Machine
end

section
/-! The channel statements (spec/42_cmd_data_channel.md): one gated write by its two ends, in another power state,
and by the rows of its machine. -/

namespace Sys2Proof.Machine

/-! ## The two ends of a gated write -/

/-- What one gated write to a ready display answers, at either level of Register-Select (42 R136, R137). -/
theorem gatedWrite_ready {o : Host.Outcome State Fault Refusal} {rs : Bool} {b : Byte} {s : State} {j : Nat}
    (run : o = .next (writeByte rs b .alone s)) (answers : s.ReadyOn j) :
    ∃ t, o = .next t ∧ t.transfers = s.transfers ++ s.samples (j + 1) ++ [writeOf rs b]
      ∧ t.pins = s.pins.written rs b ∧ t.status = s.answerAt j ∧ t.pollCnt = j + 1
      ∧ (∀ k, t.answerAt k = s.answerAt (j + 1 + k)) ∧ t.ticks = s.ticks + 2 * (j + 1) ∧ SameControl s t
      ∧ t.conditions = s.conditions ∧ t.display = s.display.latch s.pins.supplied rs b := by
  obtain ⟨pins, status, pollCnt, transfers, next, conditions, display, ticks⟩ :=
    writeByte_ready rs b .alone s j answers
  exact ⟨_, run, transfers, pins, status, pollCnt, next, ticks, writeByte_control rs b .alone s, conditions, display⟩

/-- Settles O16: the gated write with Register-Select 0. -/
theorem writeCommandSendsOneByte : Obligations.WriteCommandSendsOneByte :=
  fun b _ _ lines answers => gatedWrite_ready (exec_writeCmd_next lines b) answers

/-- Settles O17: the gated write with Register-Select 1. -/
theorem writeDataSendsOneByte : Obligations.WriteDataSendsOneByte :=
  fun b _ _ lines answers => gatedWrite_ready (exec_writeData_next lines b) answers

/-- Both primitives are the gated write: they differ in Register-Select alone (42 R135). -/
theorem exec_write_eq {i : Instr} {b : Byte} (primitive : i = .writeCmd b ∨ i = .writeData b) :
    ∃ rs, ∀ s, exec i s = whenLinesDriven s (writeByte rs b .alone s) := by
  rcases primitive with rfl | rfl
  · exact ⟨false, fun _ => rfl⟩
  · exact ⟨true, fun _ => rfl⟩

/-- Settles O18: the gated write whose poll sees busy throughout. -/
theorem writeTimesOutSilently : Obligations.WriteTimesOutSilently := by
  intro b s i primitive lines bound busy
  obtain ⟨rs, write⟩ := exec_write_eq primitive
  obtain ⟨pins, status, pollCnt, transfers, _, conditions, display, _⟩ := writeByte_timeout rs b .alone s bound busy
  exact ⟨_, (write s).trans (whenLinesDriven_next _ _ lines), transfers, pins, status, pollCnt,
    writeByte_control rs b .alone s, conditions, display⟩

/-! ## The rows of a write -/

/-- The pins of a write before Enable rises: the row of `X_SETUP` (42 R140). -/
def setupWrite (rs : Bool) (b : Byte) (s : State) : State :=
  writeBus b (setControlLine .rs rs (setControlLine .rw false (setBusDirection .output s)))

/-- The fall of Enable, at which the display latches the byte: the row of `X_FALL` (42 R137, R140). -/
def latchWrite (rs : Bool) (b : Byte) (s : State) : State :=
  let s := (setControlLine .e false s).logTransfer (writeOf rs b)
  s.setDisplay (s.display.latch s.pins.supplied rs b)

/-- The four rows of a write are `Transfer` (42 R137). -/
theorem transfer_eq_rows (rs : Bool) (b : Byte) (s : State) :
    transfer rs b s = latchWrite rs b (delayTick (setControlLine .e true (setupWrite rs b s))) := rfl

/-! ## In another power state

Each piece of a gated write commutes with giving `POWERED` and `SEQ` other values. -/

/-- The state with other values of `POWERED` and `SEQ` (42 R141). -/
def State.withPower (p : Bool) (q : Seq) (s : State) : State := (s.setPowered p).setSeq q

section
variable (p : Bool) (q : Seq) (s : State)

theorem State.drive_withPower (ev : PinEvent) : (s.withPower p q).drive ev = (s.drive ev).withPower p q := by
  rw [State.drive_eq, State.drive_eq]; rfl

theorem State.nextAnswer_withPower : (s.withPower p q).nextAnswer = s.nextAnswer := rfl

theorem State.setStatus_withPower (v : Byte) : (s.withPower p q).setStatus v = (s.setStatus v).withPower p q := rfl

theorem State.logTransfer_withPower (x : Transfer) :
    (s.withPower p q).logTransfer x = (s.logTransfer x).withPower p q := rfl

theorem State.counted_withPower : (s.withPower p q).counted = s.counted.withPower p q := rfl

theorem State.busyFlag_withPower : (s.withPower p q).busyFlag = s.busyFlag := rfl

theorem State.popAnswer_withPower : (s.withPower p q).popAnswer = s.popAnswer.withPower p q := by
  have answers : (s.withPower p q).answers = s.answers := rfl
  rw [State.popAnswer, State.popAnswer, answers]
  split <;> rfl

theorem readBus_withPower : readBus (s.withPower p q) = (readBus s).withPower p q := by
  rw [readBus, State.popAnswer_withPower]; rfl

theorem delayTick_withPower : delayTick (s.withPower p q) = (delayTick s).withPower p q := rfl

theorem setupSample_withPower : setupSample (s.withPower p q) = (setupSample s).withPower p q := by
  simp only [setupSample, setBusDirection, setControlLine, State.drive_withPower]

theorem readSample_withPower : readSample (s.withPower p q) = (readSample s).withPower p q := by
  simp only [readSample, readBus_withPower, setControlLine, State.drive_withPower, State.nextAnswer_withPower,
    State.setStatus_withPower, State.logTransfer_withPower]

theorem sampleStatus_withPower : sampleStatus (s.withPower p q) = (sampleStatus s).withPower p q := by
  simp only [sampleStatus_eq_rows, setupSample_withPower, setControlLine, State.drive_withPower, delayTick_withPower,
    readSample_withPower]

theorem pollFrom_withPower (more : Nat) :
    pollFrom more (s.withPower p q) = ((pollFrom more s).1, (pollFrom more s).2.withPower p q) := by
  induction more generalizing s with
  | zero =>
    rw [pollFrom_zero, pollFrom_zero, sampleStatus_withPower, State.counted_withPower, State.busyFlag_withPower]
    split_ifs <;> rfl
  | succ more ih =>
    rw [pollFrom_succ, pollFrom_succ, sampleStatus_withPower, State.counted_withPower, State.busyFlag_withPower,
      delayTick_withPower, ih]
    split_ifs <;> rfl

theorem waitReady_withPower : waitReady (s.withPower p q) = ((waitReady s).1, (waitReady s).2.withPower p q) :=
  pollFrom_withPower p q (s.setPollCnt 0) _

theorem setupWrite_withPower (rs : Bool) (b : Byte) :
    setupWrite rs b (s.withPower p q) = (setupWrite rs b s).withPower p q := by
  simp only [setupWrite, setBusDirection, setControlLine, writeBus, State.drive_withPower]

theorem latchWrite_withPower (rs : Bool) (b : Byte) :
    latchWrite rs b (s.withPower p q) = (latchWrite rs b s).withPower p q := by
  rw [latchWrite, setControlLine, State.drive_withPower]; rfl

theorem transfer_withPower (rs : Bool) (b : Byte) :
    transfer rs b (s.withPower p q) = (transfer rs b s).withPower p q := by
  simp only [transfer_eq_rows, setupWrite_withPower, setControlLine, State.drive_withPower, delayTick_withPower,
    latchWrite_withPower]

theorem writeByte_withPower (rs : Bool) (b : Byte) (place : Place) :
    writeByte rs b place (s.withPower p q) = (writeByte rs b place s).withPower p q := by
  rw [writeByte, waitReady_withPower, writeByte]
  rcases waitReady s with ⟨_ | _, t⟩
  · exact transfer_withPower p q t rs b
  · rfl

/-- The entry check looks at the pins alone. -/
theorem whenLinesDriven_withPower (t : State) :
    whenLinesDriven (s.withPower p q) (t.withPower p q) = mapNext (State.withPower p q) (whenLinesDriven s t) := by
  have pins : (s.withPower p q).pins = s.pins := rfl
  rw [whenLinesDriven, whenLinesDriven, pins]
  split <;> rfl

end

/-- Settles O20: the entry check and the gated write both commute with the change. -/
theorem channelIgnoresPowerState : Obligations.ChannelIgnoresPowerState := by
  intro b s p q i primitive
  obtain ⟨rs, write⟩ := exec_write_eq primitive
  calc exec i (s.withPower p q)
    _ = whenLinesDriven (s.withPower p q) ((writeByte rs b .alone s).withPower p q) := by
      rw [write, writeByte_withPower]
    _ = mapNext (State.withPower p q) (exec i s) := by rw [whenLinesDriven_withPower, write]

/-! ## The gated write by its machine -/

section
variable {rs : Bool} {b : Byte} {s : State} (lines : s.pins.LinesDriven)
include lines

theorem writeAdvance_setup (p : Place) : writeAdvance rs b p .setup s = .ok (.raise, setupWrite rs b s) := by
  have out := setBusDirection_linesDriven lines .output
  have write := setControlLine_linesDriven out .rw false
  have output : (setControlLine .rs rs (setControlLine .rw false (setBusDirection .output s))).pins.busDir
      = .output := by simp [setControlLine, setBusDirection]
  rw [writeAdvance, checkedSetControlLine_ok out]
  simp only [checkedSetControlLine_ok write, checkedWriteBus, if_pos output, bind, Except.bind]
  rfl

theorem writeAdvance_raise (p : Place) : writeAdvance rs b p .raise s = .ok (.hold, setControlLine .e true s) := by
  rw [writeAdvance, checkedSetControlLine_ok lines]; rfl

theorem writeAdvance_fall (p : Place) : writeAdvance rs b p .fall s = .ok (.done, latchWrite rs b s) := by
  rw [writeAdvance, checkedSetControlLine_ok lines]; rfl

theorem delayTick_linesDriven : (delayTick s).pins.LinesDriven :=
  (KeepsLines.of_pins_eq (s.observe_pins .tick)).linesDriven lines

theorem setupWrite_linesDriven : (setupWrite rs b s).pins.LinesDriven := by
  have out := setBusDirection_linesDriven lines .output
  exact (Piece.bus b).keepsLines.linesDriven
    (setControlLine_linesDriven (setControlLine_linesDriven out .rw false) .rs rs)

end

section
variable {rs : Bool} {b : Byte} {p : Place}

/-- A step of the write machine that is not refused, before `n` more. -/
theorem writeRun_succ {w w' : WriteState} {s t : State} (advance : writeAdvance rs b p w s = .ok (w', t)) (n : Nat) :
    writeRun rs b p (n + 1) w s = writeRun rs b p n w' t := by
  rw [writeRun, advance]

/-- In `X_POLL` the write machine steps as the poll machine does, until that one returns (42 R140). -/
theorem writeAdvance_poll {q q' : PollState} {s t : State} (ready : q ≠ .ready) (timeout : q ≠ .timeout)
    (advance : pollAdvance q s = .ok (q', t)) : writeAdvance rs b p (.poll q) s = .ok (.poll q', t) := by
  have row : writeAdvance rs b p (.poll q) s = (pollAdvance q s).bind fun x => .ok (.poll x.1, x.2) := by
    cases q with
    | ready => exact absurd rfl ready
    | timeout => exact absurd rfl timeout
    | idle | setup | raise | settle | sample | gap => rfl
  rw [row, advance]; rfl

/-- A run of the poll machine is a run of the write machine inside `X_POLL`, perhaps a shorter one: the poll machine
stays where it returns. -/
theorem writeRun_poll (n : Nat) {q q' : PollState} {s t : State} (run : pollRun n q s = .ok (q', t)) :
    ∃ m, ∀ k, writeRun rs b p (k + m) (.poll q) s = writeRun rs b p k (.poll q') t := by
  induction n generalizing q s with
  | zero => cases run; exact ⟨0, fun _ => rfl⟩
  | succ n ih =>
    by_cases ready : q = .ready
    · subst ready; exact ih run
    by_cases timeout : q = .timeout
    · subst timeout; exact ih run
    rw [pollRun] at run
    cases advance : pollAdvance q s with
    | error r => rw [advance] at run; cases run
    | ok next =>
      rw [advance] at run
      obtain ⟨m, rest⟩ := ih run
      exact ⟨m + 1, fun k => (writeRun_succ (writeAdvance_poll ready timeout advance) _).trans (rest k)⟩

/-- After a ready poll five steps write the byte (42 R140). -/
theorem writeRun_ready {s : State} (lines : s.pins.LinesDriven) :
    writeRun rs b p 5 (.poll .ready) s = .ok (.done, transfer rs b s) := by
  have setup := setupWrite_linesDriven (rs := rs) (b := b) lines
  have held := delayTick_linesDriven (setControlLine_linesDriven setup .e true)
  calc writeRun rs b p 5 (.poll .ready) s
    _ = writeRun rs b p 4 .setup s := writeRun_succ rfl 4
    _ = writeRun rs b p 3 .raise (setupWrite rs b s) := writeRun_succ (writeAdvance_setup lines p) 3
    _ = writeRun rs b p 2 .hold (setControlLine .e true (setupWrite rs b s)) :=
      writeRun_succ (writeAdvance_raise setup p) 2
    _ = writeRun rs b p 1 .fall (delayTick (setControlLine .e true (setupWrite rs b s))) := writeRun_succ rfl 1
    _ = .ok (.done, transfer rs b s) := writeRun_succ (writeAdvance_fall held p) 0

end

/-- Settles O21: `X_IDLE`, the poll to its end, then the write phase or the abort. -/
theorem writeMachineIsTheGatedWrite : Obligations.WriteMachineIsTheGatedWrite := by
  intro rs b p s lines bound
  obtain ⟨n, polled⟩ := pollMachineIsWaitReady s lines bound
  obtain ⟨m, run⟩ := writeRun_poll (rs := rs) (b := b) (p := p) n polled
  rcases writeByte_cases rs b p s with ⟨result, write⟩ | ⟨result, write⟩
  · rw [result] at run ⊢
    rw [write]
    exact ⟨5 + m + 1, (run 5).trans (writeRun_ready ((waitReady_keepsLines s).linesDriven lines))⟩
  · rw [result] at run ⊢
    rw [write]
    exact ⟨1 + m + 1, run 1⟩

end Sys2Proof.Machine
end

section
/-! The sequencer statements (spec/43_power_sequencer.md R145 to R159): the power-on table, POWER_ON and POWER_OFF
whole, and the fixture after POWER_ON. -/

namespace Sys2Proof.Machine

/-! ## The power-on table (43 R149) -/

section
variable {α β : Type} {f : α → List β} {n : Nat} (blocks : ∀ a, (f a).length = n)
include blocks

theorem length_flatMap_of_blocks (l : List α) : (l.flatMap f).length = l.length * n := by
  simp [List.length_flatMap, blocks]

/-- Element `j` of block `i`. -/
theorem getElem?_flatMap_of_blocks (l : List α) (i j : Nat) (hj : j < n) :
    (l.flatMap f)[n * i + j]? = l[i]?.bind fun a => (f a)[j]? := by
  induction l generalizing i with
  | nil => rfl
  | cons a l ih =>
    rw [List.flatMap_cons]
    cases i with
    | zero => rw [List.getElem?_append_left (by rw [blocks]; omega)]; simp
    | succ i =>
      rw [List.getElem?_append_right (by rw [blocks, Nat.mul_succ]; omega), blocks,
        show n * (i + 1) + j - n = n * i + j by rw [Nat.mul_succ]; omega, ih]
      rfl

end

section
variable (c : Config)

/-- Steps (1) to (6) of 43 R148. -/
def initHead : List InitEntry :=
  [initCommand c.cmdFuncsetIs1, initCommand c.cmdBias, initCommand (pwrContrastByte c (contrastHigh c.contrast)),
    initCommand c.cmdFollower, initCommand (contrastLowByte c (contrastLow c.contrast)), initCommand c.cmdFuncsetIs0]

/-- Step (7) of 43 R148: the eight slots. -/
def initGlyphs : List InitEntry := (List.finRange 8).flatMap (glyphUpload c)

/-- Steps (8) to (10) of 43 R148. -/
def initTail : List InitEntry := [initCommand c.cmdDisplayOn, initCommand c.cmdClear, initCommand c.cmdEntryInc]

theorem initTable_eq : initTable c = initHead c ++ initGlyphs c ++ initTail c := rfl

theorem glyphUpload_length (slot : Fin 8) : (glyphUpload c slot).length = 9 := rfl

theorem initGlyphs_length : (initGlyphs c).length = 72 := length_flatMap_of_blocks (glyphUpload_length c) _

theorem initTable_length : (initTable c).length = 81 := by
  rw [initTable_eq, List.length_append, List.length_append, initGlyphs_length]; rfl

theorem initTable_getLast : (initTable c).getLast? = some (initCommand c.cmdEntryInc) := by
  rw [initTable_eq, List.getLast?_append]; rfl

/-- Entry `j` of the upload of a slot: 0 is the address command, `j + 1` is row `j`. -/
theorem initTable_glyphs (slot : Fin 8) (j : Nat) (hj : j < 9) :
    (initTable c)[6 + (9 * slot.val + j)]? = (glyphUpload c slot)[j]? := by
  have inside : 9 * slot.val + j < (initGlyphs c).length := by rw [initGlyphs_length]; omega
  calc (initTable c)[6 + (9 * slot.val + j)]?
    _ = (initGlyphs c ++ initTail c)[9 * slot.val + j]? := by
      rw [initTable_eq, List.append_assoc, Nat.add_comm]; rfl
    _ = (glyphUpload c slot)[j]? := by
      rw [List.getElem?_append_left inside, initGlyphs, getElem?_flatMap_of_blocks (glyphUpload_length c) _ _ _ hj]
      simp

/-- Each slot is one command and eight data writes. -/
theorem initTable_filter_length (rs : Bool) :
    ((initTable c).filter (fun e => e.rs == rs)).length = if rs then 64 else 17 := by
  have slots : ∀ slot, ((glyphUpload c slot).filter (fun e => e.rs == rs)).length = if rs then 8 else 1 := by
    cases rs <;> exact fun _ => rfl
  rw [initTable_eq, List.filter_append, List.filter_append, List.length_append, List.length_append, initGlyphs,
    List.filter_flatMap, length_flatMap_of_blocks slots]
  cases rs <;> rfl

/-- The address command of a slot places the counter at its row 0 (30 R90c). -/
theorem cgramAddress_setWidth (slot : Fin 8) : (cgramAddress slot).setWidth 8 = BitVec.ofNat 8 (slot.val * 8) := by
  revert slot; decide

end

/-- Settles O29: the three parts of the table, the middle one in blocks of nine. -/
theorem initTableShape : Obligations.InitTableShape := by
  intro c
  refine ⟨by rw [List.length_map, initTable_length], by simpa using initTable_filter_length c false,
    by simpa using initTable_filter_length c true, rfl, fun slot => ?_, fun slot row => ?_, ?_⟩
  · rw [List.getElem?_map, ← Nat.add_zero (9 * slot.val), initTable_glyphs c slot 0 (by decide),
      ← cgramAddress_setWidth]
    rfl
  · rw [List.getElem?_map, Nat.add_assoc, Nat.add_assoc, initTable_glyphs c slot (1 + row.val) (by omega),
      Nat.add_comm]
    simp [glyphUpload, InitEntry.transfer, writeOf, glyphRow]
  · rw [← List.map_drop, initTable_eq, List.drop_left' (by rw [List.length_append, initGlyphs_length]; rfl)]
    rfl

/-! ## POWER_ON before its transfers -/

/-- The trace of the writes to come depends on the answers alone. -/
theorem State.readyTrace_congr {s t : State} (h : ∀ i, t.answerAt i = s.answerAt i) (k : Nat) (ws : List Transfer) :
    t.readyTrace k ws = s.readyTrace k ws := by
  induction ws generalizing k with
  | nil => rfl
  | cons w ws ih => simp only [State.readyTrace, ih, h]

/-- `PowerOn` when its first transfer begins: the pins are up and the supply has settled (43 R146, R147). -/
def State.settled (s : State) : State := powerUpPhase (s.setSeq .powering)

section
variable (s : State)

/-- POWER_ON runs the table from there on to some state `u`, then sets the power state (43 R146). -/
theorem exec_powerOn : ∃ u, runInit (initTable s.cfg) 0 s.settled = u
    ∧ exec .powerOn s = .next ((u.setPowered true).setSeq .ready) :=
  ⟨_, rfl, congrArg Host.Outcome.next (powerOn_eq s)⟩

theorem settled_same : SamePinPhase (s.setSeq .powering) s.settled := powerUpPhase_same _

@[simp] theorem settled_pins : s.settled.pins
    = ⟨.output, 0x00#8, false, false, false, true, .output, .output, .output, .output⟩ := powerUpPhase_pins _

@[simp] theorem settled_cfg : s.settled.cfg = s.cfg := (settled_same s).1.config

@[simp] theorem settled_transfers : s.settled.transfers = s.transfers := by
  obtain ⟨_, _, _, _, _, transfers, _, _⟩ := settled_same s
  exact transfers

@[simp] theorem settled_conditions : s.settled.conditions = s.conditions := by
  obtain ⟨_, _, _, _, _, _, conditions, _⟩ := settled_same s
  exact conditions

@[simp] theorem settled_ticks : s.settled.ticks = s.ticks := by
  obtain ⟨_, _, _, _, _, _, _, ticks⟩ := settled_same s
  exact ticks

@[simp] theorem settled_answerAt (k : Nat) : s.settled.answerAt k = s.answerAt k := by
  obtain ⟨_, _, _, answers, reads, _, _, _⟩ := settled_same s
  exact State.answerAt_congr answers reads k

@[simp] theorem settled_samples (n : Nat) : s.settled.samples n = s.samples n := by simp [State.samples]

@[simp] theorem settled_readyTrace (k : Nat) (ws : List Transfer) : s.settled.readyTrace k ws = s.readyTrace k ws :=
  State.readyTrace_congr (settled_answerAt s) k ws

end

/-! ## POWER_ON whole -/

theorem powerOn_seq (s : State) : (powerOn s).seq = .ready := by rw [powerOn_eq, State.setSeq_seq]

theorem powerOn_powered (s : State) : (powerOn s).powered = true := by
  rw [powerOn_eq, State.setSeq_powered, State.setPowered_powered]

theorem KeepsLines.pwr {s t : State} (h : KeepsLines s t) : t.pins.pwr = s.pins.pwr := by
  obtain ⟨⟨_, _, _, _, pwr⟩, _⟩ := h
  exact pwr

/-- No transfer touches the supply that the pin phase turned on. -/
theorem powerOn_pwr (s : State) : (powerOn s).pins.pwr = true := by
  rw [powerOn_eq, State.setSeq_pins, State.setPowered_pins, (runInit_keepsLines _ _ _).pwr, powerUpPhase_pins]

/-- Settles O27: the boundary at its end, the supply its pin phase turned on, and the constants. -/
theorem powerOnEndsReady : Obligations.PowerOnEndsReady := by
  intro s
  obtain ⟨⟨_, _, _, configured⟩, low⟩ := powerOn_boundary s
  have started : (powerOn s).seq ≠ .unpowered := by rw [powerOn_seq]; decide
  exact ⟨powerOn s, rfl, powerOn_seq s, powerOn_powered s, configured started, powerOn_pwr s, low started,
    powerOn_cfg s, powerOn_requests s⟩

/-- POWER_OFF clears `POWERED`, runs its pin phase to some state `u`, then sets `SEQ` (43 R153). -/
theorem exec_powerOff (s : State) : ∃ u, powerDownPhase (s.setPowered false) = u
    ∧ exec .powerOff s = .next (u.setSeq .off) :=
  ⟨_, rfl, rfl⟩

/-- Settles O34: the sequencer's own two cells, and O35 for the others. -/
theorem sequencerTransitionTable : Obligations.SequencerTransitionTable := by
  refine ⟨fun s => ⟨⟨powerOn s, rfl, powerOn_seq s, powerOn_powered s⟩, ?_⟩, fun i s t on off agree h => ?_⟩
  · obtain ⟨u, down, run⟩ := exec_powerOff s
    obtain ⟨⟨_, powered, _⟩, _⟩ := down ▸ powerDownPhase_same (s.setPowered false)
    exact ⟨_, run, rfl, powered⟩
  obtain ⟨seq, powered, _⟩ := onlyTheSequencerMovesPower i s t on off h
  exact ⟨seq, by rw [seq, powered]; exact agree⟩

/-- Settles O30: the table against a display ready to every first sample. -/
theorem powerOnSendsTheTableInOrder : Obligations.PowerOnSendsTheTableInOrder := by
  intro s bound answers
  obtain ⟨transfers, conditions, ticks, _, last⟩ := runInit_ready (initTable s.cfg) 0 s.settled (by rwa [settled_cfg])
    (fun k hk => by rw [initTable_length] at hk; rw [settled_answerAt]; exact answers k hk)
  obtain ⟨pins, status⟩ := last _ (initTable_getLast s.cfg)
  obtain ⟨u, sent, run⟩ := exec_powerOn s
  rw [sent, settled_transfers, settled_readyTrace] at transfers
  rw [sent, settled_conditions] at conditions
  rw [sent, settled_ticks, initTable_length] at ticks
  rw [sent, settled_pins] at pins
  rw [sent, settled_answerAt, initTable_length] at status
  exact ⟨_, run, transfers, ticks, conditions, pins, status⟩

/-- Settles O31: the steps that the table's gated writes drop. -/
theorem powerOnDropsButNeverReorders : Obligations.PowerOnDropsButNeverReorders := by
  intro s
  obtain ⟨new, steps, transfers, conditions, increasing, inside, writes⟩ :=
    runInit_dropped (initTable s.cfg) 0 s.settled
  obtain ⟨u, sent, run⟩ := exec_powerOn s
  rw [sent, settled_transfers] at transfers
  rw [sent, settled_conditions] at conditions
  have length : ((initTable s.cfg).map InitEntry.transfer).length = 81 := by rw [List.length_map, initTable_length]
  refine ⟨_, new, steps, run, transfers, conditions, increasing, fun k mem => ?_, writes, ?_, ?_⟩
  · have := inside k mem; omega
  · rw [writes]; exact without_sublist _ _ _
  · rw [writes, without_length _ _ _ increasing inside, length]

/-- Settles O32: the table against a display busy throughout. -/
theorem powerOnAgainstABusyDisplay : Obligations.PowerOnAgainstABusyDisplay := by
  intro s bound busy
  obtain ⟨transfers, pins⟩ := runInit_busy (initTable s.cfg) 0 s.settled (by rwa [settled_cfg])
    (fun k hk => by rw [initTable_length, settled_cfg] at hk; rw [settled_answerAt]; exact busy k hk)
  obtain ⟨u, sent, run⟩ := exec_powerOn s
  rw [sent, settled_transfers, settled_samples, settled_cfg, initTable_length] at transfers
  rw [sent, settled_pins] at pins
  exact ⟨_, run, transfers, rfl, rfl, pins (List.ne_nil_of_length_eq_add_one (initTable_length s.cfg))⟩

/-! ## The pin phases on the waveform -/

/-- Settles O33: the pin phase of 43 R154, and the fields it leaves alone. -/
theorem powerOffGroundsEveryLine : Obligations.PowerOffGroundsEveryLine := by
  intro s
  have pins := powerDownPhase_pins (s.setPowered false)
  have waveform := powerDownPhase_waveform (s.setPowered false)
  have display := powerDownPhase_display (s.setPowered false)
  have same := powerDownPhase_same (s.setPowered false)
  obtain ⟨u, down, run⟩ := exec_powerOff s
  rw [down] at pins waveform display same
  obtain ⟨control, status, pollCnt, answers, reads, transfers, conditions, ticks⟩ := same
  obtain ⟨_, powered, cfg, requests, step, slot, row⟩ := control
  exact ⟨_, run, pins, waveform, display, powered, rfl, transfers, ticks, answers, reads, status, pollCnt, step,
    slot, row, cfg, requests, conditions⟩

/-- The waveform grew, by no settle delay. -/
def AddsNoSettle (s t : State) : Prop := ∃ w, t.waveform = s.waveform ++ w ∧ ∀ n, PinEvent.ms n ∉ w

theorem AddsNoSettle.of_eq {s t : State} (h : t.waveform = s.waveform) : AddsNoSettle s t := ⟨[], by simp [h], by simp⟩

theorem AddsNoSettle.trans {s t u : State} (h : AddsNoSettle s t) (k : AddsNoSettle t u) : AddsNoSettle s u := by
  obtain ⟨v, hv, nv⟩ := h
  obtain ⟨w, hw, nw⟩ := k
  exact ⟨v ++ w, by rw [hw, hv, List.append_assoc], fun n mem => (List.mem_append.1 mem).elim (nv n) (nw n)⟩

theorem AddsNoSettle.observe (s : State) {ev : PinEvent} (h : ∀ n, .ms n ≠ ev) : AddsNoSettle s (s.observe ev) :=
  ⟨[ev], rfl, fun n => by simpa using h n⟩

theorem AddsNoSettle.drive (s : State) {ev : PinEvent} (h : ∀ n, .ms n ≠ ev) : AddsNoSettle s (s.drive ev) := by
  unfold State.drive
  split
  · exact .of_eq rfl
  · exact .observe (s.setPins _) h

theorem readBus_addsNoSettle (s : State) : AddsNoSettle s (readBus s) :=
  (AddsNoSettle.of_eq s.popAnswer_waveform).trans (.observe _ nofun)

theorem sampleStatus_addsNoSettle (s : State) : AddsNoSettle s (sampleStatus s) := by
  have setup := ((AddsNoSettle.drive s (ev := .busDir .input) nofun).trans
    (.drive _ (ev := .line .rw true) nofun)).trans (.drive _ (ev := .line .rs false) nofun)
  have settle := (setup.trans (.drive _ (ev := .line .e true) nofun)).trans (.observe _ (ev := .tick) nofun)
  have read := (settle.trans (readBus_addsNoSettle _)).trans (.drive _ (ev := .line .e false) nofun)
  unfold sampleStatus setBusDirection setControlLine delayTick
  dsimp only
  exact read.trans (.of_eq (by simp only [State.logTransfer_waveform, State.setStatus_waveform]))

theorem transfer_addsNoSettle (rs : Bool) (b : Byte) (s : State) : AddsNoSettle s (transfer rs b s) := by
  have setup := ((AddsNoSettle.drive s (ev := .busDir .output) nofun).trans
    (.drive _ (ev := .line .rw false) nofun)).trans (.drive _ (ev := .line .rs rs) nofun)
  have pulse := ((setup.trans (.drive _ (ev := .bus b) nofun)).trans (.drive _ (ev := .line .e true) nofun)).trans
    (.observe _ (ev := .tick) nofun)
  have fall := pulse.trans (.drive _ (ev := .line .e false) nofun)
  unfold transfer setBusDirection setControlLine writeBus delayTick
  dsimp only
  exact fall.trans (.of_eq (by simp only [State.setDisplay_waveform, State.logTransfer_waveform]))

theorem writeByte_addsNoSettle (rs : Bool) (b : Byte) (p : Place) (s : State) : AddsNoSettle s (writeByte rs b p s) :=
  writeByte_rel (R := AddsNoSettle) AddsNoSettle.trans sampleStatus_addsNoSettle (fun _ _ => .of_eq rfl)
    (fun _ => .observe _ nofun) transfer_addsNoSettle (fun _ _ => .of_eq rfl) rs b p s

theorem runInit_addsNoSettle (es : List InitEntry) (k : Nat) (s : State) : AddsNoSettle s (runInit es k s) :=
  runInit_rel (R := AddsNoSettle) (fun _ => .of_eq rfl) AddsNoSettle.trans writeByte_addsNoSettle
    (fun _ _ _ => .of_eq rfl) es k s

theorem mem_entryUnless {already : Bool} {ev x : PinEvent} (h : x ∈ entryUnless already ev) : x = ev := by
  cases already with
  | true => exact absurd h List.not_mem_nil
  | false => exact List.mem_singleton.1 h

/-- The entries of the power-up pin phase from the pins `p`, up to the settle delay (43 R147). -/
def Pins.powerUpEntries (p : Pins) : List PinEvent :=
  entryUnless (p.dirE == .output && p.e == false) (.cfg .e false)
    ++ entryUnless (p.dirRw == .output && p.rw == false) (.cfg .rw false)
    ++ entryUnless (p.dirRs == .output && p.rs == false) (.cfg .rs false)
    ++ entryUnless (p.busDir == .output) (.busDir .output)
    ++ entryUnless (p.busOut == 0x00#8) (.bus 0x00#8)
    ++ entryUnless (p.dirPwr == .output && p.pwr == true) (.cfg .pwr true)

theorem mem_powerUpEntries {p : Pins} {ev : PinEvent} (h : ev ∈ p.powerUpEntries) :
    (∃ pin lvl, ev = .cfg pin lvl) ∨ ev = .busDir .output ∨ ev = .bus 0x00#8 := by
  simp only [Pins.powerUpEntries, List.mem_append] at h
  rcases h with ((((h | h) | h) | h) | h) | h <;> simp [mem_entryUnless h]

theorem settled_waveform (s : State) :
    s.settled.waveform = s.waveform ++ s.pins.powerUpEntries ++ [.ms s.cfg.powerupSettleMs] :=
  powerUpPhase_waveform (s.setSeq .powering)

/-- The settle delay moves no pin, so the entries before it already give the pins after it. -/
theorem replay_powerUpEntries (s : State) : replay s.pins s.pins.powerUpEntries = s.settled.pins := by
  obtain ⟨w, waveform, pins⟩ := powerUpPhase_traced (s.setSeq .powering)
  have entries : w = s.pins.powerUpEntries ++ [.ms s.cfg.powerupSettleMs] := by
    refine List.append_cancel_left (waveform.symm.trans ?_)
    rw [← List.append_assoc]; exact settled_waveform s
  rw [entries, replay_append] at pins
  exact pins

/-- From unconfigured pins with another byte on the bus, every access of the phase shows. -/
theorem powerUpEntries_of_unconfigured {p : Pins} (lines : p.Unconfigured) (bus : p.busDir = .unconf)
    (byte : p.busOut ≠ 0x00#8) : p.powerUpEntries
      = [.cfg .e false, .cfg .rw false, .cfg .rs false, .busDir .output, .bus 0x00#8, .cfg .pwr true] := by
  obtain ⟨e, rw, rs, pwr⟩ := lines
  simp [Pins.powerUpEntries, entryUnless, e, rw, rs, pwr, bus, byte]

/-- Settles O28: the pin phase, the settle delay, then transfers, none of which delays by milliseconds. -/
theorem powerUpPhaseThenSettle : Obligations.PowerUpPhaseThenSettle := by
  intro s
  obtain ⟨transfers, waveform, noSettle⟩ := runInit_addsNoSettle (initTable s.cfg) 0 s.settled
  obtain ⟨u, sent, run⟩ := exec_powerOn s
  rw [sent, settled_waveform] at waveform
  refine ⟨_, s.pins.powerUpEntries, transfers, run, waveform, rfl, fun ev mem => ?_,
    (replay_powerUpEntries s).trans (settled_pins s), noSettle, powerUpEntries_of_unconfigured⟩
  rcases mem_powerUpEntries mem with ⟨pin, lvl, rfl⟩ | rfl | rfl <;> exact ⟨nofun, nofun, nofun, nofun⟩

/-! ## The fixture after POWER_ON (95 P1; log 13) -/

/-- A supplied display after data bytes stored one after the other. -/
def Display.dataAll (d : Display) (bs : List Byte) : Display := bs.foldl Display.data d

/-- A supplied display after the entries of a table, each latched in order. -/
def Display.latchAll (d : Display) (es : List InitEntry) : Display := es.foldl (fun d e => d.latch true e.rs e.byte) d

theorem Display.latchAll_append (d : Display) (es fs : List InitEntry) :
    d.latchAll (es ++ fs) = (d.latchAll es).latchAll fs := List.foldl_append

section
variable {d : Display} (target : d.target = .cgram) (inside : d.address.toNat < cgramSize)
include inside

/-- Within CGRAM the counter advances without wrapping (20 R54). -/
theorem Display.data_address_toNat (b : Byte) : (d.data b).address.toNat = d.address.toNat + 1 := by
  rw [cgramSize] at inside
  rw [Display.data_address, BitVec.toNat_add_of_lt (by simp; omega)]
  rfl

include target

/-- Within CGRAM a byte is stored at the counter. -/
theorem Display.storeAddress_eq_address : d.storeAddress = d.address.toNat := by
  rw [Display.storeAddress, target]
  exact (Nat.and_two_pow_sub_one_eq_mod d.address.toNat 6).trans (Nat.mod_eq_of_lt inside)

end

/-- Data bytes from a CGRAM address on stand there in order, and nothing else is stored. -/
theorem Display.dataAll_cgram (bs : List Byte) (d : Display) (target : d.target = .cgram)
    (fits : d.address.toNat + bs.length ≤ cgramSize) :
    (d.dataAll bs).table = d.table
      ∧ (∀ j v, bs[j]? = some v → (d.dataAll bs).cgram.read (d.address.toNat + j) = some v)
      ∧ ∀ a, a < d.address.toNat ∨ d.address.toNat + bs.length ≤ a →
        (d.dataAll bs).cgram.read a = d.cgram.read a := by
  induction bs generalizing d with
  | nil => exact ⟨rfl, nofun, fun _ _ => rfl⟩
  | cons b bs ih =>
    rw [List.length_cons] at fits ⊢
    have inside : d.address.toNat < cgramSize := by omega
    have next := Display.data_address_toNat inside b
    have stored : (d.data b).cgram = d.cgram.write d.address.toNat b := by
      rw [Display.data_cgram_of_cgram d b target, Display.storeAddress_eq_address target inside]
    obtain ⟨table, placed, kept⟩ := ih (d.data b) ((d.data_target b).trans target) (by omega)
    rw [next] at placed kept
    refine ⟨table.trans (d.data_table b), fun j v at_j => ?_, fun a outside => ?_⟩
    · cases j with
      | zero =>
        cases at_j
        exact (kept _ (.inl (Nat.lt_succ_self _))).trans (by rw [stored]; exact Memory.read_write_same _ _ _)
      | succ j => rw [show d.address.toNat + (j + 1) = d.address.toNat + 1 + j by omega]; exact placed j v at_j
    · refine (kept a (by omega)).trans ?_
      rw [stored]; exact Memory.read_write_other _ _ _ _ (by omega)

/-- The CGRAM holds the rows of a slot (20 R53). -/
def Display.HasGlyph (d : Display) (c : Config) (slot : Fin 8) : Prop :=
  ∀ row : Fin 8, d.cgram.read (8 * slot.val + row.val) = some (glyphRow c slot row)

section
variable {c : Config} (default : c.cmdSetCgram = 0x40#8)
include default

/-- The upload of a slot in table 0 is a run of data bytes from its row 0 on. -/
theorem latchAll_glyphUpload_eq {d : Display} (base : d.table = .zero) (slot : Fin 8) :
    d.latchAll (glyphUpload c slot)
      = Display.dataAll { d with address := (cgramAddress slot).setWidth 7, target := .cgram }
          ((List.finRange 8).map (glyphRow c slot)) := by
  rw [← d.command_setCgram base, ← default, Display.dataAll, List.foldl_map]
  rfl

theorem latchAll_glyphUpload {d : Display} (base : d.table = .zero) (slot : Fin 8) :
    (d.latchAll (glyphUpload c slot)).table = .zero ∧ (d.latchAll (glyphUpload c slot)).HasGlyph c slot
      ∧ ∀ other, d.HasGlyph c other → (d.latchAll (glyphUpload c slot)).HasGlyph c other := by
  have address : ((cgramAddress slot).setWidth 7).toNat = 8 * slot.val := by revert slot; decide
  obtain ⟨table, placed, kept⟩ := Display.dataAll_cgram ((List.finRange 8).map (glyphRow c slot))
    { d with address := (cgramAddress slot).setWidth 7, target := .cgram } rfl
    (by rw [address, List.length_map, List.length_finRange, cgramSize]; omega)
  rw [address] at placed kept
  rw [List.length_map, List.length_finRange] at kept
  rw [← latchAll_glyphUpload_eq default base slot] at table placed kept
  have uploaded : (d.latchAll (glyphUpload c slot)).HasGlyph c slot := fun row => placed row.val _ (by simp)
  refine ⟨table.trans base, uploaded, fun other has => ?_⟩
  by_cases same : other = slot
  · rw [same]; exact uploaded
  · exact fun row => (kept _ (by omega)).trans (has row)

/-- Each upload places its slot and keeps the slots already placed. -/
theorem latchAll_glyphs (slots : List (Fin 8)) {d : Display} (base : d.table = .zero) :
    (d.latchAll (slots.flatMap (glyphUpload c))).table = .zero
      ∧ ∀ slot, slot ∈ slots ∨ d.HasGlyph c slot → (d.latchAll (slots.flatMap (glyphUpload c))).HasGlyph c slot := by
  induction slots generalizing d with
  | nil => exact ⟨base, fun slot h => h.resolve_left List.not_mem_nil⟩
  | cons first slots ih =>
    obtain ⟨table, uploaded, keeps⟩ := latchAll_glyphUpload default base first
    obtain ⟨table, placed⟩ := ih table
    rw [List.flatMap_cons, Display.latchAll_append]
    refine ⟨table, fun slot h => placed slot ?_⟩
    rcases h with mem | has
    · rcases List.mem_cons.1 mem with rfl | mem
      · exact .inr uploaded
      · exact .inl mem
    · exact .inr (keeps slot has)

end

/-- Step (6) selects table 0, whatever the steps before it did. -/
theorem latchAll_initHead_table {c : Config} (default : c.cmdFuncsetIs0 = 0x38#8) (d : Display) :
    (d.latchAll (initHead c)).table = .zero := by
  have last : initHead c = (initHead c).dropLast ++ [initCommand c.cmdFuncsetIs0] := rfl
  rw [last, Display.latchAll_append, default]
  rfl

theorem latchAll_initTail {c : Config} (on : c.cmdDisplayOn = 0x0C#8) (clear : c.cmdClear = 0x01#8)
    (entry : c.cmdEntryInc = 0x06#8) (d : Display) : d.latchAll (initTail c)
      = { d with on := true, ddram := Memory.fill ddramSize 0x20#8, address := 0#7, target := .ddram } := by
  rw [initTail, on, clear, entry]
  rfl

/-- The display record after POWER_ON against a ready display: the supply is on, so every entry takes effect. -/
theorem exec_powerOn_display {s : State} (bound : 1 ≤ s.cfg.pollBound) (answers : s.ReadyFor 81) :
    ∃ t, exec .powerOn s = .next t ∧ t.display = s.settled.display.latchAll (initTable s.cfg) := by
  have display := runInit_ready_display (initTable s.cfg) 0 s.settled (by rwa [settled_cfg])
    (fun k hk => by rw [initTable_length] at hk; rw [settled_answerAt]; exact answers k hk)
  obtain ⟨u, sent, run⟩ := exec_powerOn s
  rw [sent, settled_pins] at display
  exact ⟨_, run, display⟩

/-- Settles O59: the three parts of the table, each by its lines of the fixture. -/
theorem powerOnInitialisesTheFixture : Obligations.PowerOnInitialisesTheFixture := by
  intro s bound answers default
  obtain ⟨-, -, -, -, -, is0, cgram, on, clear, entry, -⟩ := default
  obtain ⟨t, run, display⟩ := exec_powerOn_display bound answers
  obtain ⟨table, glyphs⟩ :=
    latchAll_glyphs cgram (List.finRange 8) (latchAll_initHead_table is0 s.settled.display)
  rw [initTable_eq, Display.latchAll_append, Display.latchAll_append, latchAll_initTail on clear entry] at display
  refine ⟨t, run, ?_⟩
  rw [display]
  exact ⟨table, rfl, rfl, rfl, fun a inside => (Memory.read_fill _ _ a).trans (if_pos inside),
    fun slot => glyphs slot (.inl (List.mem_finRange slot))⟩

end Sys2Proof.Machine
end

section
/-! The text statements (spec/44_text_ops.md R165 to R177): the power gate, of one operation and over runs; each
operation against a ready display and against any; and the fixture after WRITELINE. -/

namespace Sys2Proof.Machine

/-! ## The power gate (44 R165) -/

/-- Every text operation begins at the gate. -/
theorem exec_textOp_eq {i : Instr} (text : isTextOp i = true) (s : State) : ∃ o, exec i s = whenPowered s o := by
  cases i with
  | gotoxy x y => exact ⟨_, rfl⟩
  | putc c => exact ⟨_, rfl⟩
  | puts text => exact ⟨_, rfl⟩
  | writeLine n text => exact ⟨_, rfl⟩
  | _ => cases text

theorem exec_textOp_off {i : Instr} {s : State} (text : isTextOp i = true) (off : s.powered = false) :
    exec i s = .next (s.raise .poweredOffAccess) := by
  obtain ⟨o, gate⟩ := exec_textOp_eq text s
  rw [gate, whenPowered, off]
  rfl

/-- Settles O37: the gate raises its condition. -/
theorem poweredOffTextOperationsDoNothing : Obligations.PoweredOffTextOperationsDoNothing :=
  fun _ _ text off => exec_textOp_off text off

/-! ## The gate over runs -/

/-- Every request to come that is not refused names an operation with `P`. -/
def State.RequestsOnly (s : State) (P : Instr → Prop) : Prop :=
  ∀ r ∈ s.requests, ∀ i, decode s.cfg r = .ok i → P i

/-- A run of one step more is a step, then the run. -/
theorem run_succ_eq_next {M : Host.Core} {n : Nat} {s t : M.State} (h : M.run (n + 1) s = .next t) :
    ∃ u, M.step s = .next u ∧ M.run n u = .next t := by
  rw [Host.Core.run] at h
  split at h
  · next u first => exact ⟨u, first, h⟩
  · cases h
  · cases h

section
variable {P : Instr → Prop} {I : State → Prop} (consume : ∀ {s} rest, I s → I (s.setRequests rest))
  (operation : ∀ {i s t}, P i → I s → exec i s = .next t → I t)
include consume operation

/-- What consuming a request and every operation with `P` keep, a step of such requests keeps; the requests after it are
such again, since no operation adds a request or writes a parameter. -/
theorem step_keeps {s t : State} (only : s.RequestsOnly P) (start : I s) (h : step s = .next t) :
    t.RequestsOnly P ∧ I t := by
  rcases step_eq_next h with rfl | ⟨r, rest, i, requests, decoded, run⟩
  · exact ⟨only, start⟩
  · rw [State.RequestsOnly, requests] at only
    refine ⟨?_, operation (only r List.mem_cons_self i decoded) (consume rest start) run⟩
    rw [State.RequestsOnly, exec_requests run, exec_cfg run]
    exact fun q mem => only q (List.mem_cons_of_mem r mem)

/-- So a run keeps it. -/
theorem run_keeps (n : Nat) {s t : State} (only : s.RequestsOnly P) (start : I s)
    (h : Host.Core.run core n s = .next t) : I t := by
  induction n generalizing s with
  | zero => cases h; exact start
  | succ n ih =>
    obtain ⟨u, first, rest⟩ := run_succ_eq_next h
    obtain ⟨only, start⟩ := step_keeps consume operation only start first
    exact ih only start rest

end

theorem powerOff_powered (s : State) : (powerOff s).powered = false := by
  obtain ⟨⟨_, powered, _⟩, _⟩ := powerDownPhase_same (s.setPowered false)
  rw [powerOff, State.setSeq_powered, powered, State.setPowered_powered]

theorem exec_keeps_off {i : Instr} {s t : State} (on : i ≠ .powerOn) (off : s.powered = false)
    (h : exec i s = .next t) : t.powered = false := by
  by_cases down : i = .powerOff
  · subst down
    rw [← Host.Outcome.next.inj h]
    exact powerOff_powered s
  · obtain ⟨_, powered, _⟩ := onlyTheSequencerMovesPower i s t on down h
    exact powered.trans off

/-- `POWERED` is false and the trace, the waveform and the pins are those of `s`. -/
def State.OffSince (s t : State) : Prop :=
  t.powered = false ∧ t.transfers = s.transfers ∧ t.waveform = s.waveform ∧ t.pins = s.pins

/-- A text operation behind the closed gate touches the observer's log alone. -/
theorem exec_textOp_keeps_offSince {i : Instr} {s t u : State} (text : isTextOp i = true) (since : s.OffSince t)
    (h : exec i t = .next u) : s.OffSince u := by
  obtain ⟨off, same⟩ := since
  rw [exec_textOp_off text off] at h
  cases h
  exact ⟨off, same⟩

/-- Settles O46: two invariants of runs, each kept by the operations that its premise allows. -/
theorem gatedUntilPowerOn : Obligations.GatedUntilPowerOn := by
  refine fun n s t off run => ⟨fun noOn => ?_, fun texts => ?_⟩
  · have only : s.RequestsOnly (· ≠ .powerOn) := fun r mem i decoded on => noOn r mem (on ▸ decoded)
    exact run_keeps (I := fun u => u.powered = false) (fun _ h => h) exec_keeps_off n only off run
  · have only : s.RequestsOnly (isTextOp · = true) := fun r mem i decoded => by
      obtain ⟨j, named, text⟩ := texts r mem
      rw [named] at decoded
      cases decoded
      exact text
    obtain ⟨_, same⟩ := run_keeps (I := s.OffSince) (fun _ h => h) exec_textOp_keeps_offSince n only
      ⟨off, rfl, rfl, rfl⟩ run
    exact same

/-! ## The bytes the text operations issue -/

section
variable (c : Config) {text : List Byte}

theorem formatLine_of_le (long : 16 ≤ text.length) : formatLine c text = text.take 16 := if_pos long

theorem formatLine_of_lt (short : text.length < 16) :
    formatLine c text = text ++ List.replicate (16 - text.length) c.space := if_neg (Nat.not_le.2 short)

theorem formatLine_length (text : List Byte) : (formatLine c text).length = 16 := by
  rcases Nat.lt_or_ge text.length 16 with short | long
  · rw [formatLine_of_lt c short, List.length_append, List.length_replicate]; omega
  · rw [formatLine_of_le c long, List.length_take]; omega

end

/-- Settles O45: the two branches of the format. -/
theorem formatLaws : Obligations.FormatLaws := by
  refine fun c text => ⟨formatLine_length c text, fun long k hk => ?_, fun short k hk => ?_⟩
  · rw [formatLine_of_le c long, List.getElem?_take_of_lt hk]
  · rw [formatLine_of_lt c short, List.getElem?_append, List.getElem?_replicate,
      if_pos (show k - text.length < 16 - text.length by omega)]

section
variable {x y : Nat} (column : x < 16) (row : y < 2)
include column row

theorem ddramAddress_toNat : (ddramAddress x y).toNat = y * 0x40 + x := by
  rw [ddramAddress, BitVec.toNat_ofNat, rowStride]; omega

/-- An address on the display fits the seven bits of its field (30 R90a). -/
theorem ddramAddress_setWidth : (ddramAddress x y).setWidth 8 = BitVec.ofNat 8 (y * 0x40 + x) :=
  BitVec.setWidth_ofNat_of_le_of_lt (by decide) (by rw [rowStride]; omega)

/-- The cursor is moved by one command (44 R166). -/
theorem moveCursor_eq (s : State) :
    moveCursor x y s = writeByte false (s.cfg.cmdSetDdram ||| BitVec.ofNat 8 (y * 0x40 + x)) .alone s := by
  rw [moveCursor, setDdramByte, ddramAddress_setWidth column row]

end

/-! ## Past the gate and the range check -/

theorem cursorInRange_iff (x y : Nat) : cursorInRange x y = true ↔ x < 16 ∧ y < 2 := by
  rw [cursorInRange, Bool.and_eq_true, decide_eq_true_iff, decide_eq_true_iff]; rfl

theorem lineNumberValid_iff (n : Nat) : lineNumberValid n = true ↔ n = 1 ∨ n = 2 := by simp [lineNumberValid]

section
variable {s : State} (powered : s.powered = true)
include powered

theorem whenPowered_on (o : Host.Outcome State Fault Refusal) : whenPowered s o = o := if_pos powered

variable (lines : s.pins.LinesDriven)
include lines

theorem exec_gotoxy_next {x y : Nat} (column : x < 16) (row : y < 2) : exec (.gotoxy x y) s
    = .next (writeByte false (s.cfg.cmdSetDdram ||| BitVec.ofNat 8 (y * 0x40 + x)) .alone s) := by
  rw [exec, execGotoxy, whenPowered_on powered, if_pos ((cursorInRange_iff x y).2 ⟨column, row⟩),
    whenLinesDriven_next _ _ lines, moveCursor_eq column row]

theorem exec_putc_next (c : Byte) : exec (.putc c) s = .next (writeByte true c .alone s) := by
  rw [exec, execPutc, whenPowered_on powered, whenLinesDriven_next _ _ lines, putCharacter_powered _ _ _ powered]

theorem exec_puts_next (text : List Byte) : exec (.puts text) s = .next (putCharacters text 0 s) := by
  refine (whenPowered_on powered _).trans ?_
  cases text with
  | nil => rfl
  | cons c cs => exact whenLinesDriven_next _ _ lines

/-- WRITELINE is the address command of its line, then the formatted text (44 R172). -/
theorem exec_writeLine_next {n : Nat} (line : n = 1 ∨ n = 2) (text : List Byte) : exec (.writeLine n text) s
    = .next (putCharacters (formatLine s.cfg text) 0
        (writeByte false (s.cfg.cmdSetDdram ||| BitVec.ofNat 8 ((n - 1) * 0x40)) .alone s)) := by
  rw [exec, execWriteLine, whenPowered_on powered, if_pos ((lineNumberValid_iff n).2 line),
    whenLinesDriven_next _ _ lines, lineTransfers, moveCursor_eq (by decide) (by omega), Nat.add_zero]

end

/-! ## GOTOXY and PUTC: one gated write -/

/-- The two ends of an operation that is one gated write: sent, or dropped and logged (42 R136). -/
theorem gatedWrite_ends {o : Host.Outcome State Fault Refusal} {rs : Bool} {b : Byte} {s : State}
    (run : o = .next (writeByte rs b .alone s)) :
    (∀ j, s.ReadyOn j → ∃ t, o = .next t ∧ t.transfers = s.transfers ++ s.samples (j + 1) ++ [writeOf rs b]
        ∧ t.pins = s.pins.written rs b ∧ t.status = s.answerAt j ∧ t.pollCnt = j + 1 ∧ SameControl s t
        ∧ t.conditions = s.conditions ∧ t.display = s.display.latch s.pins.supplied rs b)
      ∧ (1 ≤ s.cfg.pollBound → s.BusyFor s.cfg.pollBound → ∃ t, o = .next t
        ∧ t.transfers = s.transfers ++ s.samples s.cfg.pollBound ∧ t.pins = s.pins.sampled ∧ SameControl s t
        ∧ t.conditions = s.conditions ++ [.timeout .alone] ∧ t.display = s.display) := by
  refine ⟨fun j answers => ?_, fun bound busy => ?_⟩
  · obtain ⟨t, run, transfers, pins, status, pollCnt, _, _, control, conditions, display⟩ :=
      gatedWrite_ready run answers
    exact ⟨t, run, transfers, pins, status, pollCnt, control, conditions, display⟩
  · obtain ⟨pins, _, _, transfers, _, conditions, display, _⟩ := writeByte_timeout rs b .alone s bound busy
    exact ⟨_, run, transfers, pins, writeByte_control rs b .alone s, conditions, display⟩

/-- Settles O39: the gated write of the address command. -/
theorem gotoxySendsOneAddressCommand : Obligations.GotoxySendsOneAddressCommand :=
  fun _ _ _ powered lines column row => gatedWrite_ends (exec_gotoxy_next powered lines column row)

/-- Settles O40: the gated write of the character. -/
theorem putcSendsOneCharacter : Obligations.PutcSendsOneCharacter :=
  fun c _ powered lines => gatedWrite_ends (exec_putc_next powered lines c)

/-! ## PUTS and WRITELINE against a ready display -/

/-- Settles O41: the characters of the text, each at its first sample. -/
theorem putsSendsEveryCharacter : Obligations.PutsSendsEveryCharacter := by
  intro text s powered lines bound answers
  have run := exec_puts_next powered lines text
  obtain ⟨transfers, conditions, ticks, last, _⟩ := putCharacters_ready text 0 s powered bound answers
  exact ⟨_, run, transfers, ticks, (execPuts_pieces (x := true) run).control, conditions,
    fun empty => by rw [empty, putCharacters_nil], last⟩

/-- A command, then a text, against a display ready to every first sample. -/
theorem commandThenText_ready (b : Byte) (cs : List Byte) {s t : State} (powered : s.powered = true)
    (bound : 1 ≤ s.cfg.pollBound) (answers : s.ReadyFor (cs.length + 1))
    (sent : putCharacters cs 0 (writeByte false b .alone s) = t) :
    t.transfers = s.transfers ++ s.readyTrace 0 (.cmd b :: cs.map Transfer.dat) ∧ t.conditions = s.conditions
      ∧ t.ticks = s.ticks + 2 * (cs.length + 1) ∧ (∀ c, cs.getLast? = some c → t.pins = s.pins.written true c)
      ∧ t.display = cs.foldl (fun d c => d.latch s.pins.supplied true c) (s.display.latch s.pins.supplied false b) := by
  subst sent
  obtain ⟨_, onward, cfg, _⟩ := writeByte_control false b .alone s
  obtain ⟨pins, _, _, transfers, next, conditions, display, ticks⟩ :=
    writeByte_ready false b .alone s 0 (answers.readyOn (by omega) bound)
  obtain ⟨transfers', conditions', ticks', last, display'⟩ :=
    putCharacters_ready cs 0 (writeByte false b .alone s) (onward.trans powered) (by rwa [cfg])
      (fun k hk => by rw [next]; exact answers _ (by omega))
  refine ⟨?_, conditions'.trans conditions, by omega, fun c hc => ?_, ?_⟩
  · rw [transfers', transfers, State.readyTrace_shift s _ 0 _ next]
    simp [State.readyTrace, State.samples_one, writeOf]
  · rw [last c hc, pins]; rfl
  · rw [display', display, pins]; rfl

/-- Settles O42: the address command, then the sixteen formatted bytes. -/
theorem writeLineSendsSeventeenTransfers : Obligations.WriteLineSendsSeventeenTransfers := by
  intro n text s powered lines bound line answers
  have run := exec_writeLine_next powered lines line text
  have length := formatLine_length s.cfg text
  obtain ⟨transfers, conditions, ticks, last, _⟩ :=
    commandThenText_ready _ _ powered bound (by rwa [length]) rfl
  rw [length] at ticks
  exact ⟨_, run, transfers, ticks, (execWriteLine_pieces (x := true) run).control, conditions, last⟩

/-! ## Transfer counts (44 R173) -/

/-- A predicate that holds of each write and of each sample or of none is counted from the writes alone. -/
theorem State.readyTrace_countP (s : State) {p : Transfer → Bool} {z : Bool} (onSts : ∀ v, p (.sts v) = z) (k : Nat)
    (ws : List Transfer) : (s.readyTrace k ws).countP p = ws.countP p + z.toNat * ws.length := by
  induction ws generalizing k with
  | nil => rfl
  | cons w ws ih =>
    rw [State.readyTrace, List.countP_cons, List.countP_cons, List.countP_cons, ih, onSts, List.length_cons,
      Nat.mul_succ]
    cases z with
    | false => simp
    | true => simp; omega

theorem countP_map_of_forall {α β : Type} {p : β → Bool} {f : α → β} {x : Bool} (const : ∀ a, p (f a) = x)
    (l : List α) : (l.map f).countP p = x.toNat * l.length := by
  rw [List.countP_map, show p ∘ f = fun _ => x from funext const]
  cases x <;> simp

/-- The entries of one kind in the trace of commands and then characters against a ready display. -/
theorem State.readyTrace_filter_length (s : State) {p : Transfer → Bool} (x y z : Bool) (onCmd : ∀ b, p (.cmd b) = x)
    (onDat : ∀ b, p (.dat b) = y) (onSts : ∀ v, p (.sts v) = z) (k : Nat) (cs ds : List Byte) :
    ((s.readyTrace k (cs.map Transfer.cmd ++ ds.map Transfer.dat)).filter p).length
      = x.toNat * cs.length + y.toNat * ds.length + z.toNat * (cs.length + ds.length) := by
  rw [← List.countP_eq_length_filter, s.readyTrace_countP onSts, List.countP_append, countP_map_of_forall onCmd,
    countP_map_of_forall onDat, List.length_append, List.length_map, List.length_map]

theorem raiseContract_transfers {k : Violation} {s t : State} (h : raiseContract k s = .next t) :
    t.transfers = s.transfers := by
  rw [raiseContract_eq_next h]; rfl

/-- Behind the gate an operation that adds no transfer adds none, and the gate adds none. -/
theorem whenPowered_transfers {o : Host.Outcome State Fault Refusal} {s t : State} (h : whenPowered s o = .next t)
    (ho : o = .next t → t.transfers = s.transfers) : t.transfers = s.transfers := by
  rcases whenPowered_eq_next h with e | rfl
  · exact ho e
  · rfl

theorem exec_gotoxy_outOfRange {x y : Nat} (out : 16 ≤ x ∨ 2 ≤ y) (s : State) :
    exec (.gotoxy x y) s = whenPowered s (raiseContract .cursor s) := by
  have range : ¬ cursorInRange x y = true := by rw [cursorInRange_iff]; omega
  rw [exec, execGotoxy, if_neg range]

theorem exec_writeLine_badNumber {n : Nat} (notOne : n ≠ 1) (notTwo : n ≠ 2) (text : List Byte) (s : State) :
    exec (.writeLine n text) s = whenPowered s (raiseContract .lineNumber s) := by
  have valid : ¬ lineNumberValid n = true := by rw [lineNumberValid_iff]; omega
  rw [exec, execWriteLine, if_neg valid]

/-- Settles O44: each operation issues some commands and then some characters; the gate and a violation issue none. -/
theorem textTransferCounts : Obligations.TextTransferCounts := by
  refine fun s => ⟨fun lines bound i cmds dats op powered answers => ?_, fun i text off => ?_, fun i t bad run => ?_⟩
  · have sent : ∃ (t : State) (cs ds : List Byte), exec i s = .next t
        ∧ t.transfers = s.transfers ++ s.readyTrace 0 (cs.map Transfer.cmd ++ ds.map Transfer.dat)
        ∧ cs.length = cmds ∧ ds.length = dats := by
      rcases op with ⟨x, y, rfl, column, row, rfl, rfl⟩ | ⟨c, rfl, rfl, rfl⟩ | ⟨text, rfl, rfl, rfl⟩
        | ⟨n, text, rfl, line, rfl, rfl⟩
      · obtain ⟨t, run, transfers, _⟩ :=
          (gotoxySendsOneAddressCommand x y s powered lines column row).1 0 (answers.readyOn (by decide) bound)
        exact ⟨t, [_], [], run, transfers.trans (List.append_assoc _ _ _), rfl, rfl⟩
      · obtain ⟨t, run, transfers, _⟩ :=
          (putcSendsOneCharacter c s powered lines).1 0 (answers.readyOn (by decide) bound)
        exact ⟨t, [], [_], run, transfers.trans (List.append_assoc _ _ _), rfl, rfl⟩
      · obtain ⟨t, run, transfers, _⟩ :=
          putsSendsEveryCharacter text s powered lines bound (by rwa [Nat.zero_add] at answers)
        exact ⟨t, [], text, run, transfers, rfl, rfl⟩
      · obtain ⟨t, run, transfers, _⟩ := writeLineSendsSeventeenTransfers n text s powered lines bound line answers
        exact ⟨t, [_], _, run, transfers, rfl, formatLine_length s.cfg text⟩
    obtain ⟨t, cs, ds, run, transfers, rfl, rfl⟩ := sent
    refine ⟨t, _, run, transfers, ?_, ?_, ?_⟩
    · rw [s.readyTrace_filter_length true false false (fun _ => rfl) (fun _ => rfl) (fun _ => rfl)]; simp
    · rw [s.readyTrace_filter_length false true false (fun _ => rfl) (fun _ => rfl) (fun _ => rfl)]; simp
    · rw [s.readyTrace_filter_length false false true (fun _ => rfl) (fun _ => rfl) (fun _ => rfl)]; simp
  · exact ⟨_, exec_textOp_off text off, rfl⟩
  · rcases bad with ⟨x, y, rfl, out⟩ | ⟨n, text, rfl, notOne, notTwo⟩
    · rw [exec_gotoxy_outOfRange out] at run
      exact whenPowered_transfers run raiseContract_transfers
    · rw [exec_writeLine_badNumber notOne notTwo] at run
      exact whenPowered_transfers run raiseContract_transfers

/-! ## PUTS and WRITELINE against any display -/

/-- Settles O43: the characters that the gated writes drop, after the address command's own end. -/
theorem textDropsButNeverReorders : Obligations.TextDropsButNeverReorders := by
  refine fun s powered lines => ⟨fun text => ?_, fun n text line => ?_⟩
  · obtain ⟨new, indices, transfers, conditions, increasing, inside, writes⟩ := putCharacters_dropped text 0 s powered
    refine ⟨_, new, indices, exec_puts_next powered lines text, transfers, conditions, increasing, fun k mem => ?_,
      writes, ?_, ?_⟩
    · have := inside k mem; rw [List.length_map] at this; omega
    · rw [writes]; exact without_sublist _ _ _
    · rw [writes, without_length _ _ _ increasing inside, List.length_map]
  · have run := exec_writeLine_next powered lines line text
    generalize s.cfg.cmdSetDdram ||| BitVec.ofNat 8 ((n - 1) * 0x40) = b at run ⊢
    have length : ((formatLine s.cfg text).map Transfer.dat).length = 16 := by
      rw [List.length_map, formatLine_length]
    obtain ⟨_, onward, _⟩ := writeByte_control false b .alone s
    obtain ⟨first, dropped, transfers, conditions, command⟩ := writeByte_dropped false b .alone s
    obtain ⟨new, indices, transfers', conditions', increasing, inside, writes⟩ :=
      putCharacters_dropped (formatLine s.cfg text) 0 (writeByte false b .alone s) (onward.trans powered)
    have all : (first ++ new).filter Transfer.isWrite = (if dropped = true then [] else [.cmd b])
        ++ without indices 0 ((formatLine s.cfg text).map Transfer.dat) := by
      rw [List.filter_append, command, writes]; rfl
    have count := without_length _ _ _ increasing inside
    refine ⟨_, first ++ new, dropped, indices, run, by rw [transfers', transfers, List.append_assoc],
      by rw [conditions', conditions], increasing, fun k mem => ?_, all, ?_, ?_⟩
    · have := inside k mem; omega
    · rw [all]
      cases dropped with
      | true => exact (without_sublist _ _ _).cons _
      | false => exact (without_sublist _ _ _).cons_cons _
    · rw [all, List.length_append]
      cases dropped <;> simp <;> omega

/-! ## The fixture after WRITELINE (95 P2; log 13) -/

/-- Data bytes from a DDRAM address on stand there in order, and nothing else is stored. -/
theorem Display.dataAll_ddram (bs : List Byte) (d : Display) (target : d.target = .ddram)
    (fits : d.address.toNat + bs.length < ddramSize) :
    (d.dataAll bs).cgram = d.cgram ∧ ∀ a, (d.dataAll bs).ddram.read a =
      if d.address.toNat ≤ a ∧ a < d.address.toNat + bs.length then bs[a - d.address.toNat]?
      else d.ddram.read a := by
  induction bs generalizing d with
  | nil => exact ⟨rfl, fun a => (if_neg (by simp)).symm⟩
  | cons b bs ih =>
    rw [List.length_cons] at fits ⊢
    rw [ddramSize] at fits
    have next : (d.data b).address.toNat = d.address.toNat + 1 := by
      rw [Display.data_address, BitVec.toNat_add_of_lt (by simp; omega)]; rfl
    have stored : (d.data b).ddram = d.ddram.write d.address.toNat b := by
      rw [Display.data_ddram_of_ddram d b target, Display.storeAddress, target]
    obtain ⟨cgram, placed⟩ := ih (d.data b) ((d.data_target b).trans target) (by rw [ddramSize]; omega)
    refine ⟨cgram.trans (d.data_cgram_of_ddram b target), fun a => (placed a).trans ?_⟩
    rw [next, stored]
    rcases Nat.lt_trichotomy a d.address.toNat with below | here | above
    · rw [if_neg (by omega), if_neg (by omega), Memory.read_write_other _ _ _ _ (by omega)]
    · rw [if_neg (by omega), if_pos (by omega), here, Memory.read_write_same, Nat.sub_self]; rfl
    · rw [Memory.read_write_other _ _ _ _ (by omega),
        show a - d.address.toNat = a - (d.address.toNat + 1) + 1 by omega, List.getElem?_cons_succ]
      exact if_congr (by omega) rfl rfl

/-- The display record after WRITELINE: the counter placed at the start of the line, then the formatted bytes. -/
theorem exec_writeLine_display {n : Nat} {s : State} (powered : s.powered = true) (lines : s.pins.LinesDriven)
    (supplied : s.pins.supplied = true) (bound : 1 ≤ s.cfg.pollBound) (line : n = 1 ∨ n = 2) (answers : s.ReadyFor 17)
    (default : s.cfg.cmdSetDdram = 0x80#8) (text : List Byte) : ∃ t, exec (.writeLine n text) s = .next t
      ∧ t.display = Display.dataAll { s.display with address := ddramAddress 0 (n - 1), target := .ddram }
          (formatLine s.cfg text) := by
  obtain ⟨_, _, _, _, display⟩ := commandThenText_ready (s.cfg.cmdSetDdram ||| BitVec.ofNat 8 ((n - 1) * 0x40))
    (formatLine s.cfg text) powered bound (by rwa [formatLine_length]) rfl
  refine ⟨_, exec_writeLine_next powered lines line text, display.trans ?_⟩
  rw [supplied, default, ← Nat.add_zero ((n - 1) * 0x40), ← ddramAddress_setWidth (by decide) (by omega),
    ← Display.command_setDdram]
  rfl

/-- Settles O60: the address command places the counter, and the bytes are stored from there on. -/
theorem writeLineFillsItsLine : Obligations.WriteLineFillsItsLine := by
  intro n text s powered lines supplied bound line answers default
  obtain ⟨-, -, -, -, -, -, -, -, -, -, ddram⟩ := default
  obtain ⟨t, run, display⟩ := exec_writeLine_display powered lines supplied bound line answers ddram text
  have start : (ddramAddress 0 (n - 1)).toNat = (n - 1) * 0x40 := ddramAddress_toNat (by decide) (by omega)
  have length := formatLine_length s.cfg text
  obtain ⟨cgram, stored⟩ := Display.dataAll_ddram (formatLine s.cfg text)
    { s.display with address := ddramAddress 0 (n - 1), target := .ddram } rfl
    (by rw [start, length, ddramSize]; omega)
  rw [start, length] at stored
  refine ⟨t, run, fun k inside => ?_, fun a outside => ?_, by rw [display, cgram]⟩
  · rw [display, stored, if_pos (by omega), Nat.add_sub_cancel_left]
  · rw [display, stored, if_neg (by omega)]

end Sys2Proof.Machine
end

section
/-! The exception statements (spec/60_exceptions.md R187, R188): a contract violation aborts, or faults in a debug
build. -/

namespace Sys2Proof.Machine

/-- Settles O38: with the gate open, a bad operand comes down to raising its own violation. -/
theorem contractViolationsAbort : Obligations.ContractViolationsAbort := by
  refine fun s powered => ⟨fun x y out => ?cursor, fun n text notOne notTwo => ?lineNumber⟩
  case cursor => exact (exec_gotoxy_outOfRange out s).trans (whenPowered_on powered _)
  case lineNumber => exact (exec_writeLine_badNumber notOne notTwo text s).trans (whenPowered_on powered _)

end Sys2Proof.Machine
end

section
/-! The reset and hazard statements (spec/70_reset_and_hazards.md R226, R233): the Enable pulses of a host operation
are clean, and with the lines driven every host operation completes. -/

namespace Sys2Proof.Machine

/-! ## Enable -/

theorem powerOn_enableRests (s : State) : EnableRests s (powerOn s) :=
  powerOn_rel (R := EnableRests) EnableRests.refl EnableRests.trans (fun _ _ => .of_eq rfl rfl)
    (fun _ => .of_eq rfl rfl) powerUpPhase_enableRests writeByte_enableRests (fun _ _ _ => .of_eq rfl rfl) s

theorem powerOff_enableRests (s : State) : EnableRests s (powerOff s) :=
  powerOff_rel (R := EnableRests) EnableRests.trans (fun _ _ => .of_eq rfl rfl) (fun _ => .of_eq rfl rfl)
    powerDownPhase_enableRests s

/-- A host operation is a power sequence, or gated writes and raises one after another. -/
theorem exec_enableRests {i : Instr} {s t : State} (exposed : i.exposed = true) (h : exec i s = .next t) :
    EnableRests s t := by
  rcases exec_cases h with rfl | rfl | pieces
  · exact powerOn_enableRests s
  · exact powerOff_enableRests s
  · rw [exposed] at pieces
    exact pieces.enableRests

/-- Settles O54: from Enable low, what a host operation adds to the waveform is clean and leaves Enable low. -/
theorem enablePulsesAreClean : Obligations.EnablePulsesAreClean := by
  intro i s t exposed low run
  obtain ⟨⟨w, waveform, _, clean⟩, rests⟩ := exec_enableRests exposed run low
  exact ⟨w, waveform, clean, rests⟩

/-! ## Completion

Only an undriven line, or a violation in a debug build, could stop a host operation; the power gate never does. -/

section
variable {s : State}

theorem raiseContract_completes (release : s.cfg.debugAssert = false) (k : Violation) :
    ∃ t, raiseContract k s = .next t :=
  ⟨s.raise (.contractViolation k), if_neg (by simp [release])⟩

/-- With the gate closed an operation raises and ends (44 R165), so only its open side can stop it. -/
theorem whenPowered_completes {o : Host.Outcome State Fault Refusal} (h : ∃ t, o = .next t) :
    ∃ t, whenPowered s o = .next t := by
  unfold whenPowered
  split
  · exact h
  · exact ⟨_, rfl⟩

/-- A range check with driven lines: the operation itself if it passes, the violation if not. -/
theorem rangeCheck_completes (lines : s.pins.LinesDriven) (release : s.cfg.debugAssert = false) {ok : Bool}
    {t : State} {k : Violation} : ∃ u, (if ok then whenLinesDriven s t else raiseContract k s) = .next u := by
  cases ok with
  | true => exact ⟨t, whenLinesDriven_next s t lines⟩
  | false => exact raiseContract_completes release k

end

/-- Settles O55: driven lines let every transfer through, and in a release build a violation is only logged. -/
theorem hostOperationsComplete : Obligations.HostOperationsComplete := by
  intro i s exposed lines release
  cases i with
  | powerOn => exact ⟨powerOn s, rfl⟩
  | powerOff => exact ⟨powerOff s, rfl⟩
  | writeCmd b => exact ⟨_, exec_writeCmd_next lines b⟩
  | writeData b => exact ⟨_, exec_writeData_next lines b⟩
  | gotoxy x y => exact whenPowered_completes (rangeCheck_completes lines release)
  | putc c => exact whenPowered_completes ⟨_, whenLinesDriven_next s _ lines⟩
  | puts text =>
    refine whenPowered_completes ?_
    cases text with
    | nil => exact ⟨s, rfl⟩
    | cons c cs => exact ⟨_, whenLinesDriven_next s _ lines⟩
  | writeLine n text => exact whenPowered_completes (rangeCheck_completes lines release)
  | _ => exact absurd exposed Bool.false_ne_true

end Sys2Proof.Machine
end

section
/-! The word vectors of spec/95_test_vectors.md part 3 (family E): each word is the encoder's, so the round trip decodes
it; a command byte is decoded by the row of its table that has it. -/

namespace Sys2Proof.Laws

open Sys2Proof Sys2Proof.Machine

/-- Where the rows of each table are apart, a row with a byte gives the operation of that byte on its command port. -/
theorem decode_commandRequest_of_row {c : Config} {t : InstructionTable} {r : CommandRow} {b : Byte}
    (distinct : CommandsDistinct c) (mem : r ∈ commandTable c t) (has : r.has b) :
    decode c (commandRequest t b) = .ok (r.read b) := by
  have apart : ((commandTable c t).map CommandRow.bits).Pairwise RowsApart := by
    obtain ⟨one, zero⟩ := distinct
    rw [commandTable_bits]
    cases t
    · exact zero
    · exact one
  rw [decode_commandRequest, decodeCommand_eq, readRows_of_mem apart mem has, Option.getD_some]

/-- Settles O4: six words by the round trip of their operations; the byte 0x75 by contrast-low in table 1 (30 R79) and
by set-CGRAM-address in table 0 (30 R81). -/
theorem vectorWordsDecode : Obligations.VectorWordsDecode := by
  intro c
  have ofWord : ∀ i : Instr, i.wellFormed = true → commandByte c i = none → decode c (encode c i) = .ok i :=
    fun _ => decode_encode_of_not_command
  refine ⟨ofWord .powerOn rfl rfl, ofWord (.writeCmd 0x38#8) rfl rfl, ofWord (.gotoxy 5 1) rfl rfl,
    ofWord (.writeLine 2 [0x48#8, 0x69#8]) rfl rfl, ofWord (.setCtl .rw true) rfl rfl,
    ofWord (.busDat 0x48#8) rfl rfl, fun default => ?_⟩
  have distinct := commandsDistinct_of_default default
  obtain ⟨_, _, _, _, contrast, _, cgram, _⟩ := default
  constructor
  · exact decode_commandRequest_of_row (t := .one) (r := .field contrastMask c.cmdContrastBase .lcdContrastLo)
      (b := 0x75#8) distinct (by simp [commandTable, ownTable]) (by rw [contrast]; decide)
  · exact decode_commandRequest_of_row (t := .zero) (r := .field setCgramMask c.cmdSetCgram .lcdSetCgram)
      (b := 0x75#8) distinct (by simp [commandTable, ownTable]) (by rw [cgram]; decide)

end Sys2Proof.Laws
end
